-- ==== Sys2Proof/Word.lean ====
section
/-! DEFINITION. The word types of the block and bit strings (00_scope.md R10, R11). -/

namespace Sys2Proof

/-- A byte value, 0 to 255; also one byte of OUT (R8, SYM_BITS = 8). -/
abbrev Byte := BitVec 8

/-- A finite sequence of bytes, first byte first (R13, `Bytes`). -/
abbrev Bytes := List Byte

/-- The command word `{op[79:72], sym[71:64], data[63:0]}` (R80). -/
abbrev CmdWord := BitVec 80

/-- The response word `{status[71:64], data[63:0]}` (R81). -/
abbrev RspWord := BitVec 72

/-- A bit string, first bit first; `false` is the character '0' and `true` is '1' (R11). -/
abbrev BitString := List Bool

end Sys2Proof
end

