-- ==== Sys2Proof/Config.lean ====
section
/-! DEFINITION. The implementation parameters of 00_scope.md R8. All are fixed by the spec; the block has no
option, strap or model argument (R9), and no value of it is left open (93_implementation_defined.md: every command
in every state has exactly one outcome), so there is no free value here. The
parameters that are widths (COUNT_BITS, SYM_BITS and the like) are the widths of the types in Word.lean, Syntax.lean
and Machine/State.lean. -/

namespace Sys2Proof.Config

/-- NSYM_MAX: most distinct symbols. -/
def nsymMax : Nat := 256

/-- The largest legal frequency count, 2^31 - 1 (COUNT_BITS = 31). -/
def countMax : Nat := 2 ^ 31 - 1

/-- The largest legal original size, 2^63 - 1. -/
def sizeMax : Nat := 2 ^ 63 - 1

/-- NODE_MAX: node memory entries, indices 0 to 510. -/
def nodeMax : Nat := 511

/-- Where the internal nodes begin in node memory: the k-th merge makes node 256 + k (10_state.md R33). -/
def internalBase : Nat := 256

/-- CODE_MAX: the longest code in bits. -/
def codeMax : Nat := 255

/-- The longest candidate the unpacker holds between bits (10_state.md R32). -/
def candidateMax : Nat := 254

end Sys2Proof.Config
end

