-- ==== Sys2Proof/Syntax.lean ====
section
/-! DEFINITION. The 18 commands of 30_encoding.md R84, one constructor per row of spec/opcode_table.json. An operand
is the field R82 lists for the command, at the field's own width. A field R82 calls ignored is no operand, with the
one exception R86 makes: a command that can raise and does not use `sym` still carries it, because ERRCMD records
`sym` as presented (log entry 13). -/

namespace Sys2Proof

inductive Instr where
  /-- NOP, op 0x00 (R100). It never raises, so it carries nothing. -/
  | nop
  /-- CLR, op 0x01 (R101). It never raises. -/
  | clr
  /-- RDS r, op 0x02 (R102): `r` is `sym`, a register number. -/
  | rds (r : BitVec 8)
  /-- FTW v, c, op 0x10 (R110): `v` is `sym`, `c` is the whole of `data`. -/
  | ftw (v : BitVec 8) (c : BitVec 64)
  /-- FTR v, op 0x11 (R111): `v` is `sym`. -/
  | ftr (v : BitVec 8)
  /-- SETN n, op 0x12 (R112): `n` is `data`; `sym` is recorded only (R86). -/
  | setn (sym : BitVec 8) (n : BitVec 64)
  /-- BUILD, op 0x20 (R123); `sym` is recorded only. -/
  | build (sym : BitVec 8)
  /-- NDR i, op 0x21 (R124): `i` is `data[8:0]`. -/
  | ndr (i : BitVec 9)
  /-- NDW i, op 0x22 (R125): `i` is `data[8:0]`. -/
  | ndw (i : BitVec 9)
  /-- GEN, op 0x30 (R140); `sym` is recorded only. -/
  | gen (sym : BitVec 8)
  /-- CTL v, op 0x31 (R144): `v` is `sym`. -/
  | ctl (v : BitVec 8)
  /-- CTB v, q, op 0x32 (R145): `v` is `sym`, the chunk number `q` is `data[1:0]`. -/
  | ctb (v : BitVec 8) (q : BitVec 2)
  /-- PKS, op 0x40 (R150); `sym` is recorded only. -/
  | pks (sym : BitVec 8)
  /-- PKB b, op 0x41 (R151): `b` is `sym`. -/
  | pkb (b : BitVec 8)
  /-- PKE, op 0x42 (R152); `sym` is recorded only. -/
  | pke (sym : BitVec 8)
  /-- UPS, op 0x50 (R160); `sym` is recorded only. -/
  | ups (sym : BitVec 8)
  /-- UPB p, op 0x51 (R162): `p` is `sym`. -/
  | upb (p : BitVec 8)
  /-- UPE, op 0x52 (R163); `sym` is recorded only. -/
  | upe (sym : BitVec 8)
deriving DecidableEq, Repr

end Sys2Proof
end

