-- ==== Sys2Proof/WellFormed.lean ====
section
/-! DEFINITION. Well-formedness of a command: the "range check" column of 30_encoding.md R82, written as plain
bounds. Every operand has its field's exact width, so every term of `Instr` can be encoded; an ill-formed one is a
command whose operand the block itself refuses with E_OPERAND. The block's own test stands in Machine/Operands.lean
(`operandOk`), and Laws/Operands.lean proves that the two agree. -/

namespace Sys2Proof

/-- The range check of R82: a defined register number for RDS, a count up to 2^31 - 1 for FTW, a size up to
2^63 - 1 for SETN, and no check for any other command. -/
def Instr.wellFormed : Instr → Bool
  | .rds r => decide (r.toNat ≤ 0x0F ∧ r.toNat ≠ 0x0B)
  | .ftw _ c => decide (c.toNat ≤ Config.countMax)
  | .setn _ n => decide (n.toNat ≤ Config.sizeMax)
  | .nop => true
  | .clr => true
  | .ftr _ => true
  | .build _ => true
  | .ndr _ => true
  | .ndw _ => true
  | .gen _ => true
  | .ctl _ => true
  | .ctb _ _ => true
  | .pks _ => true
  | .pkb _ => true
  | .pke _ => true
  | .ups _ => true
  | .upb _ => true
  | .upe _ => true

end Sys2Proof
end

