-- ==== Sys2Proof/Decode.lean ====
section
/-! DEFINITION. The command decoder and, after it, the encoder (30_encoding.md R80, R82, R84, R85). A command is one
80-bit word; only `op` selects the command (R84: every mask is 0xFF000000000000000000). -/

namespace Sys2Proof

/-- `op = cmd[79:72]` (R80). -/
def opField (w : CmdWord) : BitVec 8 := w.extractLsb' 72 8

/-- `sym = cmd[71:64]` (R80). -/
def symField (w : CmdWord) : BitVec 8 := w.extractLsb' 64 8

/-- `data = cmd[63:0]` (R80). -/
def dataField (w : CmdWord) : BitVec 64 := w.extractLsb' 0 64

/-- Why a word is no command. -/
inductive DecodeError where
  /-- `op` is one of the 238 values of R85. The block does not stop on it: it raises E_ILLEGAL. -/
  | undefinedOpcode (op : BitVec 8)
deriving DecidableEq, Repr

/-- The command of a word, or the name of the reason there is none (R84, R85). -/
def decode (w : CmdWord) : Except DecodeError Instr :=
  match opField w with
  | 0x00#8 => .ok .nop
  | 0x01#8 => .ok .clr
  | 0x02#8 => .ok (.rds (symField w))
  | 0x10#8 => .ok (.ftw (symField w) (dataField w))
  | 0x11#8 => .ok (.ftr (symField w))
  | 0x12#8 => .ok (.setn (symField w) (dataField w))
  | 0x20#8 => .ok (.build (symField w))
  | 0x21#8 => .ok (.ndr ((dataField w).extractLsb' 0 9))
  | 0x22#8 => .ok (.ndw ((dataField w).extractLsb' 0 9))
  | 0x30#8 => .ok (.gen (symField w))
  | 0x31#8 => .ok (.ctl (symField w))
  | 0x32#8 => .ok (.ctb (symField w) ((dataField w).extractLsb' 0 2))
  | 0x40#8 => .ok (.pks (symField w))
  | 0x41#8 => .ok (.pkb (symField w))
  | 0x42#8 => .ok (.pke (symField w))
  | 0x50#8 => .ok (.ups (symField w))
  | 0x51#8 => .ok (.upb (symField w))
  | 0x52#8 => .ok (.upe (symField w))
  | op => .error (.undefinedOpcode op)

/-- The word `{op, sym, data}` (R80). -/
def cmdWord (op sym : BitVec 8) (data : BitVec 64) : CmdWord := op ++ sym ++ data

/-- The opcode of a command (R84). -/
def Instr.opcode : Instr → BitVec 8
  | .nop => 0x00
  | .clr => 0x01
  | .rds _ => 0x02
  | .ftw _ _ => 0x10
  | .ftr _ => 0x11
  | .setn _ _ => 0x12
  | .build _ => 0x20
  | .ndr _ => 0x21
  | .ndw _ => 0x22
  | .gen _ => 0x30
  | .ctl _ => 0x31
  | .ctb _ _ => 0x32
  | .pks _ => 0x40
  | .pkb _ => 0x41
  | .pke _ => 0x42
  | .ups _ => 0x50
  | .upb _ => 0x51
  | .upe _ => 0x52

/-- The `sym` field of a command: the operand R82 puts there, or the `sym` the command carries for ERRCMD (R86);
0 for a command that does neither (R88: the assembler puts 0 in every unused field). -/
def Instr.sym : Instr → BitVec 8
  | .nop => 0
  | .clr => 0
  | .rds r => r
  | .ftw v _ => v
  | .ftr v => v
  | .setn s _ => s
  | .build s => s
  | .ndr _ => 0
  | .ndw _ => 0
  | .gen s => s
  | .ctl v => v
  | .ctb v _ => v
  | .pks s => s
  | .pkb b => b
  | .pke s => s
  | .ups s => s
  | .upb p => p
  | .upe s => s

/-- The `data` field of a command: the operand R82 puts there, zero-extended to the field (R82: no field is
sign-extended, scaled or shifted), and 0 where `data` is ignored. -/
def Instr.data : Instr → BitVec 64
  | .nop => 0
  | .clr => 0
  | .rds _ => 0
  | .ftw _ c => c
  | .ftr _ => 0
  | .setn _ n => n
  | .build _ => 0
  | .ndr i => i.zeroExtend 64
  | .ndw i => i.zeroExtend 64
  | .gen _ => 0
  | .ctl _ => 0
  | .ctb _ q => q.zeroExtend 64
  | .pks _ => 0
  | .pkb _ => 0
  | .pke _ => 0
  | .ups _ => 0
  | .upb _ => 0
  | .upe _ => 0

/-- The word of a command. -/
def encode (i : Instr) : CmdWord := cmdWord i.opcode i.sym i.data

/-- The bits of the command word that matter to a command: `op`, and the fields R82 lists for it, with `sym` also
where ERRCMD may record it (R86). -/
def Instr.usedMask : Instr → CmdWord
  | .nop => cmdWord 0xFF 0x00 0
  | .clr => cmdWord 0xFF 0x00 0
  | .rds _ => cmdWord 0xFF 0xFF 0
  | .ftw _ _ => cmdWord 0xFF 0xFF 0xFFFFFFFFFFFFFFFF
  | .ftr _ => cmdWord 0xFF 0xFF 0
  | .setn _ _ => cmdWord 0xFF 0xFF 0xFFFFFFFFFFFFFFFF
  | .build _ => cmdWord 0xFF 0xFF 0
  | .ndr _ => cmdWord 0xFF 0x00 0x1FF
  | .ndw _ => cmdWord 0xFF 0x00 0x1FF
  | .gen _ => cmdWord 0xFF 0xFF 0
  | .ctl _ => cmdWord 0xFF 0xFF 0
  | .ctb _ _ => cmdWord 0xFF 0xFF 0x3
  | .pks _ => cmdWord 0xFF 0xFF 0
  | .pkb _ => cmdWord 0xFF 0xFF 0
  | .pke _ => cmdWord 0xFF 0xFF 0
  | .ups _ => cmdWord 0xFF 0xFF 0
  | .upb _ => cmdWord 0xFF 0xFF 0
  | .upe _ => cmdWord 0xFF 0xFF 0

/-- The command word of `nbits` bits numbered as spec/opcode_table.json numbers them. The table writes each row as
one 80-bit number with bit 0 its least significant bit, and a command is one whole word that is never split into
bytes (20_memory.md R62), so the bits stand where they are and every bit from `nbits` up is 0 (log entry 15). -/
def tableWord (nbits w : Nat) : CmdWord := BitVec.ofNat 80 (w % 2 ^ nbits)

/-- The instruction the decoder reads from a table word. -/
def decodeTableWord (nbits w : Nat) : Option Instr :=
  match decode (tableWord nbits w) with
  | .ok i => some i
  | .error _ => none

end Sys2Proof
end

