-- ==== Sys2Proof/Machine/State.lean ====
section
/-! DEFINITION. The block's state as plain data: the tuple of 10_state.md R20, and two lists that are the model's own,
the host's commands still to come and the responses already given (log entries 1 and 2). Nothing here computes. -/

namespace Sys2Proof.Machine

/-- A memory addressed by entry index (20_memory.md R60, R63): the entries that differ from the all-zero entry, as
(index, entry) pairs, indices strictly rising. An unlisted entry reads as the all-zero entry, which is its reset
value (R40). `Memory.wf` of Machine/Ops.lean says that this form holds (log entry 5). -/
abbrev Memory (α : Type) := List (Nat × α)

/-- The phases of R22. Code 6 is "never taken; no rule writes 6", so it has no name here (log entry 11). -/
inductive Phase where
  /-- code 0: reset state; the frequency table may be written; no tree -/
  | load
  /-- code 1: the tree is in NM; no code table -/
  | built
  /-- code 2: the code table is in CT -/
  | coded
  /-- code 3: packing in progress -/
  | pack
  /-- code 4: unpacking in progress -/
  | unpack
  /-- code 5: the call's stream has ended without error -/
  | done
  /-- code 7: an error was raised; terminal for the call -/
  | fault
deriving DecidableEq, Repr

/-- The status values of 60_exceptions.md R200. -/
inductive Status where
  /-- 0x00: no error -/
  | ok
  /-- 0x01, EmptyInputError: the host's, never raised by the block (R201) -/
  | eEmpty
  /-- 0x02, TreeConstructionError (R202) -/
  | eTree
  /-- 0x03, InvalidFormatError: the host's, never raised by the block (R201) -/
  | eFormat
  /-- 0x04, DecodeSizeMismatchError (R203) -/
  | eSize
  /-- 0x10: undefined opcode (R204) -/
  | eIllegal
  /-- 0x11: operand out of range (R206) -/
  | eOperand
  /-- 0x12: command not legal in this phase (R205) -/
  | eSeq
  /-- 0x13: source byte has no code (R207) -/
  | eNoCode
  /-- 0x1F: refused because an error is latched; never stored in ERR (R208) -/
  | eFaulted
deriving DecidableEq, Repr

/-- The two node kinds of R33: tag 0 and tag 1. -/
inductive NodeTag where
  | leaf
  | internal
deriving DecidableEq, Repr

/-- A node record (R33), 67 bits. A leaf's byte value is `ml`. -/
structure NodeRec where
  /-- the entry holds a node of the current tree -/
  valid : Bool
  /-- leaf or internal -/
  tag   : NodeTag
  /-- weight -/
  w     : BitVec 39
  /-- minleaf -/
  ml    : BitVec 8
  /-- node index of the left child, 0 in a leaf -/
  l     : BitVec 9
  /-- node index of the right child, 0 in a leaf -/
  r     : BitVec 9
deriving DecidableEq, Repr

/-- The all-zero record: an invalid entry (R33). -/
def NodeRec.zero : NodeRec := ⟨false, .leaf, 0, 0, 0, 0⟩

/-- A code-table entry (R35): `len` and the left-aligned code bits `W`, numbered 254 down to 0. -/
structure CodeEntry where
  len : BitVec 8
  w   : BitVec 255
deriving DecidableEq, Repr

/-- The all-zero entry: no code (R35). -/
def CodeEntry.zero : CodeEntry := ⟨0, 0⟩

/-- A response `{status, data}` (R81). -/
structure Response where
  status : Status
  data   : BitVec 64
deriving DecidableEq, Repr

/-- What the host does next: offer a command word (R65), or hold `rst` at 1 over a rising clock edge, which abandons
the command then in progress, if there is one, without a response (R230, log entry 4). -/
inductive HostInput where
  | command (w : CmdWord)
  | reset (inProgress : Option CmdWord)
deriving DecidableEq, Repr

structure State where
  /-- PH (R22) -/
  ph     : Phase
  /-- ERR (R24) -/
  err    : BitVec 8
  /-- ERRCMD (R25) -/
  errcmd : BitVec 16
  /-- N (R26) -/
  n      : BitVec 64
  /-- NSYM (R27) -/
  nsym   : BitVec 9
  /-- ROOT (R28) -/
  root   : BitVec 9
  /-- NINT (R29) -/
  nint   : BitVec 8
  /-- OUTCNT (R30) -/
  outcnt : BitVec 64
  /-- PACC (R31) -/
  pacc   : BitVec 8
  /-- PCNT (R31) -/
  pcnt   : BitVec 3
  /-- CLEN (R32) -/
  clen   : BitVec 8
  /-- CBITS (R32) -/
  cbits  : BitVec 255
  /-- FT, the frequency table (R34) -/
  ft     : Memory (BitVec 31)
  /-- NM, the node memory (R33) -/
  nm     : Memory NodeRec
  /-- CT, the code table (R35) -/
  ct     : Memory CodeEntry
  /-- OUT, every byte emitted since reset, oldest first (R36) -/
  out    : List Byte
  /-- the model's own: what the host will do next, first element first (log entry 1) -/
  input  : List HostInput
  /-- the model's own: every response given since reset, oldest first (log entry 2) -/
  rsps   : List Response
deriving DecidableEq, Repr

/-- The state after reset (R40): every register 0, every memory entry 0, PH = LOAD, OUT empty. The host has offered
nothing and has no response yet. -/
def State.reset : State where
  ph := .load
  err := 0
  errcmd := 0
  n := 0
  nsym := 0
  root := 0
  nint := 0
  outcnt := 0
  pacc := 0
  pcnt := 0
  clen := 0
  cbits := 0
  ft := []
  nm := []
  ct := []
  out := []
  input := []
  rsps := []

/-- Why a step stops. The spec has no such stop: each of its errors is a next state (60_exceptions.md R210), and every
command in every state has one outcome. These names stand only for states that no run from reset reaches, in which a
rule's pseudocode has no meaning; each is safe, because the model stops where it would otherwise have to invent a
value. -/
inductive Fault where
  /-- Raised by BUILD when NSYM is not 0 and no entry of FT is present, so that R123's "the one element of Q" does not
  exist; against the invariant of R27. Safe (log entry 7). -/
  | emptyQueue
  /-- Raised by GEN when the records below ROOT form no tree whose leaves lie in 0 to 255 and whose paths have 1 to 255
  bits (R140: "1 <= |c| <= 255"); against R129. Safe (log entry 6). -/
  | malformedTree
  /-- Raised by UPB when the candidate would pass 254 bits without matching a code; against R165. Safe (log entry
  8). -/
  | candidateOverflow
deriving DecidableEq, Repr

/-- Why a command has no meaning. -/
inductive Refusal where
  /-- Raised by `exec`'s arm of an instruction that is not modelled; there is none left. Safe. -/
  | notModelled (mnemonic : String)
deriving DecidableEq, Repr

/-- What one step answers. -/
abbrev Outcome := Host.Outcome State Fault Refusal

end Sys2Proof.Machine
end

