-- ==== Sys2Proof/Machine/Operands.lean ====
section
/-! DEFINITION. Operand forms: the range checks of 30_encoding.md R82, bit strings in words (00_scope.md R11,
10_state.md R32, R35), the words the read commands answer with (R37, R124, R125, R145). -/

namespace Sys2Proof.Machine

/-- Step 4 of R83: the operand range check of R82. RDS needs a defined register number of R37, FTW a count up to
2^31 - 1, SETN a size with bit 63 clear; no other command has a check. -/
def operandOk : Instr → Bool
  | .rds r => decide (r < 0x10#8) && decide (r ≠ 0x0B#8)
  | .ftw _ c => decide (c < 0x80000000#64)
  | .setn _ n => !n.getLsbD 63
  | .nop => true
  | .clr => true
  | .ftr _ => true
  | .build _ => true
  | .ndr _ => true
  | .ndw _ => true
  | .gen _ => true
  | .ctl _ => true
  | .ctb _ _ => true
  | .pks _ => true
  | .pkb _ => true
  | .pke _ => true
  | .ups _ => true
  | .upb _ => true
  | .upe _ => true

/-- `{op, sym}` of a command, what ERRCMD records (R25). -/
def cmdId (op sym : BitVec 8) : BitVec 16 := op ++ sym

/-- Every byte value, in ascending order: the range of `for v = 0 to 255`. -/
def symbols : List Byte := (List.range 256).map (BitVec.ofNat 8)

/-- The bits of a byte, most significant first: `for k = 7 downto 0` of R162, R61. -/
def byteBits (p : Byte) : BitString := (List.range 8).map (fun k => p.getLsbD (7 - k))

/-- The 255-bit word with `W[254 - k] = c[k]` for `k < |c|` and 0 elsewhere (R140 `set_code`, R32): the first bit is
bit 254 and the rest of the string follows one place lower. -/
def leftAlign : BitString → BitVec 255
  | [] => 0
  | b :: c => (if b then 1#255 <<< 254 else 0) ||| (leftAlign c >>> 1)

/-- The first `len` bits of a left-aligned word, first bit first: `c[k] = W[254 - k]` (R32, R35). -/
def leftBits (len : BitVec 8) (w : BitVec 255) : BitString :=
  (List.range len.toNat).map (fun k => w.getLsbD (254 - k))

/-- `CT[v].bits` (R35). -/
def CodeEntry.bits (e : CodeEntry) : BitString := leftBits e.len e.w

/-- The entry `set_code` writes for a bit string of 1 to 255 bits (R140). -/
def CodeEntry.ofBits (c : BitString) : CodeEntry := ⟨BitVec.ofNat 8 c.length, leftAlign c⟩

/-- The candidate bit string held in CLEN and CBITS (R32). -/
def State.candidate (s : State) : BitString := leftBits s.clen s.cbits

/-- The 256-bit word `X, 0b0`, by which RDS and CTB read a 255-bit word in 64-bit chunks (R37, R145). -/
def framed (w : BitVec 255) : BitVec 256 := w ++ 0#1

/-- Chunk q of a framed word: `X[255 - 64*q : 192 - 64*q]` (R145). -/
def chunk (w : BitVec 255) (q : BitVec 2) : BitVec 64 := (framed w).extractLsb' (192 - 64 * q.toNat) 64

/-- The tag bit: 0 = Leaf, 1 = Internal (R33). -/
def NodeTag.bit : NodeTag → BitVec 1
  | .leaf => 0
  | .internal => 1

/-- What NDR answers: `zext_64({r, l, ml, tag, valid})` (R124). -/
def NodeRec.structureWord (x : NodeRec) : BitVec 64 :=
  (x.r ++ x.l ++ x.ml ++ x.tag.bit ++ BitVec.ofBool x.valid).zeroExtend 64

/-- The 48-bit key by which trees are ordered: `{w, tag, ml}` (R121). -/
def NodeRec.key (x : NodeRec) : BitVec 48 := x.w ++ x.tag.bit ++ x.ml

/-- The record of a leaf for byte value `v` with count `c` (R123). -/
def NodeRec.ofLeaf (v : Byte) (c : BitVec 31) : NodeRec := ⟨true, .leaf, c.zeroExtend 39, v, 0, 0⟩

/-- The record that joins node `a` on the left and node `b` on the right (R123): the weight is the sum and the
minleaf the smaller of the two. -/
def NodeRec.join (a b : Nat) (x y : NodeRec) : NodeRec :=
  ⟨true, .internal, x.w + y.w, if x.ml < y.ml then x.ml else y.ml, BitVec.ofNat 9 a, BitVec.ofNat 9 b⟩

end Sys2Proof.Machine
end

