-- ==== Sys2Proof/Machine/Flags.lean ====
section
/-! DEFINITION. Codes and status: the numbers of phases (10_state.md R22) and statuses (60_exceptions.md R200), the
response word (30_encoding.md R81), the `fault` pin (R38) and the phase legality table (R23). The block has no
condition codes (R38). -/

namespace Sys2Proof.Machine

/-- The code of a phase (R22). -/
def Phase.code : Phase → BitVec 3
  | .load => 0
  | .built => 1
  | .coded => 2
  | .pack => 3
  | .unpack => 4
  | .done => 5
  | .fault => 7

/-- The code of a status (R200). -/
def Status.code : Status → BitVec 8
  | .ok => 0x00
  | .eEmpty => 0x01
  | .eTree => 0x02
  | .eFormat => 0x03
  | .eSize => 0x04
  | .eIllegal => 0x10
  | .eOperand => 0x11
  | .eSeq => 0x12
  | .eNoCode => 0x13
  | .eFaulted => 0x1F

/-- The response as the 72-bit word on the response channel (R81). -/
def Response.word (r : Response) : RspWord := r.status.code ++ r.data

/-- The `fault` pin: a level output equal to PH = 7 (R38). -/
def State.faultPin (s : State) : Bool := decide (s.ph = .fault)

/-- The output pins of R90, less the data they carry. -/
structure Ports where
  cmdReady : Bool
  rspValid : Bool
  outValid : Bool
  fault    : Bool
deriving DecidableEq, Repr

/-- The output pins between two commands, when the response of the last has been transferred: `cmd_ready` is 0 only
from the acceptance of a command until then (R90), every byte of it left before its response (R66), and after reset the
levels are those of R230 (log entry 16). -/
def State.ports (s : State) : Ports :=
  { cmdReady := true, rspValid := false, outValid := false, fault := s.faultPin }

/-- The eight commands R212 allows in phase FAULT. -/
def allowedInFault : Instr → Bool
  | .nop => true
  | .clr => true
  | .rds _ => true
  | .ftr _ => true
  | .ndr _ => true
  | .ndw _ => true
  | .ctl _ => true
  | .ctb _ _ => true
  | .ftw _ _ => false
  | .setn _ _ => false
  | .build _ => false
  | .gen _ => false
  | .pks _ => false
  | .pkb _ => false
  | .pke _ => false
  | .ups _ => false
  | .upb _ => false
  | .upe _ => false

/-- The "legal PH" column of R23. -/
def legalIn : Instr → Phase → Bool
  | .nop, _ => true
  | .clr, _ => true
  | .rds _, _ => true
  | .ftr _, _ => true
  | .ndr _, _ => true
  | .ndw _, _ => true
  | .ctl _, _ => true
  | .ctb _ _, _ => true
  | .ftw _ _, p => decide (p = .load)
  | .setn _ _, p => decide (p = .load) || decide (p = .built) || decide (p = .coded)
  | .build _, p => decide (p = .load)
  | .gen _, p => decide (p = .built)
  | .pks _, p => decide (p = .coded)
  | .pkb _, p => decide (p = .pack)
  | .pke _, p => decide (p = .pack)
  | .ups _, p => decide (p = .coded)
  | .upb _, p => decide (p = .unpack)
  | .upe _, p => decide (p = .unpack)

/-- The errors R23 and R83 let a command raise in a phase where it is legal ("can also go to FAULT with"). -/
def mayRaise : Instr → List Status
  | .rds _ => [.eOperand]
  | .ftw _ _ => [.eOperand]
  | .setn _ _ => [.eOperand]
  | .build _ => [.eTree]
  | .pkb _ => [.eNoCode]
  | .upe _ => [.eSize]
  | .nop => []
  | .clr => []
  | .ftr _ => []
  | .ndr _ => []
  | .ndw _ => []
  | .gen _ => []
  | .ctl _ => []
  | .ctb _ _ => []
  | .pks _ => []
  | .pke _ => []
  | .ups _ => []
  | .upb _ => []

/-- The six read commands of R64 and R81, whose response carries a value. -/
def isRead : Instr → Bool
  | .rds _ => true
  | .ftr _ => true
  | .ndr _ => true
  | .ndw _ => true
  | .ctl _ => true
  | .ctb _ _ => true
  | .nop => false
  | .clr => false
  | .ftw _ _ => false
  | .setn _ _ => false
  | .build _ => false
  | .gen _ => false
  | .pks _ => false
  | .pkb _ => false
  | .pke _ => false
  | .ups _ => false
  | .upb _ => false
  | .upe _ => false

/-- The "next PH" column of R23: the phase after a command that raises nothing. -/
def nextPhase : Instr → Phase → Phase
  | .nop, p => p
  | .clr, _ => .load
  | .rds _, p => p
  | .ftr _, p => p
  | .ndr _, p => p
  | .ndw _, p => p
  | .ctl _, p => p
  | .ctb _ _, p => p
  | .ftw _ _, p => p
  | .setn _ _, p => p
  | .build _, _ => .built
  | .gen _, _ => .coded
  | .pks _, _ => .pack
  | .pkb _, p => p
  | .pke _, _ => .done
  | .ups _, _ => .unpack
  | .upb _, p => p
  | .upe _, _ => .done

end Sys2Proof.Machine
end

