-- ==== Sys2Proof/Machine/Ops.lean ====
section
/-! DEFINITION. The shared operations: reading and writing one memory entry (20_memory.md R60, R63), `emit` (R66),
`respond` (R12), `raise` (60_exceptions.md R210) and the way back from it (40_control.md R101), and the procedure by
which every command is executed (30_encoding.md R83). -/

namespace Sys2Proof.Machine

/-- The entry at index `i`; `zero` where none is listed (R40). -/
def Memory.read {α : Type} (zero : α) : Memory α → Nat → α
  | [], _ => zero
  | (j, y) :: m, i => if i = j then y else Memory.read zero m i

/-- Write one whole entry, keeping the canonical form: writing `zero` removes the entry. -/
def Memory.write {α : Type} [DecidableEq α] (zero : α) : Memory α → Nat → α → Memory α
  | [], i, x => if x = zero then [] else [(i, x)]
  | (j, y) :: m, i, x =>
    if i < j then (if x = zero then (j, y) :: m else (i, x) :: (j, y) :: m)
    else if i = j then (if x = zero then m else (i, x) :: m)
    else (j, y) :: Memory.write zero m i x

/-- The canonical form of a memory of `size` entries: indices strictly rising and below `size`, no listed entry equal
to `zero`. -/
def Memory.wf {α : Type} [DecidableEq α] (zero : α) (size : Nat) (m : Memory α) : Bool :=
  decide (m.Pairwise (fun c d => c.1 < d.1)) && m.all (fun c => decide (c.1 < size) && decide (c.2 ≠ zero))

/-- `FT[v]` (R34). -/
def ftRead (m : Memory (BitVec 31)) (v : Byte) : BitVec 31 := Memory.read 0 m v.toNat

/-- `FT[v] <- c`. -/
def ftWrite (m : Memory (BitVec 31)) (v : Byte) (c : BitVec 31) : Memory (BitVec 31) := Memory.write 0 m v.toNat c

/-- `NM[i] if i <= 510 else all-zero record` (R124). -/
def nmRead (m : Memory NodeRec) (i : Nat) : NodeRec :=
  if i < Config.nodeMax then Memory.read NodeRec.zero m i else NodeRec.zero

/-- `NM[i] <- rec`. -/
def nmWrite (m : Memory NodeRec) (i : Nat) (x : NodeRec) : Memory NodeRec := Memory.write NodeRec.zero m i x

/-- `CT[v]` (R35). -/
def ctRead (m : Memory CodeEntry) (v : Byte) : CodeEntry := Memory.read CodeEntry.zero m v.toNat

/-- `CT[v] <- e`. -/
def ctWrite (m : Memory CodeEntry) (v : Byte) (e : CodeEntry) : Memory CodeEntry :=
  Memory.write CodeEntry.zero m v.toNat e

/-- `respond(st, d)`: the response `{st, d}`, which ends the command (R12, R81). -/
def State.respond (s : State) (st : Status) (d : BitVec 64) : State := { s with rsps := s.rsps ++ [⟨st, d⟩] }

/-- `emit(b)`: append `b` to OUT and count it modulo 2^64 (R12, R66). -/
def State.emit (s : State) (b : Byte) : State := { s with out := s.out ++ [b], outcnt := s.outcnt + 1 }

/-- `repeat k times: emit(b)` (R160). -/
def State.emitRepeat (b : Byte) : Nat → State → State
  | 0, s => s
  | k + 1, s => State.emitRepeat b k (s.emit b)

/-- TAKING AN ERROR, the fault action `raise E` of R210: if none is latched, ERR, ERRCMD and PH are written; the
response is `E, 0`; nothing else changes. There is no vector, no saved context and no mode change. -/
def State.raise (s : State) (e : Status) (op sym : BitVec 8) : State :=
  if s.ph = .fault then s.respond e 0
  else { s with err := e.code, errcmd := cmdId op sym, ph := .fault }.respond e 0

/-- THE RETURN FROM AN ERROR, and the start of a call: every register and memory at its "after CLR" value of R40; OUT
stays (R101, R213). -/
def State.clear (s : State) : State :=
  { s with
    ph := .load, err := 0, errcmd := 0, n := 0, nsym := 0, root := 0, nint := 0, outcnt := 0
    pacc := 0, pcnt := 0, clen := 0, cbits := 0, ft := [], nm := [], ct := [] }

/-- Write the candidate into CLEN and CBITS (R32). -/
def State.setCandidate (s : State) (c : BitString) : State :=
  { s with clen := BitVec.ofNat 8 c.length, cbits := leftAlign c }

/-- Steps 1 and 3 to 5 of R83 for a defined command `i`, whose own rule is `body`: refused with E_FAULTED in phase
FAULT unless it is one of the eight, then the phase check, then the operand check, then its rule. -/
def execute (i : Instr) (body : State → Outcome) (s : State) : Outcome :=
  if s.ph = .fault ∧ allowedInFault i = false then .next (s.respond .eFaulted 0)
  else if legalIn i s.ph = false then .next (s.raise .eSeq i.opcode i.sym)
  else if operandOk i = false then .next (s.raise .eOperand i.opcode i.sym)
  else body s

/-- Steps 1 and 2 of R83 for an undefined opcode (R85, R204): E_FAULTED in phase FAULT, else E_ILLEGAL. -/
def undefinedCommand (op sym : BitVec 8) (s : State) : Outcome :=
  if s.ph = .fault then .next (s.respond .eFaulted 0) else .next (s.raise .eIllegal op sym)

/-- `rst` (R230): the reset state, with OUT empty and no response for the command abandoned. What the host does after
the reset is still to come. -/
def resetKeepingInput (rest : List HostInput) : State := { State.reset with input := rest }

end Sys2Proof.Machine
end

