-- ==== Sys2Proof/Machine/CodeGen.lean ====
section
/-! DEFINITION. The code-table generator commands GEN, CTL, CTB (43_codegen.md). -/

namespace Sys2Proof.Machine

/-- `set_code(v, c)` of R140, for a leaf index `v` below 256 and `1 <= |c| <= 255`; `none` outside those bounds. -/
def setCode (v : Nat) (c : BitString) (ct : Memory CodeEntry) : Option (Memory CodeEntry) :=
  if v < Config.nsymMax ∧ 1 ≤ c.length ∧ c.length ≤ Config.codeMax
  then some (ctWrite ct (BitVec.ofNat 8 v) (CodeEntry.ofBits c)) else none

/-- `visit(i, path)` of R140, at most `fuel` nodes deep: "0" on descending left, then "1" on descending right. A path of
up to 255 bits visits up to 256 nodes; `none` is a path that is longer or a leaf that is no byte value. -/
def visit (nm : Memory NodeRec) : Nat → Nat → BitString → Memory CodeEntry → Option (Memory CodeEntry)
  | 0, _, _, _ => none
  | fuel + 1, i, path, ct =>
    match (nmRead nm i).tag with
    | .leaf => setCode i path ct
    | .internal =>
      match visit nm fuel (nmRead nm i).l.toNat (path ++ [false]) ct with
      | none => none
      | some ct' => visit nm fuel (nmRead nm i).r.toNat (path ++ [true]) ct'

/-- The code table GEN makes: every entry cleared, then the one-bit code "0" for a single leaf (R142), else the paths
of the tree (R140). -/
def generate (nm : Memory NodeRec) (root : Nat) : Option (Memory CodeEntry) :=
  match (nmRead nm root).tag with
  | .leaf => setCode root [false] []
  | .internal => visit nm (Config.codeMax + 1) root [] []

/-- GEN (R140). -/
def execGen (sym : BitVec 8) (s : State) : Outcome :=
  execute (.gen sym)
    (fun s => match generate s.nm s.root.toNat with
      | none => .fault .malformedTree
      | some ct => .next ({ s with ct := ct, ph := .coded }.respond .ok 0)) s

/-- CTL v (R144). -/
def execCtl (v : BitVec 8) (s : State) : Outcome :=
  execute (.ctl v) (fun s => .next (s.respond .ok ((ctRead s.ct v).len.zeroExtend 64))) s

/-- CTB v, q (R145). -/
def execCtb (v : BitVec 8) (q : BitVec 2) (s : State) : Outcome :=
  execute (.ctb v q) (fun s => .next (s.respond .ok (chunk (ctRead s.ct v).w q))) s

end Sys2Proof.Machine
end

