-- ==== Sys2Proof/Machine/Control.lean ====
section
/-! DEFINITION. The control commands NOP, CLR, RDS (40_control.md). -/

namespace Sys2Proof.Machine

/-- NOP (R100). -/
def execNop (s : State) : Outcome :=
  execute .nop (fun s => .next (s.respond .ok 0)) s

/-- CLR (R101). -/
def execClr (s : State) : Outcome :=
  execute .clr (fun s => .next (s.clear.respond .ok 0)) s

/-- The register with number `r`, zero-extended to 64 bits; `none` for a reserved number (R37). -/
def statusRegister (r : BitVec 8) (s : State) : Option (BitVec 64) :=
  match r with
  | 0x00#8 => some (s.ph.code.zeroExtend 64)
  | 0x01#8 => some (s.err.zeroExtend 64)
  | 0x02#8 => some (s.errcmd.zeroExtend 64)
  | 0x03#8 => some (s.nsym.zeroExtend 64)
  | 0x04#8 => some (s.root.zeroExtend 64)
  | 0x05#8 => some (s.nint.zeroExtend 64)
  | 0x06#8 => some s.n
  | 0x07#8 => some s.outcnt
  | 0x08#8 => some (s.pacc.zeroExtend 64)
  | 0x09#8 => some (s.pcnt.zeroExtend 64)
  | 0x0A#8 => some (s.clen.zeroExtend 64)
  | 0x0C#8 => some (chunk s.cbits 0)
  | 0x0D#8 => some (chunk s.cbits 1)
  | 0x0E#8 => some (chunk s.cbits 2)
  | 0x0F#8 => some (chunk s.cbits 3)
  | _ => none

/-- RDS r (R102). -/
def execRds (r : BitVec 8) (s : State) : Outcome :=
  execute (.rds r)
    (fun s => match statusRegister r s with
      | some d => .next (s.respond .ok d)
      | none => .next (s.raise .eOperand 0x02 r)) s

end Sys2Proof.Machine
end

