-- ==== Sys2Proof/Machine/Pack.lean ====
section
/-! DEFINITION. The bit packer commands PKS, PKB, PKE (44_pack.md). -/

namespace Sys2Proof.Machine

/-- PKS (R150). -/
def execPks (sym : BitVec 8) (s : State) : Outcome :=
  execute (.pks sym)
    (fun s => .next ({ s with pacc := 0, pcnt := 0, outcnt := 0, ph := .pack }.respond .ok 0)) s

/-- One turn of PKB's loop (R151): shift the accumulator left, OR in the bit, and flush it when it holds 8 bits. PCNT is
written only with its value after the flush test, so it never stores 8. -/
def packBit (s : State) (x : Bool) : State :=
  let acc := (s.pacc <<< 1) ||| (BitVec.ofBool x).zeroExtend 8
  if s.pcnt.toNat + 1 = 8 then { s.emit acc with pacc := 0, pcnt := 0 }
  else { s with pacc := acc, pcnt := s.pcnt + 1 }

/-- Append the bits of a code, first bit first (R151). -/
def packBits (s : State) (c : BitString) : State := c.foldl packBit s

/-- PKB b (R151). -/
def execPkb (b : BitVec 8) (s : State) : Outcome :=
  execute (.pkb b)
    (fun s =>
      if (ctRead s.ct b).len = 0 then .next (s.raise .eNoCode 0x41 b)
      else .next ((packBits s (ctRead s.ct b).bits).respond .ok 0)) s

/-- PKE's flush of a partial accumulator, padded with `8 - PCNT` zero bits on the right (R152). -/
def flushPartial (s : State) : State :=
  if s.pcnt = 0 then s else s.emit (s.pacc <<< (8 - s.pcnt.toNat))

/-- PKE (R152). -/
def execPke (sym : BitVec 8) (s : State) : Outcome :=
  execute (.pke sym)
    (fun s => .next ({ flushPartial s with pacc := 0, pcnt := 0, ph := .done }.respond .ok 0)) s

end Sys2Proof.Machine
end

