-- ==== Sys2Proof/Machine/Table.lean ====
section
/-! DEFINITION. The table commands FTW, FTR, SETN (41_table.md). -/

namespace Sys2Proof.Machine

/-- NSYM after `FT[v]` goes from `old` to `new` (R110): one more when a count appears, one less when it goes. -/
def nsymAfter (nsym : BitVec 9) (old new : BitVec 31) : BitVec 9 :=
  if old = 0 ∧ new ≠ 0 then nsym + 1 else if old ≠ 0 ∧ new = 0 then nsym - 1 else nsym

/-- FTW v, c (R110). After the operand check `c` is at most 2^31 - 1, so `c > 0` is `c[30:0] > 0`. -/
def execFtw (v : BitVec 8) (c : BitVec 64) (s : State) : Outcome :=
  execute (.ftw v c)
    (fun s =>
      let new := c.extractLsb' 0 31
      .next ({ s with ft := ftWrite s.ft v new, nsym := nsymAfter s.nsym (ftRead s.ft v) new }.respond .ok 0)) s

/-- FTR v (R111). -/
def execFtr (v : BitVec 8) (s : State) : Outcome :=
  execute (.ftr v) (fun s => .next (s.respond .ok ((ftRead s.ft v).zeroExtend 64))) s

/-- SETN n (R112). -/
def execSetn (sym : BitVec 8) (n : BitVec 64) (s : State) : Outcome :=
  execute (.setn sym n) (fun s => .next ({ s with n := n }.respond .ok 0)) s

end Sys2Proof.Machine
end

