-- ==== Sys2Proof/Machine/Tree.lean ====
section
/-! DEFINITION. The tree builder commands BUILD, NDR, NDW (42_tree.md). -/

namespace Sys2Proof.Machine

/-- Remove a least element of a collection by the strict order `lt`: the element and what is left (R123: "the i in Q
with the least key(i); Q <- Q minus i"). Where two elements are equal, which no run meets (R122), the earlier in the
list is taken (log entry 10). -/
def extractMin {α : Type} (lt : α → α → Bool) : List α → Option (α × List α)
  | [] => none
  | x :: xs =>
    match extractMin lt xs with
    | none => some (x, [])
    | some (m, rest) => if lt m x then some (m, x :: rest) else some (x, m :: rest)

/-- `i` sorts before `j` exactly when `key(i) < key(j)` as unsigned 48-bit numbers (R121). -/
def keyLt (nm : Memory NodeRec) (i j : Nat) : Bool := decide ((nmRead nm i).key < (nmRead nm j).key)

/-- The leaf slots (R123): slot `v` is the leaf of `v` where `FT[v] > 0`, and all-zero elsewhere. -/
def fillLeaves (ft : Memory (BitVec 31)) (nm : Memory NodeRec) : Memory NodeRec :=
  symbols.foldl
    (fun nm v => nmWrite nm v.toNat (if ftRead ft v = 0 then NodeRec.zero else NodeRec.ofLeaf v (ftRead ft v))) nm

/-- The first `Q` of R123: the indices of the present symbols. -/
def leafQueue (ft : Memory (BitVec 31)) : List Nat :=
  (symbols.filter (fun v => decide (ftRead ft v ≠ 0))).map BitVec.toNat

/-- The merge loop of R123, at most `fuel` rounds: while two nodes are left, the least becomes the left child and the
next the right child of node 256 + k. It answers ROOT, the number of merges and NM. A round takes one index off `Q`, so
`|Q|` rounds are enough; `none` is an empty `Q`. -/
def mergeLoop : Nat → Nat → Memory NodeRec → List Nat → Option (Nat × Nat × Memory NodeRec)
  | 0, _, _, _ => none
  | fuel + 1, k, nm, q =>
    match extractMin (keyLt nm) q with
    | none => none
    | some (a, q1) =>
      match extractMin (keyLt nm) q1 with
      | none => some (a, k, nm)
      | some (b, q2) =>
        let j := Config.internalBase + k
        mergeLoop fuel (k + 1) (nmWrite nm j (NodeRec.join a b (nmRead nm a) (nmRead nm b))) (j :: q2)

/-- BUILD (R123). -/
def execBuild (sym : BitVec 8) (s : State) : Outcome :=
  execute (.build sym)
    (fun s =>
      if s.nsym = 0 then .next (s.raise .eTree 0x20 sym)
      else
        let q := leafQueue s.ft
        match mergeLoop q.length 0 (fillLeaves s.ft s.nm) q with
        | none => .fault .emptyQueue
        | some (root, k, nm) =>
          .next ({ s with
            nm := nm, root := BitVec.ofNat 9 root, nint := BitVec.ofNat 8 k, ph := .built }.respond .ok 0)) s

/-- NDR i (R124). -/
def execNdr (i : BitVec 9) (s : State) : Outcome :=
  execute (.ndr i) (fun s => .next (s.respond .ok (nmRead s.nm i.toNat).structureWord)) s

/-- NDW i (R125). -/
def execNdw (i : BitVec 9) (s : State) : Outcome :=
  execute (.ndw i) (fun s => .next (s.respond .ok ((nmRead s.nm i.toNat).w.zeroExtend 64))) s

end Sys2Proof.Machine
end

