-- ==== Sys2Proof/Machine/Unpack.lean ====
section
/-! DEFINITION. The bit unpacker commands UPS, UPB, UPE (45_unpack.md). -/

namespace Sys2Proof.Machine

/-- UPS (R160), with the single-symbol short-circuit of R161. -/
def execUps (sym : BitVec 8) (s : State) : Outcome :=
  execute (.ups sym)
    (fun s =>
      let s := { s with clen := 0, cbits := 0, outcnt := 0, ph := .unpack }
      let s := if s.nsym = 1 then State.emitRepeat (s.root.extractLsb' 0 8) s.n.toNat s else s
      .next (s.respond .ok 0)) s

/-- A symbol whose code is the candidate (R162: "there is a v with CT[v].len > 0 and CT[v].bits = cand"). The symbol is
unique in every state a run reaches (R146); elsewhere the least one is taken (log entry 9). -/
def matchCode (ct : Memory CodeEntry) (cand : BitString) : Option Byte :=
  symbols.find? (fun v => decide ((ctRead ct v).len ≠ 0) && decide ((ctRead ct v).bits = cand))

/-- One turn of UPB's loop (R162): the bit is discarded once N bytes have been emitted. `none` is a candidate that no
code ends and that CBITS cannot go on from (R165 excludes it). -/
def unpackBit (s : State) (x : Bool) : Option State :=
  if s.outcnt < s.n then
    let cand := s.candidate ++ [x]
    match matchCode s.ct cand with
    | some v => some ((s.emit v).setCandidate [])
    | none => if cand.length ≤ Config.candidateMax then some (s.setCandidate cand) else none
  else some s

/-- The bits in order (R162). -/
def unpackBits : BitString → State → Option State
  | [], s => some s
  | x :: xs, s =>
    match unpackBit s x with
    | none => none
    | some s' => unpackBits xs s'

/-- UPB p (R162). -/
def execUpb (p : BitVec 8) (s : State) : Outcome :=
  execute (.upb p)
    (fun s => match unpackBits (byteBits p) s with
      | none => .fault .candidateOverflow
      | some s' => .next (s'.respond .ok 0)) s

/-- UPE (R163). -/
def execUpe (sym : BitVec 8) (s : State) : Outcome :=
  execute (.upe sym)
    (fun s =>
      if s.outcnt < s.n then .next (s.raise .eSize 0x52 sym)
      else .next ({ s with clen := 0, cbits := 0, ph := .done }.respond .ok 0)) s

end Sys2Proof.Machine
end

