-- ==== Sys2Proof/Machine/Dispatch.lean ====
section
/-! DEFINITION. Step 5 of 30_encoding.md R83 chosen by the command: one arm per constructor. -/

namespace Sys2Proof.Machine

def exec (i : Instr) (s : State) : Host.Outcome State Fault Refusal :=
  match i with
  | .nop => Sys2Proof.Machine.execNop s
  | .clr => Sys2Proof.Machine.execClr s
  | .rds r => Sys2Proof.Machine.execRds r s
  | .ftw v c => Sys2Proof.Machine.execFtw v c s
  | .ftr v => Sys2Proof.Machine.execFtr v s
  | .setn sym n => Sys2Proof.Machine.execSetn sym n s
  | .build sym => Sys2Proof.Machine.execBuild sym s
  | .ndr j => Sys2Proof.Machine.execNdr j s
  | .ndw j => Sys2Proof.Machine.execNdw j s
  | .gen sym => Sys2Proof.Machine.execGen sym s
  | .ctl v => Sys2Proof.Machine.execCtl v s
  | .ctb v q => Sys2Proof.Machine.execCtb v q s
  | .pks sym => Sys2Proof.Machine.execPks sym s
  | .pkb b => Sys2Proof.Machine.execPkb b s
  | .pke sym => Sys2Proof.Machine.execPke sym s
  | .ups sym => Sys2Proof.Machine.execUps sym s
  | .upb p => Sys2Proof.Machine.execUpb p s
  | .upe sym => Sys2Proof.Machine.execUpe sym s

end Sys2Proof.Machine
end

