-- ==== Sys2Proof/Machine/Step.lean ====
section
/-! DEFINITION. One step of the machine: take what the host does next and carry it out completely (00_scope.md R15,
20_memory.md R65, R70). -/

namespace Sys2Proof.Machine

/-- Accept the word `w` and execute it (R83). -/
def runCommand (w : CmdWord) (s : State) : Outcome :=
  match decode w with
  | .ok i => exec i s
  | .error (.undefinedOpcode op) => undefinedCommand op (symField w) s

/-- One step. With no command offered the block holds its state (R223). -/
def step (s : State) : Host.Outcome State Fault Refusal :=
  match s.input with
  | [] => .next s
  | .reset _ :: rest => .next (resetKeepingInput rest)
  | .command w :: rest => runCommand w { s with input := rest }

/-- The host offers the command word `w` next. -/
def State.offer (s : State) (w : CmdWord) : State := { s with input := .command w :: s.input }

/-- `s` with the table word `w` of `nbits` bits as the command the host offers next (log entry 1). -/
def State.withFetchWord (s : State) (nbits w : Nat) : State := s.offer (tableWord nbits w)

end Sys2Proof.Machine
end

