-- ==== Sys2Proof/Machine/Values.lean ====
section
/-! DEFINITION. The abstract values of 00_scope.md R13, which are how the state is read and no state of their own: Tree,
Table, Codes, Bytes, and the pure functions the rules give on them (42_tree.md R127, 43_codegen.md R141, 44_pack.md R153,
45_unpack.md R164, R166). They are written without node memory and registers, so that the commands can be held against
them. -/

namespace Sys2Proof.Machine

/-- The source's HuffmanNode (R13). -/
inductive Tree where
  | leaf (value : Byte) (weight : Nat)
  | internal (weight : Nat) (left right : Tree)
deriving DecidableEq, Repr

/-- `w(t)` (R127). -/
def Tree.weight : Tree → Nat
  | .leaf _ w => w
  | .internal w _ _ => w

/-- `tag(t)`: 0 Leaf, 1 Internal (R127). -/
def Tree.tag : Tree → Nat
  | .leaf _ _ => 0
  | .internal _ _ _ => 1

/-- `ml(t)`: the least leaf value, computed recursively over the subtree (R121, R127). -/
def Tree.minLeaf : Tree → Nat
  | .leaf v _ => v.toNat
  | .internal _ a b => min a.minLeaf b.minLeaf

/-- The order of trees: by weight, then Leaf before Internal, then least leaf value (R121, R127). -/
def Tree.lt (s t : Tree) : Bool :=
  decide (s.weight < t.weight ∨
    (s.weight = t.weight ∧ (s.tag < t.tag ∨ (s.tag = t.tag ∧ s.minLeaf < t.minLeaf))))

/-- The byte values of the leaves, left to right. -/
def Tree.leaves : Tree → List Byte
  | .leaf v _ => [v]
  | .internal _ a b => a.leaves ++ b.leaves

/-- `TreeOf(i)` (R13), read at most `fuel` nodes deep; `none` where an entry on the way holds no node, or where the
records go on for longer, as no tree of the block does (log entry 21). -/
def treeOf (nm : Memory NodeRec) : Nat → Nat → Option Tree
  | 0, _ => none
  | fuel + 1, i =>
    if (nmRead nm i).valid then
      match (nmRead nm i).tag with
      | .leaf => some (.leaf (nmRead nm i).ml (nmRead nm i).w.toNat)
      | .internal =>
        match treeOf nm fuel (nmRead nm i).l.toNat, treeOf nm fuel (nmRead nm i).r.toNat with
        | some a, some b => some (.internal (nmRead nm i).w.toNat a b)
        | _, _ => none
    else none

/-- `TreeOf(ROOT)`: a tree of at most 256 leaves is at most 256 nodes deep. -/
def State.tree (s : State) : Option Tree := treeOf s.nm (Config.codeMax + 1) s.root.toNat

/-- A frequency table as a value: the present symbols in ascending order, each with its count (R13). -/
abbrev Table := List (Byte × Nat)

/-- `TableOf(FT)` (R13). -/
def tableOf (ft : Memory (BitVec 31)) : Table :=
  (symbols.filter (fun v => decide (ftRead ft v ≠ 0))).map (fun v => (v, (ftRead ft v).toNat))

/-- The number of symbols present in FT: what NSYM holds (R27). -/
def presentCount (ft : Memory (BitVec 31)) : Nat := (symbols.filter (fun v => decide (ftRead ft v ≠ 0))).length

/-- `Merge(F)` of R127, at most `fuel` rounds; `none` for the empty forest. -/
def mergeForest : Nat → List Tree → Option Tree
  | 0, _ => none
  | fuel + 1, f =>
    match extractMin Tree.lt f with
    | none => none
    | some (a, f1) =>
      match extractMin Tree.lt f1 with
      | none => some a
      | some (b, f2) => mergeForest fuel (.internal (a.weight + b.weight) a b :: f2)

/-- `BuildTree(T)` (R127): `none` for the empty table. -/
def buildTree (t : Table) : Option Tree := mergeForest t.length (t.map (fun e => .leaf e.1 e.2))

/-- A code table as a value: each symbol that has a code, with its code (R13). -/
abbrev Codes := List (Byte × BitString)

/-- `Paths(t, p)` (R141). -/
def Tree.paths : Tree → BitString → Codes
  | .leaf v _, p => [(v, p)]
  | .internal _ a b, p => a.paths (p ++ [false]) ++ b.paths (p ++ [true])

/-- `Codes(t)` (R141): the code "0" for a single leaf, else the paths. -/
def Tree.codes : Tree → Codes
  | .leaf v _ => [(v, [false])]
  | .internal w a b => (Tree.internal w a b).paths []

/-- `CodesOf(CT)` (R13, R141), in ascending order of the symbol. -/
def codesOf (ct : Memory CodeEntry) : Codes :=
  (symbols.filter (fun v => decide ((ctRead ct v).len ≠ 0))).map (fun v => (v, (ctRead ct v).bits))

/-- Walk a tree from the root, left on 0 and right on 1 (R166); `none` where the walk would pass a leaf. -/
def Tree.descend : Tree → BitString → Option Tree
  | t, [] => some t
  | .leaf _ _, _ :: _ => none
  | .internal _ a b, x :: c => if x then b.descend c else a.descend c

/-- `C(b1) ++ ... ++ C(bm)` (R153); a byte without a code adds nothing. -/
def codeBits (bs : Bytes) (c : Codes) : BitString := bs.flatMap (fun b => (c.lookup b).getD [])

/-- The byte whose bit `7 - t` is bit `t` of the string, 0 past its end (R61, R153). -/
def byteOfBits (b : BitString) : Byte :=
  (List.range 8).foldl (fun acc t => (acc <<< 1) ||| (BitVec.ofBool (b.getD t false)).zeroExtend 8) 0

/-- `ToBytes(B)` (R153): `ceil(|B| / 8)` bytes, bit `7 - t` of byte `j` being `B[8j + t]`, padded with zeros. -/
def toBytes (b : BitString) : Bytes := (List.range ((b.length + 7) / 8)).map (fun j => byteOfBits (b.drop (8 * j)))

/-- `Pack(S, C)` (R153). -/
def packValue (bs : Bytes) (c : Codes) : Bytes := toBytes (codeBits bs c)

/-- The bits of a payload, most significant first in each byte (R61, R164). -/
def bitsOf (p : Bytes) : BitString := p.flatMap byteBits

/-- The loop of `Unpack` (R164) over the remaining bits, with the candidate and the symbols so far: what is emitted, and
the candidate left. -/
def decodeBits (c : Codes) (n : Nat) : BitString → Bytes → BitString → Bytes × BitString
  | [], out, cand => (out, cand)
  | x :: xs, out, cand =>
    if out.length < n then
      match c.find? (fun e => decide (e.2 = cand ++ [x])) with
      | some e => decodeBits c n xs (out ++ [e.1]) []
      | none => decodeBits c n xs out (cand ++ [x])
    else (out, cand)

/-- `Unpack(P, C, N)` (R164): the bytes emitted, and whether the result is OK (`true`) or DecodeSizeMismatchError. A
table of one code gives N copies of its symbol whatever the payload. -/
def unpackValue (p : Bytes) (c : Codes) (n : Nat) : Bytes × Bool :=
  match c with
  | [(v, _)] => (List.replicate n v, true)
  | c =>
    let out := (decodeBits c n (bitsOf p) [] []).1
    (out, decide (out.length = n))

/-- The bits held in PACC: the PCNT low bits, oldest first (R31). -/
def State.heldBits (s : State) : BitString :=
  (List.range s.pcnt.toNat).map (fun k => s.pacc.getLsbD (s.pcnt.toNat - 1 - k))

/-- The slice of OUT that belongs to the current call: its last OUTCNT bytes (R36). -/
def State.callOut (s : State) : Bytes := s.out.drop (s.out.length - s.outcnt.toNat)

end Sys2Proof.Machine
end

