-- ==== Sys2Proof/Machine/HostSide.lean ====
section
/-! DEFINITION. The host side of 46_host_container.md, which is software around the block and not hardware: FrequencyModel,
the container format, and the operations compress and decompress, which drive the block through `step` (log entry 19);
and the pseudo-commands of 30_encoding.md R89, in the assembler's form that puts 0 in every unused field (R88). -/

namespace Sys2Proof.Machine

/-- How a host operation fails. -/
inductive HostError where
  /-- EmptyInputError (R170) -/
  | emptyInput
  /-- a count does not fit the container (R174, decision D36) -/
  | countTooLarge
  /-- InvalidFormatError (R173) -/
  | invalidFormat
  /-- the block answered this status, and the host returns the error it names (R175) -/
  | block (st : Status)
  /-- the model of the block stopped; no run does -/
  | stopped
deriving DecidableEq, Repr

/-- `LOADT` (R89). -/
def loadTable (t : List (Byte × BitVec 64)) : List Instr := t.map (fun e => .ftw e.1 e.2)

/-- `PACK` (R89). -/
def packCall (bs : Bytes) : List Instr := .pks 0 :: bs.map (fun b => .pkb b) ++ [.pke 0]

/-- `UNPACK` (R89). -/
def unpackCall (ps : Bytes) : List Instr := .ups 0 :: ps.map (fun p => .upb p) ++ [.upe 0]

/-- `RDCODE v` (R89). -/
def readCode (v : Byte) : List Instr := [.ctl v, .ctb v 0, .ctb v 1, .ctb v 2, .ctb v 3]

/-- The status of the last response. -/
def State.lastStatus (s : State) : Option Status := s.rsps.getLast?.map Response.status

/-- Offer one command and take its response; a status other than OK ends the call (R175, R176). -/
def issue (i : Instr) (s : State) : Except HostError State :=
  match step (s.offer (encode i)) with
  | .next t =>
    match t.lastStatus with
    | some .ok => .ok t
    | some st => .error (.block st)
    | none => .error .stopped
  | .fault _ => .error .stopped
  | .refused _ => .error .stopped

/-- Issue commands in order, stopping at the first that does not answer OK. -/
def issueAll : List Instr → State → Except HostError State
  | [], s => .ok s
  | i :: is, s =>
    match issue i s with
    | .error e => .error e
    | .ok t => issueAll is t

/-- FrequencyModel (R170): the table of counts, or EmptyInputError for the empty sequence. -/
def freq (bs : Bytes) : Except HostError Table :=
  if bs = [] then .error .emptyInput
  else .ok ((symbols.filter (fun v => decide (v ∈ bs))).map (fun v => (v, bs.count v)))

/-- A 4-byte integer, most significant byte first (R172). -/
def be32 (x : BitVec 32) : Bytes :=
  [x.extractLsb' 24 8, x.extractLsb' 16 8, x.extractLsb' 8 8, x.extractLsb' 0 8]

/-- An 8-byte integer, most significant byte first (R172). -/
def be64 (x : BitVec 64) : Bytes := be32 (x.extractLsb' 32 32) ++ be32 (x.extractLsb' 0 32)

/-- The four bytes at an offset, as an integer; a byte past the end reads 0 and is never looked at. -/
def readBe32 (x : Bytes) (off : Nat) : BitVec 32 :=
  x.getD off 0 ++ x.getD (off + 1) 0 ++ x.getD (off + 2) 0 ++ x.getD (off + 3) 0

/-- The eight bytes at an offset, as an integer. -/
def readBe64 (x : Bytes) (off : Nat) : BitVec 64 := readBe32 x off ++ readBe32 x (off + 4)

/-- ASCII `HFZ1` (R172). -/
def magic : Bytes := [0x48, 0x46, 0x5A, 0x31]

/-- What a container holds (R172). -/
structure Container where
  originalSize : BitVec 64
  entries      : List (Byte × BitVec 32)
  payload      : Bytes
deriving DecidableEq, Repr

/-- ContainerCodec, write path (R171, R172), with the entries in the order given. -/
def writeContainer (c : Container) : Bytes :=
  magic ++ be64 c.originalSize ++ be32 (BitVec.ofNat 32 c.entries.length) ++
    c.entries.flatMap (fun e => e.1 :: be32 e.2) ++ c.payload

/-- ContainerCodec, read path: `ParseContainer` of R173, check by check. A field is negative when its top bit is 1. -/
def parseContainer (x : Bytes) : Except HostError Container :=
  if x.length < 16 then .error .invalidFormat
  else if x.take 4 ≠ magic then .error .invalidFormat
  else
    let osz := readBe64 x 4
    let tsz := readBe32 x 12
    if osz.msb ∨ tsz.msb ∨ 256 < tsz.toNat then .error .invalidFormat
    else if x.length < 16 + 5 * tsz.toNat then .error .invalidFormat
    else
      let entries := (List.range tsz.toNat).map (fun e => (x.getD (16 + 5 * e) 0, readBe32 x (17 + 5 * e)))
      if entries.any (fun e => e.2.msb) then .error .invalidFormat
      else .ok { originalSize := osz, entries := entries, payload := x.drop (16 + 5 * tsz.toNat) }

/-- The commands of a packing call (R174, R231). -/
def compressCommands (t : Table) (bs : Bytes) : List Instr :=
  .clr :: loadTable (t.map (fun e => (e.1, BitVec.ofNat 64 e.2))) ++ [.build 0, .gen 0] ++ packCall bs

/-- compress (R174): the container, and the block as the call leaves it. -/
def compress (s : State) (bs : Bytes) (originalSize : BitVec 64) : Except HostError (Bytes × State) :=
  match freq bs with
  | .error e => .error e
  | .ok t =>
    if t.any (fun e => decide (Config.countMax < e.2)) then .error .countTooLarge
    else
      match issueAll (compressCommands t bs) s with
      | .error e => .error e
      | .ok u =>
        .ok (writeContainer
          { originalSize := originalSize, entries := t.map (fun e => (e.1, BitVec.ofNat 32 e.2)), payload := u.callOut }, u)

/-- The commands of an unpacking call (R175, R231). -/
def decompressCommands (c : Container) : List Instr :=
  .clr :: loadTable (c.entries.map (fun e => (e.1, e.2.zeroExtend 64))) ++
    [.setn 0 c.originalSize, .build 0, .gen 0] ++ unpackCall c.payload

/-- decompress (R175): the bytes, and the block as the call leaves it. -/
def decompress (s : State) (x : Bytes) : Except HostError (Bytes × State) :=
  match parseContainer x with
  | .error e => .error e
  | .ok c =>
    match issueAll (decompressCommands c) s with
    | .error e => .error e
    | .ok u => .ok (u.callOut, u)

end Sys2Proof.Machine
end

