-- ==== Sys2Proof/Safety.lean ====
section
/-! DEFINITION. What holds in every state a run reaches: the invariants of 10_state.md R39, with what R27 to R36 and
45_unpack.md R161, R165 add about the registers, in four groups that build on each other; the phase a FAULT was entered
from; and what a safe run is. -/

namespace Sys2Proof.Machine

/-- The registers and memories are those of a call whose phase is `p`, or whose FAULT was entered from `p`. R39 speaks of
"FAULT entered from PACK", of UNPACK, and of "PH = 7 after such a phase"; no register holds that phase, so it stands
beside the state, and `originAfter` follows it from step to step (log entry 23). -/
structure State.CameFrom (p : Phase) (s : State) : Prop where
  notFault : p ≠ .fault
  current : s.ph ≠ .fault → p = s.ph
  /-- R39 item 5, and for a FAULT entered from LOAD R210: a raise changes no memory (log entry 23) -/
  loadClean : p = .load → s.nm = [] ∧ s.ct = [] ∧ s.root = 0 ∧ s.nint = 0
  /-- past LOAD a BUILD has succeeded in this call (R39 item 6), and its leaves are in NM (log entry 23) -/
  treeKept : p ≠ .load → s.nm ≠ []
  /-- R23, R101: no code table before GEN (log entry 24) -/
  builtNoCodes : p = .built → s.ct = []
  /-- past BUILT a GEN has succeeded in this call (R39 item 7), and its codes are in CT (log entry 23) -/
  codesKept : p ≠ .load → p ≠ .built → s.ct ≠ []
  /-- R39 item 8: outside PACK, and FAULT entered from PACK -/
  accClear : p ≠ .pack → s.pacc = 0 ∧ s.pcnt = 0
  /-- R39 item 9: outside UNPACK, and FAULT entered from UNPACK -/
  candClear : p ≠ .unpack → s.clen = 0 ∧ s.cbits = 0

/-- The phase after a step from `s` to `t`, or, where `t` is in FAULT, the phase that FAULT was entered from; `p` is the
same of `s`. -/
def originAfter (p : Phase) (s t : State) : Phase :=
  if t.ph ≠ .fault then t.ph else if s.ph ≠ .fault then s.ph else p

/-- `originAfter` over `k` steps from `s`. -/
def originOfRun : Nat → Phase → State → Phase
  | 0, p, _ => p
  | k + 1, p, s =>
    match step s with
    | .next t => originOfRun k (originAfter p s t) t
    | .fault _ => p
    | .refused _ => p

/-- The registers and the form of the memories: R39 items 1 to 5, 8 and 9, and the canonical form of FT, NM and CT; and
what log entry 24 adds to them (`unpackSingle`, `outcntClear`, `outcntLogged`, and from `CameFrom` that CT is empty in
BUILT). Item 1, PH is never 6, holds by the type of PH (log entry 11), and the bound of item 3 by the width of a count. -/
structure State.ControlInv (s : State) : Prop where
  ftForm : Memory.wf 0 Config.nsymMax s.ft = true
  nmForm : Memory.wf NodeRec.zero Config.nodeMax s.nm = true
  ctForm : Memory.wf CodeEntry.zero Config.nsymMax s.ct = true
  /-- R24, R39 item 2 -/
  errIffFault : s.err ≠ 0 ↔ s.ph = .fault
  /-- R25, R39 item 2 -/
  errcmdClear : s.err = 0 → s.errcmd = 0
  /-- R27, R39 item 3 -/
  nsymCounts : s.nsym.toNat = presentCount s.ft
  /-- R26, R39 item 4 -/
  sizeLegal : s.n.getLsbD 63 = false
  /-- R39 items 5, 8 and 9: a FAULT was entered from some phase, whose registers it keeps -/
  origin : ∃ p, s.CameFrom p
  /-- R31, R39 item 8 -/
  accBound : s.pacc.toNat < 2 ^ s.pcnt.toNat
  /-- R39 item 9 -/
  unpackCount : s.ph = .unpack → s.outcnt ≤ s.n ∧ (s.outcnt = s.n → s.clen = 0)
  /-- R161: with one symbol UPS has emitted all N bytes -/
  unpackSingle : s.ph = .unpack → s.nsym = 1 → s.outcnt = s.n
  /-- R150: OUTCNT is 0 until a stream starts -/
  outcntClear : s.ph = .load ∨ s.ph = .built ∨ s.ph = .coded → s.outcnt = 0
  /-- R36: the call's bytes are the last OUTCNT bytes of OUT -/
  outcntLogged : s.outcnt.toNat ≤ s.out.length

/-- A BUILD has succeeded in this call (R39 item 6): the phase says so, and in FAULT the node memory does, because
nothing but BUILD fills it and nothing but CLR empties it (log entry 23). -/
def State.treeBuilt (s : State) : Prop :=
  s.ph = .built ∨ s.ph = .coded ∨ s.ph = .pack ∨ s.ph = .unpack ∨ s.ph = .done ∨ (s.ph = .fault ∧ s.nm ≠ [])

/-- A GEN has succeeded in this call (R39 item 7; log entry 23). -/
def State.codesMade (s : State) : Prop :=
  s.ph = .coded ∨ s.ph = .pack ∨ s.ph = .unpack ∨ s.ph = .done ∨ (s.ph = .fault ∧ s.ct ≠ [])

/-- R39 item 6 for a tree in node memory. -/
structure State.TreeHeld (s : State) : Prop where
  someSymbol : 1 ≤ s.nsym.toNat
  mergeCount : s.nint.toNat + 1 = s.nsym.toNat
  /-- R33: entry `v` is the leaf of `v`, valid exactly when `FT[v] > 0` -/
  leafSlots : ∀ v : Byte, nmRead s.nm v.toNat =
    if ftRead s.ft v = 0 then NodeRec.zero else NodeRec.ofLeaf v (ftRead s.ft v)
  /-- R33: entry `256 + k` holds a node exactly when `k < NINT`, and it is an internal one -/
  internalSlots : ∀ k < 255, (nmRead s.nm (Config.internalBase + k)).valid = decide (k < s.nint.toNat) ∧
    ((nmRead s.nm (Config.internalBase + k)).valid = true → (nmRead s.nm (Config.internalBase + k)).tag = .internal)
  /-- R33: an entry past the internal nodes holds nothing and is all-zero -/
  restZero : ∀ i, Config.internalBase + s.nint.toNat ≤ i → nmRead s.nm i = NodeRec.zero
  rootValid : (nmRead s.nm s.root.toNat).valid = true
  /-- `TreeOf(ROOT)` is the tree of the table (R127) -/
  treeRead : s.tree ≠ none
  treeSpec : s.tree = buildTree (tableOf s.ft)

/-- R39 item 6. -/
def State.TreeInv (s : State) : Prop := s.treeBuilt → s.TreeHeld

/-- R39 item 7 for a code table in CT, with the layout of R35. -/
structure State.CodesHeld (s : State) : Prop where
  /-- R23: GEN runs on a tree -/
  built : s.treeBuilt
  codedSymbols : ∀ v : Byte, (ctRead s.ct v).len ≠ 0 ↔ ftRead s.ft v ≠ 0
  codesSpec : ∀ t, s.tree = some t → ∀ v : Byte, (codesOf s.ct).lookup v = t.codes.lookup v
  /-- R35: the bits of W below the code are 0 -/
  aligned : ∀ v : Byte, (ctRead s.ct v).w = leftAlign (ctRead s.ct v).bits

/-- R39 item 7. -/
def State.CodeInv (s : State) : Prop := s.codesMade → s.CodesHeld

/-- The candidate (R32, R165): left-aligned, at most 254 bits, and empty or a proper prefix of some code. -/
structure State.CandidateInv (s : State) : Prop where
  aligned : s.cbits = leftAlign s.candidate
  short : s.clen.toNat ≤ Config.candidateMax
  begun : s.candidate = [] ∨
    ∃ v : Byte, (ctRead s.ct v).len ≠ 0 ∧ s.candidate <+: (ctRead s.ct v).bits ∧ s.candidate ≠ (ctRead s.ct v).bits

/-- All of it. -/
structure State.Inv (s : State) : Prop where
  control   : s.ControlInv
  tree      : s.TreeInv
  codes     : s.CodeInv
  candidate : s.CandidateInv

/-- The "value after CLR" column of R40, which is the "value after reset" column but for OUT. -/
structure State.AtResetValues (s : State) : Prop where
  phase      : s.ph = .load
  errorClear : s.err = 0 ∧ s.errcmd = 0
  sizes      : s.n = 0 ∧ s.nsym = 0 ∧ s.root = 0 ∧ s.nint = 0 ∧ s.outcnt = 0
  packer     : s.pacc = 0 ∧ s.pcnt = 0
  unpacker   : s.clen = 0 ∧ s.cbits = 0
  ftZero     : ∀ v : Byte, ftRead s.ft v = 0
  nmZero     : ∀ i, nmRead s.nm i = NodeRec.zero
  ctZero     : ∀ v : Byte, ctRead s.ct v = CodeEntry.zero
  pinLow     : s.faultPin = false

/-- The command answers `OK, d` and changes nothing: the state after it is the state before it, and one response
more. -/
def Answers (i : Instr) (s : State) (d : BitVec 64) : Prop :=
  exec i s = .next { s with rsps := s.rsps ++ [⟨.ok, d⟩] }

/-- The command raises `e` where no error is latched (R210): ERR, ERRCMD and PH are written, the response is `e, 0`, and
nothing else changes. -/
def Raises (i : Instr) (s : State) (e : Status) : Prop :=
  exec i s = .next
    { s with err := e.code, errcmd := i.opcode ++ i.sym, ph := .fault, rsps := s.rsps ++ [⟨e, 0⟩] }

/-- Commands executed one after another, whatever they answer. -/
def runAll : List Instr → State → Outcome
  | [], s => .next s
  | i :: is, s =>
    match exec i s with
    | .next t => runAll is t
    | .fault r => .fault r
    | .refused r => .refused r

/-- A run of `k` steps is safe when it stops at no fault and no refusal. -/
def SafeRun (k : Nat) (s : State) : Prop := ∃ t, Host.Core.run core k s = .next t

end Sys2Proof.Machine
end

