-- ==== Sys2Proof/Certificates/Slice0/Obligations.lean ====
section
/-! DEFINITION. The statements about the block for the provers. Each docstring names the rule it formalises; a statement
that rests on a convention of the model says so. -/

open Sys2Proof Sys2Proof.Machine

/-! ### Encoding -/

/-- One word of every family, written out from R80, R82 and R84, decodes to the command it stands for. -/
def Obligations.SpecWordsDecode : Prop :=
  decode 0x02070000000000000000 = .ok (.rds 0x07) ∧
  decode 0x01FF123456789ABCDEF0 = .ok .clr ∧
  decode 0x10610000000000000003 = .ok (.ftw 0x61 3) ∧
  decode 0x12008000000000000000 = .ok (.setn 0 0x8000000000000000) ∧
  decode 0x2100FFFFFFFFFFFFFE61 = .ok (.ndr 0x061) ∧
  decode 0x2012FFFFFFFFFFFFFFFF = .ok (.build 0x12) ∧
  decode 0x32610000000000000002 = .ok (.ctb 0x61 2) ∧
  decode 0x41620000000000000000 = .ok (.pkb 0x62) ∧
  decode 0x516E0000000000000000 = .ok (.upb 0x6E) ∧
  decode 0x03AB0000000000000000 = .error (.undefinedOpcode 0x03)

/-- Decoding the word of any command gives the command back, with every operand at every value its field admits (R80,
R82, R84). -/
def Obligations.DecodeEncodeAgree : Prop := ∀ i : Instr, decode (encode i) = .ok i

/-- A decoded command holds exactly the bits R82 lists for it (and `sym` where ERRCMD may record it, R86): its own word
is the word with every other bit cleared, and a word that differs only in those other bits decodes alike. -/
def Obligations.DecodeReadsUsedBitsOnly : Prop :=
  ∀ (w : CmdWord) (i : Instr), decode w = .ok i →
    encode i = w &&& i.usedMask ∧ ∀ w' : CmdWord, w' &&& i.usedMask = w &&& i.usedMask → decode w' = .ok i

/-- R85: a word is no command exactly when its `op` lies in the ranges R85 lists, which hold 238 values. -/
def Obligations.UndefinedOpcodesAreThe238 : Prop :=
  (∀ w : CmdWord, decode w = .error (.undefinedOpcode (opField w)) ↔
    (let op := (opField w).toNat
     (0x03 ≤ op ∧ op ≤ 0x0F) ∨ (0x13 ≤ op ∧ op ≤ 0x1F) ∨ (0x23 ≤ op ∧ op ≤ 0x2F) ∨ (0x33 ≤ op ∧ op ≤ 0x3F) ∨
     (0x43 ≤ op ∧ op ≤ 0x4F) ∨ (0x53 ≤ op ∧ op ≤ 0xFF))) ∧
  (∀ w : CmdWord, (∃ i, decode w = .ok i) ∨ decode w = .error (.undefinedOpcode (opField w))) ∧
  (symbols.filter (fun op => decode (cmdWord op 0 0) = .error (.undefinedOpcode op))).length = 238

/-! ### The step -/

/-- A step runs the command the host offers next, after taking it off the stream; an undefined opcode goes to the rule
of R85; with nothing offered the block holds its state (R65, R83, R223; the stream is the model's own, log entry 1). -/
def Obligations.StepRunsTheOfferedCommand : Prop :=
  ∀ s : State,
    (s.input = [] → step s = .next s) ∧
    (∀ w rest, s.input = .command w :: rest →
      (∀ i, decode w = .ok i → step s = exec i { s with input := rest }) ∧
      (∀ e, decode w = .error e → step s = undefinedCommand (opField w) (symField w) { s with input := rest }))

/-- R65, R81, R200: a step that executes a word takes that word off the stream and gives exactly one response, after
those given before; its data is 0 unless the command is one of the six reads and its status OK; it never carries a code
that is the host's (R201). -/
def Obligations.OneResponsePerCommand : Prop :=
  ∀ (s t : State) (w : CmdWord) (rest : List HostInput), s.input = .command w :: rest → step s = .next t →
    t.input = rest ∧
    ∃ r : Response, t.rsps = s.rsps ++ [r] ∧ r.status ≠ .eEmpty ∧ r.status ≠ .eFormat ∧
      (r.status ≠ .ok → r.data = 0) ∧ (∀ i, decode w = .ok i → isRead i = false → r.data = 0)

/-- R230: `rst` gives the reset state with OUT empty, whatever the block was doing, and no response for a command it
abandons; the host's later inputs stay (log entry 4), and the output pins are those of an idle block (log entry 16). -/
def Obligations.RstGivesResetState : Prop :=
  ∀ (s : State) (w : Option CmdWord) (rest : List HostInput), s.input = .reset w :: rest →
    ∃ t, step s = .next t ∧ t.AtResetValues ∧ t.out = [] ∧ t.rsps = [] ∧ t.input = rest ∧
      t.ports = { cmdReady := true, rspValid := false, outValid := false, fault := false }

/-- R40, R101: reset leaves every piece of state at its reset value with OUT empty, and CLR, in every phase, the same
values with OUT unchanged. -/
def Obligations.ResetAndClrGiveResetValues : Prop :=
  (State.reset.AtResetValues ∧ State.reset.out = []) ∧
  ∀ s : State, ∃ t, exec .clr s = .next t ∧ t.AtResetValues ∧ t.out = s.out ∧
    t.rsps = s.rsps ++ [⟨.ok, 0⟩] ∧ t.input = s.input

/-! ### Control and table commands -/

/-- R100: in every state NOP answers OK and changes nothing. -/
def Obligations.NopChangesNothing : Prop := ∀ s : State, Answers .nop s 0

/-- R102, R37: in every state RDS answers the register its number names, zero-extended, and changes nothing; a reserved
number raises E_OPERAND (the case of FAULT is in OperandOutOfRangeRaises). -/
def Obligations.RdsAnswersRegister : Prop :=
  ∀ s : State,
    Answers (.rds 0x00) s (s.ph.code.zeroExtend 64) ∧ Answers (.rds 0x01) s (s.err.zeroExtend 64) ∧
    Answers (.rds 0x02) s (s.errcmd.zeroExtend 64) ∧ Answers (.rds 0x03) s (s.nsym.zeroExtend 64) ∧
    Answers (.rds 0x04) s (s.root.zeroExtend 64) ∧ Answers (.rds 0x05) s (s.nint.zeroExtend 64) ∧
    Answers (.rds 0x06) s s.n ∧ Answers (.rds 0x07) s s.outcnt ∧
    Answers (.rds 0x08) s (s.pacc.zeroExtend 64) ∧ Answers (.rds 0x09) s (s.pcnt.zeroExtend 64) ∧
    Answers (.rds 0x0A) s (s.clen.zeroExtend 64) ∧
    Answers (.rds 0x0C) s ((s.cbits ++ 0#1).extractLsb' 192 64) ∧
    Answers (.rds 0x0D) s ((s.cbits ++ 0#1).extractLsb' 128 64) ∧
    Answers (.rds 0x0E) s ((s.cbits ++ 0#1).extractLsb' 64 64) ∧
    Answers (.rds 0x0F) s ((s.cbits ++ 0#1).extractLsb' 0 64) ∧
    ∀ r, r = 0x0B ∨ 0x10 ≤ r.toNat → s.ph ≠ .fault → Raises (.rds r) s .eOperand

/-- R206: the three causes of E_OPERAND, in phases where the command is legal; and R214: in phase FAULT an RDS of a
reserved number answers E_OPERAND and keeps the first error. -/
def Obligations.OperandOutOfRangeRaises : Prop :=
  ∀ s : State,
    (∀ v c, s.ph = .load → 2 ^ 31 - 1 < c.toNat → Raises (.ftw v c) s .eOperand) ∧
    (∀ sym n, s.ph = .load ∨ s.ph = .built ∨ s.ph = .coded → 2 ^ 63 - 1 < n.toNat →
      Raises (.setn sym n) s .eOperand) ∧
    (∀ r, r = 0x0B ∨ 0x10 ≤ r.toNat →
      (s.ph ≠ .fault → Raises (.rds r) s .eOperand) ∧
      (s.ph = .fault → exec (.rds r) s = .next { s with rsps := s.rsps ++ [⟨.eOperand, 0⟩] }))

/-- R110: in LOAD, FTW of a legal count replaces that one entry, counts NSYM up or down, and changes nothing else. -/
def Obligations.FtwStoresCount : Prop :=
  ∀ (s : State) (v : Byte) (c : BitVec 64), Memory.wf 0 Config.nsymMax s.ft = true → s.ph = .load →
    c.toNat ≤ 2 ^ 31 - 1 →
    ∃ ft, exec (.ftw v c) s = .next { s with
        ft := ft
        nsym := if ftRead s.ft v = 0 ∧ 0 < c.toNat then s.nsym + 1
          else if ftRead s.ft v ≠ 0 ∧ c = 0 then s.nsym - 1 else s.nsym
        rsps := s.rsps ++ [⟨.ok, 0⟩] } ∧
      Memory.wf 0 Config.nsymMax ft = true ∧ (ftRead ft v).toNat = c.toNat ∧
      ∀ u, u ≠ v → ftRead ft u = ftRead s.ft u

/-- R111: in every state FTR answers the count, zero-extended, and changes nothing. -/
def Obligations.FtrAnswersCount : Prop := ∀ (s : State) (v : Byte), Answers (.ftr v) s ((ftRead s.ft v).zeroExtend 64)

/-- R112: SETN in LOAD, BUILT or CODED writes N and nothing else when bit 63 is clear, raises E_OPERAND when it is set,
and raises E_SEQ in PACK, UNPACK and DONE. -/
def Obligations.SetnWritesSize : Prop :=
  ∀ (s : State) (sym : BitVec 8) (n : BitVec 64),
    (s.ph = .load ∨ s.ph = .built ∨ s.ph = .coded → n.getLsbD 63 = false →
      exec (.setn sym n) s = .next { s with n := n, rsps := s.rsps ++ [⟨.ok, 0⟩] }) ∧
    (s.ph = .load ∨ s.ph = .built ∨ s.ph = .coded → n.getLsbD 63 = true → Raises (.setn sym n) s .eOperand) ∧
    (s.ph = .pack ∨ s.ph = .unpack ∨ s.ph = .done → Raises (.setn sym n) s .eSeq)

/-- R113: two loads from one state that leave the same count for every symbol leave the same FT and the same NSYM. -/
def Obligations.LoadOrderDoesNotMatter : Prop :=
  ∀ (s : State) (ws ws' : List (Byte × BitVec 64)), Memory.wf 0 Config.nsymMax s.ft = true →
    s.nsym.toNat = presentCount s.ft → s.ph = .load →
    (∀ e ∈ ws, e.2.toNat ≤ 2 ^ 31 - 1) → (∀ e ∈ ws', e.2.toNat ≤ 2 ^ 31 - 1) →
    ∃ t t', runAll (loadTable ws) s = .next t ∧ runAll (loadTable ws') s = .next t' ∧
      ((∀ v, ftRead t.ft v = ftRead t'.ft v) → t.ft = t'.ft ∧ t.nsym = t'.nsym)

/-! ### Tree commands -/

/-- R202: BUILD in LOAD with NSYM = 0 raises E_TREE and changes nothing else. -/
def Obligations.BuildOfEmptyTableRaises : Prop :=
  ∀ (s : State) (sym : BitVec 8), s.ph = .load → s.nsym = 0 → Raises (.build sym) s .eTree

/-- R127, R123: in LOAD with a non-empty table BUILD answers OK, changes only NM, ROOT, NINT and PH, and leaves the tree
`BuildTree(TableOf(FT))` in node memory, laid out as R33 says. -/
def Obligations.BuildMakesTheTableTree : Prop :=
  ∀ (s : State) (sym : BitVec 8), s.ControlInv → s.ph = .load → s.nsym ≠ 0 →
    ∃ t, exec (.build sym) s = .next t ∧
      t = { s with nm := t.nm, root := t.root, nint := t.nint, ph := .built, rsps := s.rsps ++ [⟨.ok, 0⟩] } ∧
      t.TreeHeld

/-- R126 and R129 (a), (c), (f), (g), with the cached minleaf of R122: every internal node BUILD makes has two valid
children made before it, the left sorting before the right; its weight is exactly the sum of theirs and its minleaf the
smaller of theirs; weights do not decrease with the index. -/
def Obligations.BuiltNodesAreWellShaped : Prop :=
  ∀ (s t : State) (sym : BitVec 8), s.ControlInv → s.ph = .load → exec (.build sym) s = .next t → t.ph = .built →
    ∀ k < t.nint.toNat,
      let x := nmRead t.nm (256 + k)
      let l := nmRead t.nm x.l.toNat
      let r := nmRead t.nm x.r.toNat
      l.valid = true ∧ r.valid = true ∧ x.l.toNat < 256 + k ∧ x.r.toNat < 256 + k ∧ l.key < r.key ∧
        x.w.toNat = l.w.toNat + r.w.toNat ∧ x.ml.toNat = min l.ml.toNat r.ml.toNat ∧
        (k + 1 < t.nint.toNat → x.w ≤ (nmRead t.nm (256 + k + 1)).w)

/-- R129 (b), (d), (e): every valid node but ROOT is the child of exactly one internal node, on one side, and ROOT of
none; the leaves below ROOT are the present symbols, once each; ROOT's weight is the sum of all counts. -/
def Obligations.BuiltTreeCoversTheTable : Prop :=
  ∀ (s t : State) (sym : BitVec 8), s.ControlInv → s.ph = .load → exec (.build sym) s = .next t → t.ph = .built →
    (∀ j < Config.nodeMax, (nmRead t.nm j).valid = true → j ≠ t.root.toNat →
      ∃ k < t.nint.toNat,
        (((nmRead t.nm (256 + k)).l.toNat = j ∧ (nmRead t.nm (256 + k)).r.toNat ≠ j) ∨
         ((nmRead t.nm (256 + k)).l.toNat ≠ j ∧ (nmRead t.nm (256 + k)).r.toNat = j)) ∧
        ∀ k' < t.nint.toNat,
          (nmRead t.nm (256 + k')).l.toNat = j ∨ (nmRead t.nm (256 + k')).r.toNat = j → k' = k) ∧
    (∀ k < t.nint.toNat,
      (nmRead t.nm (256 + k)).l.toNat ≠ t.root.toNat ∧ (nmRead t.nm (256 + k)).r.toNat ≠ t.root.toNat) ∧
    (∃ T, t.tree = some T ∧ T.leaves.Perm (symbols.filter (fun v => decide (ftRead t.ft v ≠ 0)))) ∧
    (nmRead t.nm t.root.toNat).w.toNat = ((tableOf t.ft).map Prod.snd).sum

/-- R128: two BUILDs from states whose FT contents are equal leave equal NM, ROOT and NINT. -/
def Obligations.BuildDependsOnTheTableOnly : Prop :=
  ∀ (s s' : State) (sym sym' : BitVec 8), s.ControlInv → s'.ControlInv → s.ph = .load → s'.ph = .load → s.nsym ≠ 0 →
    (∀ v, ftRead s.ft v = ftRead s'.ft v) →
    ∃ t t', exec (.build sym) s = .next t ∧ exec (.build sym') s' = .next t' ∧
      t.ph = .built ∧ t'.ph = .built ∧ t.nm = t'.nm ∧ t.root = t'.root ∧ t.nint = t'.nint

/-- R121: the 48-bit key orders records by weight, then Leaf before Internal, then minleaf. -/
def Obligations.KeyOrderIsLexicographic : Prop :=
  ∀ x y : NodeRec, x.key < y.key ↔
    x.w < y.w ∨ (x.w = y.w ∧ ((x.tag = .leaf ∧ y.tag = .internal) ∨ (x.tag = y.tag ∧ x.ml < y.ml)))

/-- R122 (a): of two trees without a common leaf exactly one sorts before the other, so no tie survives. -/
def Obligations.DisjointTreesNeverTie : Prop :=
  ∀ a b : Tree, (∀ v ∈ a.leaves, v ∉ b.leaves) → Tree.lt a b = !Tree.lt b a

/-- R124, R125: in every state NDR answers `{r, l, ml, tag, valid}` and NDW the weight of the entry, the all-zero entry
for index 511, and neither changes anything. -/
def Obligations.NodeReadsAnswerTheRecord : Prop :=
  ∀ (s : State) (i : BitVec 9),
    let x := if i.toNat ≤ 510 then Memory.read NodeRec.zero s.nm i.toNat else NodeRec.zero
    (∃ d, Answers (.ndr i) s d ∧ d.getLsbD 0 = x.valid ∧ d.getLsbD 1 = decide (x.tag = .internal) ∧
      d.extractLsb' 2 8 = x.ml ∧ d.extractLsb' 10 9 = x.l ∧ d.extractLsb' 19 9 = x.r ∧ d.extractLsb' 28 36 = 0) ∧
    Answers (.ndw i) s (x.w.zeroExtend 64)

/-! ### Code-table commands -/

/-- R141: in BUILT, GEN answers OK, changes only CT and PH, and leaves in CT the codes of the tree at ROOT, one for each
present symbol and none for any other. -/
def Obligations.GenMakesTheTreeCodes : Prop :=
  ∀ (s : State) (sym : BitVec 8), s.ControlInv → s.TreeInv → s.ph = .built →
    ∃ t, exec (.gen sym) s = .next t ∧
      t = { s with ct := t.ct, ph := .coded, rsps := s.rsps ++ [⟨.ok, 0⟩] } ∧ t.CodesHeld

/-- R142: with one symbol, ROOT is its byte value and GEN gives it the code "0" and every other symbol none. -/
def Obligations.GenGivesSingleSymbolCodeZero : Prop :=
  ∀ (s : State) (sym : BitVec 8), s.ControlInv → s.TreeInv → s.ph = .built → s.nsym = 1 →
    s.root.toNat < 256 ∧ ftRead s.ft (s.root.extractLsb' 0 8) ≠ 0 ∧
    ∃ t, exec (.gen sym) s = .next t ∧ ctRead t.ct (s.root.extractLsb' 0 8) = ⟨1, 0⟩ ∧
      ∀ v, v ≠ s.root.extractLsb' 0 8 → ctRead t.ct v = CodeEntry.zero

/-- R146: in every state after a GEN no code is a prefix of another; and with two symbols or more every bit string has a
code as a prefix or is a proper prefix of some code. -/
def Obligations.CodesArePrefixFreeAndComplete : Prop :=
  ∀ s : State, s.Inv → s.codesMade →
    (∀ u v : Byte, u ≠ v → (ctRead s.ct u).len ≠ 0 → (ctRead s.ct v).len ≠ 0 →
      ¬(ctRead s.ct u).bits <+: (ctRead s.ct v).bits) ∧
    (2 ≤ s.nsym.toNat → ∀ c : BitString,
      (∃ v : Byte, (ctRead s.ct v).len ≠ 0 ∧ (ctRead s.ct v).bits <+: c) ∨
      (∃ v : Byte, (ctRead s.ct v).len ≠ 0 ∧ c <+: (ctRead s.ct v).bits ∧ c ≠ (ctRead s.ct v).bits))

/-- R144, R145: in every state CTL answers the code length, and chunk `q` of CTB holds code bits `64 q` to `64 q + 63`
from response bit 63 down, `X` being `W` followed by a zero bit; neither changes anything. -/
def Obligations.CodeReadsAnswerTheEntry : Prop :=
  ∀ (s : State) (v : Byte) (q : BitVec 2),
    Answers (.ctl v) s ((ctRead s.ct v).len.zeroExtend 64) ∧
    ∃ d, Answers (.ctb v q) s d ∧
      (∀ k < 64, d.getLsbD (63 - k) = ((ctRead s.ct v).w ++ 0#1).getLsbD (255 - (64 * q.toNat + k))) ∧
      (∀ k < 64, 64 * q.toNat + k < (ctRead s.ct v).len.toNat →
        d.getLsbD (63 - k) = (ctRead s.ct v).bits.getD (64 * q.toNat + k) false)

/-! ### Packer -/

/-- R150: PKS in CODED clears PACC, PCNT and OUTCNT, enters PACK and changes nothing else; elsewhere it raises E_SEQ. -/
def Obligations.PksStartsPacking : Prop :=
  ∀ (s : State) (sym : BitVec 8),
    (s.ph = .coded → exec (.pks sym) s = .next
      { s with pacc := 0, pcnt := 0, outcnt := 0, ph := .pack, rsps := s.rsps ++ [⟨.ok, 0⟩] }) ∧
    (s.ph ≠ .coded → s.ph ≠ .fault → Raises (.pks sym) s .eSeq)

/-- R151: in PACK, PKB of a symbol with a code appends the code to the bits held: the bytes emitted followed by the bits
still held are the bits held before followed by the code, and `floor((PCNT + |c|) / 8)` bytes are emitted. Only PACC,
PCNT, OUT and OUTCNT change. -/
def Obligations.PkbAppendsTheCode : Prop :=
  ∀ (s : State) (b : Byte), s.ph = .pack → s.pacc.toNat < 2 ^ s.pcnt.toNat → (ctRead s.ct b).len ≠ 0 →
    ∃ t bytes, exec (.pkb b) s = .next t ∧
      t = { s with
        out := s.out ++ bytes, outcnt := s.outcnt + BitVec.ofNat 64 bytes.length
        pacc := t.pacc, pcnt := t.pcnt, rsps := s.rsps ++ [⟨.ok, 0⟩] } ∧
      bitsOf bytes ++ t.heldBits = s.heldBits ++ (ctRead s.ct b).bits ∧
      bytes.length = (s.pcnt.toNat + (ctRead s.ct b).len.toNat) / 8 ∧
      t.pcnt.toNat = (s.pcnt.toNat + (ctRead s.ct b).len.toNat) % 8 ∧ t.pacc.toNat < 2 ^ t.pcnt.toNat

/-- R207: PKB in PACK of a symbol without a code raises E_NOCODE; no bit is appended and nothing is emitted. -/
def Obligations.PkbWithoutCodeRaises : Prop :=
  ∀ (s : State) (b : Byte), s.ph = .pack → (ctRead s.ct b).len = 0 → Raises (.pkb b) s .eNoCode

/-- R152: PKE in PACK emits the bits held, padded on the right with zeros to a byte, or nothing when none is held;
clears PACC and PCNT, enters DONE, and changes nothing else. -/
def Obligations.PkeFlushesThePartialByte : Prop :=
  ∀ (s : State) (sym : BitVec 8), s.ph = .pack → s.pacc.toNat < 2 ^ s.pcnt.toNat →
    ∃ bytes, exec (.pke sym) s = .next { s with
        out := s.out ++ bytes, outcnt := s.outcnt + BitVec.ofNat 64 bytes.length
        pacc := 0, pcnt := 0, ph := .done, rsps := s.rsps ++ [⟨.ok, 0⟩] } ∧
      bytes.length = (if s.pcnt = 0 then 0 else 1) ∧
      bitsOf bytes = s.heldBits ++ List.replicate (if s.pcnt = 0 then 0 else 8 - s.pcnt.toNat) false

/-- R153: from CODED, packing a sequence every byte of which has a code emits `Pack(S, CodesOf(CT))`; before the PKE
`8 × OUTCNT + PCNT` is the number of bits and PACC holds the last PCNT of them, and after it PACC and PCNT are 0 and
PH = DONE. Counts of bytes are modulo 2^64, as OUTCNT is. -/
def Obligations.PackingASequenceEmitsItsBits : Prop :=
  ∀ (s : State) (bs : Bytes), s.ph = .coded → (∀ b ∈ bs, (ctRead s.ct b).len ≠ 0) →
    let bits := codeBits bs (codesOf s.ct)
    (∃ u, runAll (.pks 0 :: bs.map (fun b => .pkb b)) s = .next u ∧ u.outcnt = BitVec.ofNat 64 (bits.length / 8) ∧
      u.pcnt.toNat = bits.length % 8 ∧ u.heldBits = bits.drop (8 * (bits.length / 8))) ∧
    ∃ t, runAll (packCall bs) s = .next t ∧ t.out = s.out ++ packValue bs (codesOf s.ct) ∧
      t.outcnt = BitVec.ofNat 64 ((bits.length + 7) / 8) ∧ t.pacc = 0 ∧ t.pcnt = 0 ∧ t.ph = .done

/-- R61: the payload of `L` bits has `ceil(L / 8)` bytes; bit `j` is bit `7 - (j mod 8)` of byte `floor(j / 8)`; bits of
the last byte past `L` are 0. -/
def Obligations.PayloadBitOrderIsMsbFirst : Prop :=
  ∀ B : BitString, (toBytes B).length = (B.length + 7) / 8 ∧
    (∀ j < B.length, ((toBytes B).getD (j / 8) 0).getLsbD (7 - j % 8) = B.getD j false) ∧
    (∀ j, B.length ≤ j → j < 8 * (toBytes B).length → ((toBytes B).getD (j / 8) 0).getLsbD (7 - j % 8) = false)

/-! ### Unpacker -/

/-- R160, R161: UPS in CODED empties the candidate, clears OUTCNT and enters UNPACK; with one symbol it also emits that
symbol N times, which leaves OUTCNT = N; elsewhere it raises E_SEQ. -/
def Obligations.UpsStartsUnpacking : Prop :=
  ∀ (s : State) (sym : BitVec 8),
    (s.ph = .coded → s.nsym ≠ 1 → exec (.ups sym) s = .next
      { s with clen := 0, cbits := 0, outcnt := 0, ph := .unpack, rsps := s.rsps ++ [⟨.ok, 0⟩] }) ∧
    (s.ph = .coded → s.nsym = 1 → exec (.ups sym) s = .next
      { s with
        clen := 0, cbits := 0, outcnt := s.n, ph := .unpack, rsps := s.rsps ++ [⟨.ok, 0⟩]
        out := s.out ++ List.replicate s.n.toNat (s.root.extractLsb' 0 8) }) ∧
    (s.ph ≠ .coded → s.ph ≠ .fault → Raises (.ups sym) s .eSeq)

/-- R162: in UNPACK, UPB decodes the eight bits as the loop of R164 does on the bytes of this call so far and the
candidate; only OUT, OUTCNT, CLEN and CBITS change. -/
def Obligations.UpbDecodesOneByte : Prop :=
  ∀ (s : State) (p : Byte), s.Inv → s.ph = .unpack →
    ∃ t bytes, exec (.upb p) s = .next t ∧
      t = { s with
        out := s.out ++ bytes, outcnt := s.outcnt + BitVec.ofNat 64 bytes.length
        clen := t.clen, cbits := t.cbits, rsps := s.rsps ++ [⟨.ok, 0⟩] } ∧
      decodeBits (codesOf s.ct) s.n.toNat (byteBits p) s.callOut s.candidate = (s.callOut ++ bytes, t.candidate) ∧
      bytes.length ≤ 8

/-- R162: once OUTCNT has reached N, UPB drops every bit and changes nothing. -/
def Obligations.UpbAfterLastSymbolDropsBits : Prop :=
  ∀ (s : State) (p : Byte), s.ph = .unpack → s.n ≤ s.outcnt → Answers (.upb p) s 0

/-- R163: UPE in UNPACK raises E_SIZE when OUTCNT < N, keeping the candidate, and otherwise empties the candidate and
enters DONE; outside UNPACK it raises E_SEQ. -/
def Obligations.UpeChecksTheSize : Prop :=
  ∀ (s : State) (sym : BitVec 8),
    (s.ph = .unpack → s.outcnt < s.n → Raises (.upe sym) s .eSize) ∧
    (s.ph = .unpack → s.n ≤ s.outcnt → exec (.upe sym) s = .next
      { s with clen := 0, cbits := 0, ph := .done, rsps := s.rsps ++ [⟨.ok, 0⟩] }) ∧
    (s.ph ≠ .unpack → s.ph ≠ .fault → Raises (.upe sym) s .eSeq)

/-- R164: from CODED with N set, unpacking a payload behaves as `Unpack(P, CodesOf(CT), N)`: the same bytes, and DONE or
E_SIZE as it says. -/
def Obligations.UnpackingAPayloadIsUnpack : Prop :=
  ∀ (s : State) (ps : Bytes), s.Inv → s.ph = .coded →
    ∃ t, runAll (unpackCall ps) s = .next t ∧
      t.out = s.out ++ (unpackValue ps (codesOf s.ct) s.n.toNat).1 ∧
      ((unpackValue ps (codesOf s.ct) s.n.toNat).2 = true → t.ph = .done ∧ t.err = 0) ∧
      ((unpackValue ps (codesOf s.ct) s.n.toNat).2 = false → t.ph = .fault ∧ t.err = 0x04)

/-- R166: in a tree with two leaves or more and no leaf twice, a bit string is the code of a symbol exactly when the walk
along it from the root ends at that symbol's leaf. -/
def Obligations.MatchingACodeIsWalkingTheTree : Prop :=
  ∀ (w : Nat) (a b : Tree) (v : Byte) (c : BitString), (Tree.internal w a b).leaves.Nodup →
    ((Tree.internal w a b).codes.lookup v = some c ↔ ∃ w', (Tree.internal w a b).descend c = some (.leaf v w'))

/-- R167: packing a sequence in one call yields the payload `Pack(S, Codes(BuildTree(T)))`, and unpacking it in another,
each call started by CLR in any state, emits the sequence and ends in DONE, when every count fits. -/
def Obligations.RoundTripThroughTheBlock : Prop :=
  ∀ (s s' : State) (bs : Bytes) (T : Table), freq bs = .ok T → (∀ e ∈ T, e.2 ≤ 2 ^ 31 - 1) →
    ∃ t, runAll (compressCommands T bs) s = .next t ∧ t.ph = .done ∧
      (∃ tree, buildTree T = some tree ∧ t.callOut = packValue bs tree.codes) ∧
      ∃ t', runAll (.clr :: loadTable (T.map (fun e => (e.1, BitVec.ofNat 64 e.2))) ++
          [.setn 0 (BitVec.ofNat 64 bs.length), .build 0, .gen 0] ++ unpackCall t.callOut) s' = .next t' ∧
        t'.callOut = bs ∧ t'.ph = .done

/-! ### Errors -/

/-- R85, R204: an undefined opcode raises E_ILLEGAL, recording `{op, sym}`, and in FAULT is answered E_FAULTED with no
change. -/
def Obligations.UndefinedOpcodeRaises : Prop :=
  ∀ (s : State) (w : CmdWord) (rest : List HostInput) (e : DecodeError),
    s.input = .command w :: rest → decode w = .error e →
    (s.ph ≠ .fault → step s = .next { s with
      input := rest, err := 0x10, errcmd := opField w ++ symField w, ph := .fault
      rsps := s.rsps ++ [⟨.eIllegal, 0⟩] }) ∧
    (s.ph = .fault → step s = .next { s with input := rest, rsps := s.rsps ++ [⟨.eFaulted, 0⟩] })

/-- R205, R210: a defined command in a phase where R23 does not list it, other than FAULT, raises E_SEQ whatever its
operand: ERR, ERRCMD and PH are written and nothing else changes. -/
def Obligations.OutOfPhaseCommandRaises : Prop :=
  ∀ (i : Instr) (s : State), s.ph ≠ .fault → legalIn i s.ph = false → Raises i s .eSeq

/-- R212, R214: in FAULT the ten commands outside the eight, and every undefined opcode, are answered E_FAULTED with no
state change; the eight but CLR answer and change no state, so the first error is kept. -/
def Obligations.FaultPhaseKeepsTheState : Prop :=
  ∀ (i : Instr) (s : State), s.ph = .fault →
    (allowedInFault i = false → exec i s = .next { s with rsps := s.rsps ++ [⟨.eFaulted, 0⟩] }) ∧
    (∀ w e, decode w = .error e → runCommand w s = .next { s with rsps := s.rsps ++ [⟨.eFaulted, 0⟩] }) ∧
    (allowedInFault i = true → i ≠ .clr →
      ∃ st d, exec i s = .next { s with rsps := s.rsps ++ [⟨st, d⟩] } ∧
        (st = .ok ∨ (st = .eOperand ∧ ∃ r, i = .rds r)))

/-- R211: a word reports the first error that applies: E_FAULTED in FAULT unless it is one of the eight, then E_ILLEGAL,
then E_SEQ, then E_OPERAND, then the command's own. -/
def Obligations.FirstApplicableErrorIsReported : Prop :=
  ∀ (w : CmdWord) (s t : State), runCommand w s = .next t →
    ∃ st d, t.rsps = s.rsps ++ [⟨st, d⟩] ∧
      (st = .eFaulted ↔ s.ph = .fault ∧ ∀ i, decode w = .ok i → allowedInFault i = false) ∧
      (st = .eIllegal ↔ s.ph ≠ .fault ∧ ∀ i, decode w ≠ .ok i) ∧
      (st = .eSeq ↔ s.ph ≠ .fault ∧ ∃ i, decode w = .ok i ∧ legalIn i s.ph = false) ∧
      (st = .eOperand ↔ ∃ i, decode w = .ok i ∧ legalIn i s.ph = true ∧ i.wellFormed = false) ∧
      (st = .eTree ∨ st = .eNoCode ∨ st = .eSize →
        ∃ i, decode w = .ok i ∧ s.ph ≠ .fault ∧ legalIn i s.ph = true ∧ i.wellFormed = true ∧ st ∈ mayRaise i)

/-- R210, R25, R70: a word that is answered an error changes nothing but ERR, ERRCMD and PH, gives data 0 and emits
nothing; ERR holds the first error of the call and ERRCMD the `op` and `sym` of its word as presented. -/
def Obligations.FailedCommandChangesNothingElse : Prop :=
  ∀ (w : CmdWord) (s t : State) (st : Status) (d : BitVec 64), runCommand w s = .next t →
    t.rsps = s.rsps ++ [⟨st, d⟩] → st ≠ .ok →
    t = { s with err := t.err, errcmd := t.errcmd, ph := .fault, rsps := s.rsps ++ [⟨st, 0⟩] } ∧
      (s.ph = .fault → t.err = s.err ∧ t.errcmd = s.errcmd) ∧
      (s.ph ≠ .fault → t.err = st.code ∧ t.errcmd = opField w ++ symField w)

/-! ### The whole machine -/

/-- R36, R66: no command takes a byte off OUT; OUTCNT counts the bytes a command emits modulo 2^64, from 0 for the
commands that start a stream or a call; only PKB, PKE, UPS and UPB emit. -/
def Obligations.OutOnlyGrows : Prop :=
  ∀ (i : Instr) (s t : State), exec i s = .next t →
    ∃ bytes, t.out = s.out ++ bytes ∧
      (bytes ≠ [] → (∃ b, i = .pkb b) ∨ (∃ y, i = .pke y) ∨ (∃ y, i = .ups y) ∨ (∃ p, i = .upb p)) ∧
      (t.outcnt = s.outcnt + BitVec.ofNat 64 bytes.length ∨
        ((i = .clr ∨ (∃ y, i = .pks y) ∨ (∃ y, i = .ups y)) ∧ t.outcnt = BitVec.ofNat 64 bytes.length))

/-- R23: a command that answers OK was legal in its phase and leaves the phase R23 lists; one that answers an error
leaves FAULT, and from a phase in which it is legal the error is one R23 lists for it. -/
def Obligations.PhaseFollowsTheTable : Prop :=
  ∀ (i : Instr) (s t : State) (st : Status) (d : BitVec 64), exec i s = .next t → t.rsps = s.rsps ++ [⟨st, d⟩] →
    (st = .ok → legalIn i s.ph = true ∧ t.ph = nextPhase i s.ph) ∧
    (st ≠ .ok → t.ph = .fault ∧ (s.ph ≠ .fault → legalIn i s.ph = true → st ∈ mayRaise i))

/-- R22 to R32, R36, R60 and R71: the only commands that can change each register, each memory and OUT. ERR and ERRCMD
change only by CLR and by the fault action of a command outside FAULT, PH only by these and by the six commands R23
gives a next phase, OUTCNT only by the commands that emit or start a stream and by CLR. The host's inputs, which no
command touches, and the responses, one for each command, are the model's own (log entries 1 and 2). -/
def Obligations.EachStateHasItsWriters : Prop :=
  ∀ (i : Instr) (s t : State), exec i s = .next t →
    (t.err ≠ s.err ∨ t.errcmd ≠ s.errcmd → i = .clr ∨
      (s.ph ≠ .fault ∧ ∃ e, e ≠ .ok ∧ e ≠ .eFaulted ∧ t = s.raise e i.opcode i.sym)) ∧
    (t.ph ≠ s.ph → i = .clr ∨ (s.ph ≠ .fault ∧ ∃ e, e ≠ .ok ∧ e ≠ .eFaulted ∧ t = s.raise e i.opcode i.sym) ∨
      (∃ y, i = .build y) ∨ (∃ y, i = .gen y) ∨ (∃ y, i = .pks y) ∨ (∃ y, i = .pke y) ∨ (∃ y, i = .ups y) ∨
      ∃ y, i = .upe y) ∧
    (t.outcnt ≠ s.outcnt → i = .clr ∨ (∃ y, i = .pks y) ∨ (∃ b, i = .pkb b) ∨ (∃ y, i = .pke y) ∨ (∃ y, i = .ups y) ∨
      ∃ p, i = .upb p) ∧
    (t.out ≠ s.out → (∃ b, i = .pkb b) ∨ (∃ y, i = .pke y) ∨ (∃ y, i = .ups y) ∨ ∃ p, i = .upb p) ∧
    (t.ft ≠ s.ft ∨ t.nsym ≠ s.nsym → i = .clr ∨ ∃ v c, i = .ftw v c ∧ s.ph = .load) ∧
    (t.n ≠ s.n → i = .clr ∨ ∃ y n, i = .setn y n) ∧
    (t.nm ≠ s.nm ∨ t.root ≠ s.root ∨ t.nint ≠ s.nint → i = .clr ∨ ∃ y, i = .build y) ∧
    (t.ct ≠ s.ct → i = .clr ∨ ∃ y, i = .gen y) ∧
    (t.pacc ≠ s.pacc ∨ t.pcnt ≠ s.pcnt → i = .clr ∨ (∃ y, i = .pks y) ∨ (∃ b, i = .pkb b) ∨ ∃ y, i = .pke y) ∧
    (t.clen ≠ s.clen ∨ t.cbits ≠ s.cbits → i = .clr ∨ (∃ y, i = .ups y) ∨ (∃ p, i = .upb p) ∨ ∃ y, i = .upe y) ∧
    t.input = s.input ∧ ∃ r, t.rsps = s.rsps ++ [r]

/-- The reset state meets every invariant (R39, R40, and what log entries 23 and 24 deduce), as a state of
phase LOAD. -/
def Obligations.ResetMeetsTheInvariants : Prop := State.reset.Inv ∧ State.reset.CameFrom .load

/-- R39 items 1 to 5, 8 and 9, the canonical form of the memories, and what log entry 24 adds as the model's own deduction
(R101: no code table before GEN; R150: OUTCNT is 0 until a stream starts; R161: with one symbol OUTCNT is N in UNPACK;
R36: OUTCNT is at most the length of OUT): every step keeps all of them together, from every state that has them all. A
FAULT was entered from some phase here; which one is in StepTracksWhereAFaultCameFrom. -/
def Obligations.StepKeepsControlInvariant : Prop :=
  ∀ s t : State, s.ControlInv → step s = .next t → t.ControlInv

/-- R39 items 8 and 9 in FAULT, and item 5: every step keeps that the registers and memories are those of the phase, or in
FAULT of the phase it was entered from, which a raise takes over from the state it leaves (R210). So PACC and PCNT are 0
in a FAULT not entered from PACK, and CLEN and CBITS in one not entered from UNPACK. The model's own deductions are:
that the phase a FAULT was entered from is followed beside the state, that item 5 holds in a FAULT entered from LOAD,
and that NM is not empty past LOAD and CT not past BUILT, which is how items 6 and 7 are read in FAULT (log entry 23);
and that CT is empty in BUILT, from R23 and R101 (log entry 24). -/
def Obligations.StepTracksWhereAFaultCameFrom : Prop :=
  ∀ (p : Phase) (s t : State), s.CameFrom p → step s = .next t → t.CameFrom (originAfter p s t)

/-- R39 item 6: every step keeps that NM holds the tree of the table once a BUILD has succeeded. -/
def Obligations.StepKeepsTreeInvariant : Prop :=
  ∀ s t : State, s.ControlInv → s.TreeInv → step s = .next t → t.TreeInv

/-- R39 item 7: every step keeps that CT holds the codes of the tree once a GEN has succeeded. -/
def Obligations.StepKeepsCodeInvariant : Prop :=
  ∀ s t : State, s.ControlInv → s.TreeInv → s.CodeInv → step s = .next t → t.CodeInv

/-- R32, R165: every step keeps that the candidate is at most 254 bits, left-aligned, and empty or a proper prefix of
some code. -/
def Obligations.StepKeepsCandidateInvariant : Prop :=
  ∀ s t : State, s.Inv → step s = .next t → t.CandidateInv

/-- From a state with the invariants a step always answers a next state (R15); the faults the model names for states no
run reaches (log entries 6 to 8) do not arise. That a command which emits completes is the model's choice: OUT is
unbounded and the host takes every byte (log entry 3), so the hang of R236 is not in the model. -/
def Obligations.StepNeverStops : Prop := ∀ s : State, s.Inv → ∃ t, step s = .next t

/-- R39, with what log entries 23 and 24 add: in every state reachable from reset by any sequence of commands and resets
the invariants hold, and in a FAULT those of the phase it was entered from, so PACC and PCNT are 0 unless that was PACK,
and CLEN and CBITS unless it was UNPACK. The run there stops at no fault and no refusal (R15), which is the model's
choice in so far as the host takes every byte (log entry 3, R236). -/
def Obligations.ReachableStatesMeetTheInvariants : Prop :=
  ∀ (inputs : List HostInput) (k : Nat),
    SafeRun k { State.reset with input := inputs } ∧
    ∀ t, Host.Core.run core k { State.reset with input := inputs } = .next t →
      State.Inv t ∧ State.CameFrom (originOfRun k .load { State.reset with input := inputs }) t

/-! ### The host side -/

/-- R170: the empty sequence fails with EmptyInputError, and any other has the table of the numbers of occurrences of the
bytes that occur. -/
def Obligations.FrequencyModelCounts : Prop :=
  freq [] = .error .emptyInput ∧
  ∀ bs : Bytes, bs ≠ [] → ∃ T, freq bs = .ok T ∧ (T.map Prod.fst).Nodup ∧
    ∀ v n, (v, n) ∈ T ↔ n = bs.count v ∧ v ∈ bs

/-- R173: a container that is short, has a wrong magic tag, a negative or oversized field, or a negative count fails with
InvalidFormatError. -/
def Obligations.ParserRejectsBadContainers : Prop :=
  ∀ x : Bytes,
    (x.length < 16 → parseContainer x = .error .invalidFormat) ∧
    (x.take 4 ≠ [0x48, 0x46, 0x5A, 0x31] → parseContainer x = .error .invalidFormat) ∧
    ((readBe64 x 4).toInt < 0 → parseContainer x = .error .invalidFormat) ∧
    ((readBe32 x 12).toInt < 0 ∨ 256 < (readBe32 x 12).toInt → parseContainer x = .error .invalidFormat) ∧
    (x.length < 16 + 5 * (readBe32 x 12).toNat → parseContainer x = .error .invalidFormat) ∧
    (∀ e < (readBe32 x 12).toNat, (readBe32 x (17 + 5 * e)).toInt < 0 → parseContainer x = .error .invalidFormat)

/-- R171 to R173: what the writer writes, in any order of the entries, the reader reads back. -/
def Obligations.ParserReadsWhatIsWritten : Prop :=
  ∀ c : Container, c.originalSize.msb = false → c.entries.length ≤ 256 → (∀ e ∈ c.entries, e.2.msb = false) →
    parseContainer (writeContainer c) = .ok c

/-- R178: decompressing what compress made gives the bytes back, for every non-empty sequence in which no byte value
occurs more than 2^31 - 1 times, on any two blocks in any states. -/
def Obligations.CompressThenDecompressRoundTrips : Prop :=
  ∀ (s s' : State) (bs : Bytes), bs ≠ [] → (∀ v, bs.count v ≤ 2 ^ 31 - 1) →
    ∃ x t, compress s bs (BitVec.ofNat 64 bs.length) = .ok (x, t) ∧ ∃ t', decompress s' x = .ok (bs, t')
end

