-- ==== Sys2Proof/Laws/Decode.lean ====
section
/-! SUPPORT. The fields of a word put together from its fields (30_encoding.md R80). -/

namespace Sys2Proof

@[simp] theorem opField_cmdWord (op sym : BitVec 8) (data : BitVec 64) : opField (cmdWord op sym data) = op := by
  ext k hk
  simp only [opField, cmdWord, BitVec.getElem_extractLsb', BitVec.getLsbD_append]
  rw [if_neg (by omega), if_neg (by omega)]
  simp [show 72 + k - 64 - 8 = k by omega, hk]

@[simp] theorem symField_cmdWord (op sym : BitVec 8) (data : BitVec 64) : symField (cmdWord op sym data) = sym := by
  ext k hk
  simp only [symField, cmdWord, BitVec.getElem_extractLsb', BitVec.getLsbD_append]
  rw [if_neg (by omega), if_pos (by omega)]
  simp [hk]

@[simp] theorem dataField_cmdWord (op sym : BitVec 8) (data : BitVec 64) : dataField (cmdWord op sym data) = data := by
  ext k hk
  simp only [dataField, cmdWord, BitVec.getElem_extractLsb', BitVec.getLsbD_append]
  rw [if_pos (by omega)]
  simp [hk]

/-- A word is its three fields. -/
theorem cmdWord_fields (w : CmdWord) : cmdWord (opField w) (symField w) (dataField w) = w := by
  refine BitVec.eq_of_getLsbD_eq fun k hk => ?_
  simp only [opField, symField, dataField, cmdWord, BitVec.getLsbD_append, BitVec.getLsbD_extractLsb']
  split_ifs with h1 h2
  · simp [h1]
  · simp [h2, show 64 + (k - 64) = k by omega]
  · simp [show k - 64 - 8 < 8 by omega, show 72 + (k - 64 - 8) = k by omega]

/-- A zero-extended operand is read back from the low bits of `data`. -/
theorem extractLsb_zeroExtend_64 {n : Nat} (x : BitVec n) (h : n ≤ 64) :
    (x.zeroExtend 64).extractLsb' 0 n = x := by
  refine BitVec.eq_of_getLsbD_eq fun k hk => ?_
  simp [hk, show k < 64 by omega]

end Sys2Proof
end

