-- ==== Sys2Proof/Laws/Invariants.lean ====
section
/-! SUPPORT. What the invariants of Sys2Proof/Safety.lean say in the words of 10_state.md R39. -/

namespace Sys2Proof.Machine

/-- Outside FAULT the origin is the phase itself. -/
theorem State.ControlInv.cameFromPhase {s : State} (h : s.ControlInv) (hf : s.ph ≠ .fault) : s.CameFrom s.ph := by
  obtain ⟨p, hp⟩ := h.origin
  exact hp.current hf ▸ hp

/-- R39 item 5. -/
theorem State.ControlInv.loadClean {s : State} (h : s.ControlInv) (hl : s.ph = .load) :
    s.nm = [] ∧ s.ct = [] ∧ s.root = 0 ∧ s.nint = 0 :=
  (h.cameFromPhase (by simp [hl])).loadClean hl

/-- No code table in BUILT. -/
theorem State.ControlInv.builtNoCodes {s : State} (h : s.ControlInv) (hb : s.ph = .built) : s.ct = [] :=
  (h.cameFromPhase (by simp [hb])).builtNoCodes hb

/-- R39 item 8, outside FAULT. -/
theorem State.ControlInv.accClear {s : State} (h : s.ControlInv) (hp : s.ph ≠ .pack) (hf : s.ph ≠ .fault) :
    s.pacc = 0 ∧ s.pcnt = 0 :=
  (h.cameFromPhase hf).accClear hp

/-- R39 item 9, outside FAULT. -/
theorem State.ControlInv.candClear {s : State} (h : s.ControlInv) (hu : s.ph ≠ .unpack) (hf : s.ph ≠ .fault) :
    s.clen = 0 ∧ s.cbits = 0 :=
  (h.cameFromPhase hf).candClear hu

/-- R39 item 6's "PH in 1 to 5, or PH = 7 after such a phase" is `treeBuilt`. -/
theorem State.CameFrom.treeBuilt_iff {p : Phase} {s : State} (h : s.CameFrom p) : s.treeBuilt ↔ p ≠ .load := by
  by_cases hf : s.ph = .fault
  · simp only [State.treeBuilt, hf, reduceCtorEq, false_or, true_and]
    exact ⟨fun hn hp => hn (h.loadClean hp).1, h.treeKept⟩
  · rw [h.current hf]
    cases hp : s.ph <;> simp_all [State.treeBuilt]

/-- R39 item 7's "if a GEN has succeeded in this call" is `codesMade`. -/
theorem State.CameFrom.codesMade_iff {p : Phase} {s : State} (h : s.CameFrom p) :
    s.codesMade ↔ p ≠ .load ∧ p ≠ .built := by
  by_cases hf : s.ph = .fault
  · simp only [State.codesMade, hf, reduceCtorEq, false_or, true_and]
    exact ⟨fun hn => ⟨fun hp => hn (h.loadClean hp).2.1, fun hp => hn (h.builtNoCodes hp)⟩, fun hp => h.codesKept hp.1 hp.2⟩
  · rw [h.current hf]
    cases hp : s.ph <;> simp_all [State.codesMade]

/-- Outside FAULT the origin after a step is the phase. -/
theorem originAfter_of_ne_fault (p : Phase) (s : State) {t : State} (h : t.ph ≠ .fault) : originAfter p s t = t.ph :=
  if_pos h

/-- A step into FAULT takes the phase it left as the origin. -/
theorem originAfter_of_enters_fault (p : Phase) {s t : State} (hs : s.ph ≠ .fault) (ht : t.ph = .fault) :
    originAfter p s t = s.ph := by
  simp [originAfter, hs, ht]

/-- A step within FAULT keeps the origin. -/
theorem originAfter_of_stays_in_fault (p : Phase) {s t : State} (hs : s.ph = .fault) (ht : t.ph = .fault) :
    originAfter p s t = p := by
  simp [originAfter, hs, ht]

end Sys2Proof.Machine
end

