-- ==== Sys2Proof/Laws/Memory.lean ====
section
/-! SUPPORT. The laws of a memory in canonical form: a read after a write, and that a write keeps the form. -/

namespace Sys2Proof.Machine

section
variable {α : Type} (zero : α)

@[simp] theorem Memory.read_nil (i : Nat) : Memory.read zero [] i = zero := rfl

/-- An index below every listed one reads as `zero`. -/
theorem Memory.read_of_lt (m : Memory α) (i : Nat) (h : ∀ c ∈ m, i < c.1) : Memory.read zero m i = zero := by
  induction m with
  | nil => rfl
  | cons c m ih =>
    have hc : i < c.1 := h c (List.mem_cons_self ..)
    rw [Memory.read, if_neg (by omega)]
    exact ih fun d hd => h d (List.mem_cons_of_mem _ hd)

variable [DecidableEq α]

/-- The canonical form, as a proposition about the list. -/
theorem Memory.wf_iff (size : Nat) (m : Memory α) :
    Memory.wf zero size m = true ↔ m.Pairwise (fun c d => c.1 < d.1) ∧ ∀ c ∈ m, c.1 < size ∧ c.2 ≠ zero := by
  simp [Memory.wf]

/-- The first entry of a canonical memory lies below the others, which are canonical themselves. -/
theorem Memory.wf_cons (size : Nat) (c : Nat × α) (m : Memory α) :
    Memory.wf zero size (c :: m) = true ↔
      (∀ d ∈ m, c.1 < d.1) ∧ c.1 < size ∧ c.2 ≠ zero ∧ Memory.wf zero size m = true := by
  simp only [Memory.wf_iff, List.pairwise_cons, List.mem_cons, forall_eq_or_imp]
  tauto

@[simp] theorem Memory.wf_nil (size : Nat) : Memory.wf zero size ([] : Memory α) = true := by simp [Memory.wf]

/-- A read after a write of the same entry gives the value written (20_memory.md R68 (a)). -/
@[simp] theorem Memory.read_write_same (size : Nat) (m : Memory α) (i : Nat) (x : α)
    (h : Memory.wf zero size m = true) : Memory.read zero (Memory.write zero m i x) i = x := by
  induction m with
  | nil => by_cases hx : x = zero <;> simp [Memory.write, hx, Memory.read]
  | cons c m ih =>
    obtain ⟨hlt, -, -, hm⟩ := (Memory.wf_cons zero size c m).1 h
    by_cases h1 : i < c.1
    · by_cases hx : x = zero
      · simp only [Memory.write, h1, hx, if_true]
        refine Memory.read_of_lt zero _ _ fun d hd => ?_
        rcases List.mem_cons.1 hd with rfl | hd
        · exact h1
        · exact h1.trans (hlt d hd)
      · simp [Memory.write, h1, hx, Memory.read]
    · by_cases h2 : i = c.1
      · by_cases hx : x = zero
        · simp only [Memory.write, h2, hx, if_true, lt_irrefl, if_false]
          exact Memory.read_of_lt zero _ _ hlt
        · simp [Memory.write, h2, hx, Memory.read]
      · simp [Memory.write, h1, h2, Memory.read, ih hm]

/-- A write leaves every other entry alone. -/
theorem Memory.read_write_other (m : Memory α) (i k : Nat) (x : α) (h : k ≠ i) :
    Memory.read zero (Memory.write zero m i x) k = Memory.read zero m k := by
  induction m with
  | nil => by_cases hx : x = zero <;> simp [Memory.write, hx, Memory.read, h]
  | cons c m ih =>
    by_cases h1 : i < c.1
    · by_cases hx : x = zero <;> simp [Memory.write, h1, hx, Memory.read, h]
    · by_cases h2 : i = c.1
      · have h3 : k ≠ c.1 := h2 ▸ h
        by_cases hx : x = zero <;> simp [Memory.write, h2, hx, Memory.read, h3]
      · simp [Memory.write, h1, h2, Memory.read, ih]

/-- The entries of a memory after a write are the old ones and the one written. -/
theorem Memory.mem_write (m : Memory α) (i : Nat) (x : α) (c : Nat × α) (h : c ∈ Memory.write zero m i x) :
    c ∈ m ∨ (c = (i, x) ∧ x ≠ zero) := by
  induction m with
  | nil =>
    by_cases hx : x = zero
    · simp [Memory.write, hx] at h
    · simpa [Memory.write, hx] using h
  | cons d m ih =>
    simp only [Memory.write] at h
    split_ifs at h with h1 h2 h3 h4
    · exact .inl h
    · rcases List.mem_cons.1 h with rfl | h
      · exact .inr ⟨rfl, h2⟩
      · exact .inl h
    · exact .inl (List.mem_cons_of_mem _ h)
    · rcases List.mem_cons.1 h with rfl | h
      · exact .inr ⟨rfl, h4⟩
      · exact .inl (List.mem_cons_of_mem _ h)
    · rcases List.mem_cons.1 h with rfl | h
      · exact .inl (List.mem_cons_self ..)
      · exact (ih h).imp_left (List.mem_cons_of_mem _)

/-- A write keeps the canonical form. -/
theorem Memory.wf_write (size : Nat) (m : Memory α) (i : Nat) (x : α)
    (h : Memory.wf zero size m = true) (hi : i < size) : Memory.wf zero size (Memory.write zero m i x) = true := by
  induction m with
  | nil => by_cases hx : x = zero <;> simp [Memory.write, hx, Memory.wf, hi]
  | cons c m ih =>
    obtain ⟨hlt, hs, hz, hm⟩ := (Memory.wf_cons zero size c m).1 h
    simp only [Memory.write]
    split_ifs with h1 h2 h3 h4
    · exact h
    · refine (Memory.wf_cons ..).2 ⟨fun d hd => ?_, hi, h2, h⟩
      rcases List.mem_cons.1 hd with rfl | hd
      · exact h1
      · exact h1.trans (hlt d hd)
    · exact hm
    · exact (Memory.wf_cons ..).2 ⟨fun d hd => h3 ▸ hlt d hd, hi, h4, hm⟩
    · refine (Memory.wf_cons ..).2 ⟨fun d hd => ?_, hs, hz, ih hm⟩
      rcases Memory.mem_write zero m i x d hd with hd | ⟨rfl, -⟩
      · exact hlt d hd
      · show c.1 < i
        omega

/-- Two memories in canonical form that read alike are the same list. -/
theorem Memory.ext (size : Nat) (m m' : Memory α) (h : Memory.wf zero size m = true)
    (h' : Memory.wf zero size m' = true) (hr : ∀ i, Memory.read zero m i = Memory.read zero m' i) : m = m' := by
  induction m generalizing m' with
  | nil =>
    cases m' with
    | nil => rfl
    | cons c m' =>
      have hz := ((Memory.wf_cons zero size c m').1 h').2.2.1
      exact absurd (by simpa [Memory.read] using (hr c.1).symm) hz
  | cons c m ih =>
    obtain ⟨hlt, -, hz, hm⟩ := (Memory.wf_cons zero size c m).1 h
    cases m' with
    | nil => exact absurd (by simpa [Memory.read] using hr c.1) hz
    | cons d m' =>
      obtain ⟨hlt', -, hz', hm'⟩ := (Memory.wf_cons zero size d m').1 h'
      have hcd : c.1 = d.1 := by
        rcases lt_trichotomy c.1 d.1 with hl | hl | hl
        · have := hr c.1
          rw [Memory.read, if_pos rfl, Memory.read_of_lt zero (d :: m') c.1
            (by intro e he; rcases List.mem_cons.1 he with rfl | he
                · exact hl
                · exact hl.trans (hlt' e he))] at this
          exact absurd this hz
        · exact hl
        · have := hr d.1
          rw [Memory.read_of_lt zero (c :: m) d.1
            (by intro e he; rcases List.mem_cons.1 he with rfl | he
                · exact hl
                · exact hl.trans (hlt e he)), Memory.read, if_pos rfl] at this
          exact absurd this.symm hz'
      have hv : c.2 = d.2 := by
        have := hr c.1
        rwa [Memory.read, if_pos rfl, Memory.read, if_pos hcd] at this
      have htail : m = m' := ih m' hm hm' fun i => by
        have := hr i
        by_cases hi : i = c.1
        · rw [hi, Memory.read_of_lt zero m c.1 hlt, Memory.read_of_lt zero m' c.1 (fun e he => hcd ▸ hlt' e he)]
        · rwa [Memory.read, if_neg hi, Memory.read, if_neg (hcd ▸ hi)] at this
      rw [htail, Prod.ext hcd hv]

end

/-- A byte value is an index of FT and of CT. -/
theorem byte_lt (v : Byte) : v.toNat < Config.nsymMax := v.isLt

/-- FT: a read after a write (R68). -/
theorem ftRead_ftWrite (m : Memory (BitVec 31)) (v u : Byte) (c : BitVec 31)
    (h : Memory.wf 0 Config.nsymMax m = true) : ftRead (ftWrite m v c) u = if u = v then c else ftRead m u := by
  by_cases huv : u = v
  · subst huv
    simpa [ftRead, ftWrite] using Memory.read_write_same 0 Config.nsymMax m u.toNat c h
  · have : u.toNat ≠ v.toNat := fun e => huv (BitVec.eq_of_toNat_eq e)
    simpa [ftRead, ftWrite, huv] using Memory.read_write_other 0 m v.toNat u.toNat c this

/-- FT: a write keeps the form. -/
theorem ftWrite_wf (m : Memory (BitVec 31)) (v : Byte) (c : BitVec 31) (h : Memory.wf 0 Config.nsymMax m = true) :
    Memory.wf 0 Config.nsymMax (ftWrite m v c) = true :=
  Memory.wf_write 0 _ m _ c h (byte_lt v)

/-- NM: a read after a write of an entry that exists (R68). -/
theorem nmRead_nmWrite (m : Memory NodeRec) (i k : Nat) (x : NodeRec)
    (h : Memory.wf NodeRec.zero Config.nodeMax m = true) (hi : i < Config.nodeMax) :
    nmRead (nmWrite m i x) k = if k = i then x else nmRead m k := by
  by_cases hk : k = i
  · subst hk
    simpa [nmRead, nmWrite, hi] using Memory.read_write_same NodeRec.zero Config.nodeMax m k x h
  · simp only [nmRead, nmWrite, hk, if_false, Memory.read_write_other NodeRec.zero m i k x hk]

/-- NM: a write of an entry that exists keeps the form. -/
theorem nmWrite_wf (m : Memory NodeRec) (i : Nat) (x : NodeRec) (h : Memory.wf NodeRec.zero Config.nodeMax m = true)
    (hi : i < Config.nodeMax) : Memory.wf NodeRec.zero Config.nodeMax (nmWrite m i x) = true :=
  Memory.wf_write NodeRec.zero _ m i x h hi

/-- CT: a read after a write (R68). -/
theorem ctRead_ctWrite (m : Memory CodeEntry) (v u : Byte) (e : CodeEntry)
    (h : Memory.wf CodeEntry.zero Config.nsymMax m = true) :
    ctRead (ctWrite m v e) u = if u = v then e else ctRead m u := by
  by_cases huv : u = v
  · subst huv
    simpa [ctRead, ctWrite] using Memory.read_write_same CodeEntry.zero Config.nsymMax m u.toNat e h
  · have : u.toNat ≠ v.toNat := fun e => huv (BitVec.eq_of_toNat_eq e)
    simpa [ctRead, ctWrite, huv] using Memory.read_write_other CodeEntry.zero m v.toNat u.toNat e this

/-- CT: a write keeps the form. -/
theorem ctWrite_wf (m : Memory CodeEntry) (v : Byte) (e : CodeEntry)
    (h : Memory.wf CodeEntry.zero Config.nsymMax m = true) :
    Memory.wf CodeEntry.zero Config.nsymMax (ctWrite m v e) = true :=
  Memory.wf_write CodeEntry.zero _ m _ e h (byte_lt v)

/-- The memories of the reset state are in canonical form (R40). -/
theorem reset_memories_wf :
    Memory.wf 0 Config.nsymMax State.reset.ft = true ∧ Memory.wf NodeRec.zero Config.nodeMax State.reset.nm = true ∧
      Memory.wf CodeEntry.zero Config.nsymMax State.reset.ct = true := by
  simp [State.reset]

@[simp] theorem ftRead_nil (v : Byte) : ftRead [] v = 0 := rfl

@[simp] theorem nmRead_nil (i : Nat) : nmRead [] i = NodeRec.zero := by simp [nmRead]

@[simp] theorem ctRead_nil (v : Byte) : ctRead [] v = CodeEntry.zero := rfl

end Sys2Proof.Machine
end

