-- ==== Sys2Proof/Laws/Operands.lean ====
section
/-! SUPPORT. Bit strings in words: what `leftAlign`, `leftBits`, `byteBits` and `symbols` hold, and that the block's
operand check is the well-formedness of the command. -/

namespace Sys2Proof.Machine

/-- Every byte value is in `symbols`. -/
@[simp] theorem mem_symbols (v : Byte) : v ∈ symbols := by
  refine List.mem_map.2 ⟨v.toNat, List.mem_range.2 v.isLt, ?_⟩
  simp

/-- `symbols` lists each byte value once. -/
theorem symbols_nodup : symbols.Nodup := by
  refine (List.nodup_map_iff_inj_on List.nodup_range).2 fun a ha b hb h => ?_
  have := congrArg BitVec.toNat h
  simp only [List.mem_range] at ha hb
  simpa [BitVec.toNat_ofNat, Nat.mod_eq_of_lt ha, Nat.mod_eq_of_lt hb] using this

@[simp] theorem symbols_length : symbols.length = 256 := by simp [symbols]

@[simp] theorem byteBits_length (p : Byte) : (byteBits p).length = 8 := by simp [byteBits]

/-- Bit `k` of a byte's bit string is its bit `7 - k` (R61). -/
theorem byteBits_getElem (p : Byte) (k : Nat) (h : k < 8) :
    (byteBits p)[k]'(by simpa using h) = p.getLsbD (7 - k) := by
  simp [byteBits]

@[simp] theorem leftBits_length (len : BitVec 8) (w : BitVec 255) : (leftBits len w).length = len.toNat := by
  simp [leftBits]

/-- Bit `k` of a left-aligned string is bit `254 - k` of the word (R32, R35). -/
theorem leftBits_getElem (len : BitVec 8) (w : BitVec 255) (k : Nat) (h : k < len.toNat) :
    (leftBits len w)[k]'(by simpa using h) = w.getLsbD (254 - k) := by
  simp [leftBits]

/-- No bits at all are the empty string. -/
@[simp] theorem leftBits_zero (w : BitVec 255) : leftBits 0 w = [] := rfl

@[simp] theorem leftAlign_nil : leftAlign [] = 0 := rfl

/-- `W[254 - k] = c[k]` for `k < |c|`, and 0 elsewhere (R140). -/
theorem leftAlign_getLsbD (c : BitString) (k : Nat) (h : k < 255) :
    (leftAlign c).getLsbD (254 - k) = c.getD k false := by
  induction c generalizing k with
  | nil => simp
  | cons b c ih =>
    rw [leftAlign, BitVec.getLsbD_or, BitVec.getLsbD_ushiftRight]
    cases k with
    | zero =>
      rw [BitVec.getLsbD_of_ge _ (1 + (254 - 0)) (by omega)]
      cases b <;> simp
    | succ k =>
      have hk : 1 + (254 - (k + 1)) = 254 - k := by omega
      have hz : (if b then 1#255 <<< 254 else 0).getLsbD (254 - (k + 1)) = false := by
        cases b
        · simp
        · simp only [if_true, BitVec.getLsbD_shiftLeft]
          have h2 : 254 - (k + 1) < 254 := by omega
          rw [decide_eq_true h2, Bool.not_true, Bool.and_false, Bool.false_and]
      rw [hz, hk, ih k (by omega)]
      simp

/-- A bit string of at most 255 bits is read back from the word it is left-aligned in (R32, R35). -/
theorem leftBits_leftAlign (c : BitString) (h : c.length ≤ 255) :
    leftBits (BitVec.ofNat 8 c.length) (leftAlign c) = c := by
  have hl : (BitVec.ofNat 8 c.length).toNat = c.length := by
    rw [BitVec.toNat_ofNat, Nat.mod_eq_of_lt (by omega)]
  refine List.ext_getElem (by simp [hl]) fun k h1 h2 => ?_
  rw [leftBits_getElem _ _ k (by omega), leftAlign_getLsbD c k (by omega)]
  simp [h2]

/-- The bits of the entry `set_code` writes (R140). -/
theorem CodeEntry.bits_ofBits (c : BitString) (h : c.length ≤ 255) : (CodeEntry.ofBits c).bits = c :=
  leftBits_leftAlign c h

/-- The candidate is the string last written (R32). -/
theorem State.candidate_setCandidate (s : State) (c : BitString) (h : c.length ≤ 255) :
    (s.setCandidate c).candidate = c :=
  leftBits_leftAlign c h

@[simp] theorem State.candidate_length (s : State) : s.candidate.length = s.clen.toNat := leftBits_length _ _

/-- The block's operand check accepts exactly the well-formed commands (R82). -/
theorem operandOk_eq_wellFormed (i : Instr) : operandOk i = i.wellFormed := by
  cases i with
  | rds r =>
    have : (r = 0x0B#8) ↔ r.toNat = 0x0B := by rw [← BitVec.toNat_inj]; rfl
    simp only [operandOk, Instr.wellFormed, BitVec.lt_def, ne_eq, this]
    rw [← Bool.decide_and]
    exact decide_eq_decide.2 (and_congr_left' Nat.lt_succ_iff)
  | ftw v c =>
    refine decide_eq_decide.2 ?_
    rw [BitVec.lt_def]
    exact Nat.lt_succ_iff
  | setn sym n =>
    have h : n.getLsbD 63 = decide (2 ^ 63 ≤ n.toNat) := BitVec.getLsbD_last n
    simp only [operandOk, Instr.wellFormed, h, Config.sizeMax, ← decide_not]
    exact decide_eq_decide.2 (by omega)
  | _ => rfl

end Sys2Proof.Machine
end

