-- ==== Sys2Proof/Laws/State.lean ====
section
/-! SUPPORT. One lemma per field per update of the state, so that no proof unfolds a record update. -/

namespace Sys2Proof.Machine

section
variable (s : State) (st : Status) (d : BitVec 64) (b : Byte) (c : BitString) (op sym : BitVec 8) (w : CmdWord)
  (l : List HostInput)

@[simp] theorem State.respond_ph : (s.respond st d).ph = s.ph := rfl
@[simp] theorem State.respond_err : (s.respond st d).err = s.err := rfl
@[simp] theorem State.respond_errcmd : (s.respond st d).errcmd = s.errcmd := rfl
@[simp] theorem State.respond_n : (s.respond st d).n = s.n := rfl
@[simp] theorem State.respond_nsym : (s.respond st d).nsym = s.nsym := rfl
@[simp] theorem State.respond_root : (s.respond st d).root = s.root := rfl
@[simp] theorem State.respond_nint : (s.respond st d).nint = s.nint := rfl
@[simp] theorem State.respond_outcnt : (s.respond st d).outcnt = s.outcnt := rfl
@[simp] theorem State.respond_pacc : (s.respond st d).pacc = s.pacc := rfl
@[simp] theorem State.respond_pcnt : (s.respond st d).pcnt = s.pcnt := rfl
@[simp] theorem State.respond_clen : (s.respond st d).clen = s.clen := rfl
@[simp] theorem State.respond_cbits : (s.respond st d).cbits = s.cbits := rfl
@[simp] theorem State.respond_ft : (s.respond st d).ft = s.ft := rfl
@[simp] theorem State.respond_nm : (s.respond st d).nm = s.nm := rfl
@[simp] theorem State.respond_ct : (s.respond st d).ct = s.ct := rfl
@[simp] theorem State.respond_out : (s.respond st d).out = s.out := rfl
@[simp] theorem State.respond_input : (s.respond st d).input = s.input := rfl
@[simp] theorem State.respond_rsps : (s.respond st d).rsps = s.rsps ++ [⟨st, d⟩] := rfl

@[simp] theorem State.emit_ph : (s.emit b).ph = s.ph := rfl
@[simp] theorem State.emit_err : (s.emit b).err = s.err := rfl
@[simp] theorem State.emit_errcmd : (s.emit b).errcmd = s.errcmd := rfl
@[simp] theorem State.emit_n : (s.emit b).n = s.n := rfl
@[simp] theorem State.emit_nsym : (s.emit b).nsym = s.nsym := rfl
@[simp] theorem State.emit_root : (s.emit b).root = s.root := rfl
@[simp] theorem State.emit_nint : (s.emit b).nint = s.nint := rfl
@[simp] theorem State.emit_outcnt : (s.emit b).outcnt = s.outcnt + 1 := rfl
@[simp] theorem State.emit_pacc : (s.emit b).pacc = s.pacc := rfl
@[simp] theorem State.emit_pcnt : (s.emit b).pcnt = s.pcnt := rfl
@[simp] theorem State.emit_clen : (s.emit b).clen = s.clen := rfl
@[simp] theorem State.emit_cbits : (s.emit b).cbits = s.cbits := rfl
@[simp] theorem State.emit_ft : (s.emit b).ft = s.ft := rfl
@[simp] theorem State.emit_nm : (s.emit b).nm = s.nm := rfl
@[simp] theorem State.emit_ct : (s.emit b).ct = s.ct := rfl
@[simp] theorem State.emit_out : (s.emit b).out = s.out ++ [b] := rfl
@[simp] theorem State.emit_input : (s.emit b).input = s.input := rfl
@[simp] theorem State.emit_rsps : (s.emit b).rsps = s.rsps := rfl

@[simp] theorem State.setCandidate_ph : (s.setCandidate c).ph = s.ph := rfl
@[simp] theorem State.setCandidate_err : (s.setCandidate c).err = s.err := rfl
@[simp] theorem State.setCandidate_errcmd : (s.setCandidate c).errcmd = s.errcmd := rfl
@[simp] theorem State.setCandidate_n : (s.setCandidate c).n = s.n := rfl
@[simp] theorem State.setCandidate_nsym : (s.setCandidate c).nsym = s.nsym := rfl
@[simp] theorem State.setCandidate_root : (s.setCandidate c).root = s.root := rfl
@[simp] theorem State.setCandidate_nint : (s.setCandidate c).nint = s.nint := rfl
@[simp] theorem State.setCandidate_outcnt : (s.setCandidate c).outcnt = s.outcnt := rfl
@[simp] theorem State.setCandidate_pacc : (s.setCandidate c).pacc = s.pacc := rfl
@[simp] theorem State.setCandidate_pcnt : (s.setCandidate c).pcnt = s.pcnt := rfl
@[simp] theorem State.setCandidate_clen : (s.setCandidate c).clen = BitVec.ofNat 8 c.length := rfl
@[simp] theorem State.setCandidate_cbits : (s.setCandidate c).cbits = leftAlign c := rfl
@[simp] theorem State.setCandidate_ft : (s.setCandidate c).ft = s.ft := rfl
@[simp] theorem State.setCandidate_nm : (s.setCandidate c).nm = s.nm := rfl
@[simp] theorem State.setCandidate_ct : (s.setCandidate c).ct = s.ct := rfl
@[simp] theorem State.setCandidate_out : (s.setCandidate c).out = s.out := rfl
@[simp] theorem State.setCandidate_input : (s.setCandidate c).input = s.input := rfl
@[simp] theorem State.setCandidate_rsps : (s.setCandidate c).rsps = s.rsps := rfl

@[simp] theorem State.clear_ph : (s.clear).ph = .load := rfl
@[simp] theorem State.clear_err : (s.clear).err = 0 := rfl
@[simp] theorem State.clear_errcmd : (s.clear).errcmd = 0 := rfl
@[simp] theorem State.clear_n : (s.clear).n = 0 := rfl
@[simp] theorem State.clear_nsym : (s.clear).nsym = 0 := rfl
@[simp] theorem State.clear_root : (s.clear).root = 0 := rfl
@[simp] theorem State.clear_nint : (s.clear).nint = 0 := rfl
@[simp] theorem State.clear_outcnt : (s.clear).outcnt = 0 := rfl
@[simp] theorem State.clear_pacc : (s.clear).pacc = 0 := rfl
@[simp] theorem State.clear_pcnt : (s.clear).pcnt = 0 := rfl
@[simp] theorem State.clear_clen : (s.clear).clen = 0 := rfl
@[simp] theorem State.clear_cbits : (s.clear).cbits = 0 := rfl
@[simp] theorem State.clear_ft : (s.clear).ft = [] := rfl
@[simp] theorem State.clear_nm : (s.clear).nm = [] := rfl
@[simp] theorem State.clear_ct : (s.clear).ct = [] := rfl
@[simp] theorem State.clear_out : (s.clear).out = s.out := rfl
@[simp] theorem State.clear_input : (s.clear).input = s.input := rfl
@[simp] theorem State.clear_rsps : (s.clear).rsps = s.rsps := rfl

@[simp] theorem State.offer_ph : (s.offer w).ph = s.ph := rfl
@[simp] theorem State.offer_err : (s.offer w).err = s.err := rfl
@[simp] theorem State.offer_errcmd : (s.offer w).errcmd = s.errcmd := rfl
@[simp] theorem State.offer_n : (s.offer w).n = s.n := rfl
@[simp] theorem State.offer_nsym : (s.offer w).nsym = s.nsym := rfl
@[simp] theorem State.offer_root : (s.offer w).root = s.root := rfl
@[simp] theorem State.offer_nint : (s.offer w).nint = s.nint := rfl
@[simp] theorem State.offer_outcnt : (s.offer w).outcnt = s.outcnt := rfl
@[simp] theorem State.offer_pacc : (s.offer w).pacc = s.pacc := rfl
@[simp] theorem State.offer_pcnt : (s.offer w).pcnt = s.pcnt := rfl
@[simp] theorem State.offer_clen : (s.offer w).clen = s.clen := rfl
@[simp] theorem State.offer_cbits : (s.offer w).cbits = s.cbits := rfl
@[simp] theorem State.offer_ft : (s.offer w).ft = s.ft := rfl
@[simp] theorem State.offer_nm : (s.offer w).nm = s.nm := rfl
@[simp] theorem State.offer_ct : (s.offer w).ct = s.ct := rfl
@[simp] theorem State.offer_out : (s.offer w).out = s.out := rfl
@[simp] theorem State.offer_input : (s.offer w).input = .command w :: s.input := rfl
@[simp] theorem State.offer_rsps : (s.offer w).rsps = s.rsps := rfl

@[simp] theorem resetKeepingInput_ph : (resetKeepingInput l).ph = .load := rfl
@[simp] theorem resetKeepingInput_err : (resetKeepingInput l).err = 0 := rfl
@[simp] theorem resetKeepingInput_errcmd : (resetKeepingInput l).errcmd = 0 := rfl
@[simp] theorem resetKeepingInput_n : (resetKeepingInput l).n = 0 := rfl
@[simp] theorem resetKeepingInput_nsym : (resetKeepingInput l).nsym = 0 := rfl
@[simp] theorem resetKeepingInput_root : (resetKeepingInput l).root = 0 := rfl
@[simp] theorem resetKeepingInput_nint : (resetKeepingInput l).nint = 0 := rfl
@[simp] theorem resetKeepingInput_outcnt : (resetKeepingInput l).outcnt = 0 := rfl
@[simp] theorem resetKeepingInput_pacc : (resetKeepingInput l).pacc = 0 := rfl
@[simp] theorem resetKeepingInput_pcnt : (resetKeepingInput l).pcnt = 0 := rfl
@[simp] theorem resetKeepingInput_clen : (resetKeepingInput l).clen = 0 := rfl
@[simp] theorem resetKeepingInput_cbits : (resetKeepingInput l).cbits = 0 := rfl
@[simp] theorem resetKeepingInput_ft : (resetKeepingInput l).ft = [] := rfl
@[simp] theorem resetKeepingInput_nm : (resetKeepingInput l).nm = [] := rfl
@[simp] theorem resetKeepingInput_ct : (resetKeepingInput l).ct = [] := rfl
@[simp] theorem resetKeepingInput_out : (resetKeepingInput l).out = [] := rfl
@[simp] theorem resetKeepingInput_input : (resetKeepingInput l).input = l := rfl
@[simp] theorem resetKeepingInput_rsps : (resetKeepingInput l).rsps = [] := rfl

/-! `raise` (R210): PH is FAULT after it, the response is `e, 0`, ERR and ERRCMD are written unless an error was latched,
and no other field changes. -/

@[simp] theorem State.raise_ph : (s.raise st op sym).ph = .fault := by
  unfold State.raise; split <;> simp_all
@[simp] theorem State.raise_rsps : (s.raise st op sym).rsps = s.rsps ++ [⟨st, 0⟩] := by
  unfold State.raise; split <;> rfl
theorem State.raise_err : (s.raise st op sym).err = if s.ph = .fault then s.err else st.code := by
  unfold State.raise; split <;> rfl
theorem State.raise_errcmd : (s.raise st op sym).errcmd = if s.ph = .fault then s.errcmd else cmdId op sym := by
  unfold State.raise; split <;> rfl
@[simp] theorem State.raise_n : (s.raise st op sym).n = s.n := by
  unfold State.raise; split <;> rfl
@[simp] theorem State.raise_nsym : (s.raise st op sym).nsym = s.nsym := by
  unfold State.raise; split <;> rfl
@[simp] theorem State.raise_root : (s.raise st op sym).root = s.root := by
  unfold State.raise; split <;> rfl
@[simp] theorem State.raise_nint : (s.raise st op sym).nint = s.nint := by
  unfold State.raise; split <;> rfl
@[simp] theorem State.raise_outcnt : (s.raise st op sym).outcnt = s.outcnt := by
  unfold State.raise; split <;> rfl
@[simp] theorem State.raise_pacc : (s.raise st op sym).pacc = s.pacc := by
  unfold State.raise; split <;> rfl
@[simp] theorem State.raise_pcnt : (s.raise st op sym).pcnt = s.pcnt := by
  unfold State.raise; split <;> rfl
@[simp] theorem State.raise_clen : (s.raise st op sym).clen = s.clen := by
  unfold State.raise; split <;> rfl
@[simp] theorem State.raise_cbits : (s.raise st op sym).cbits = s.cbits := by
  unfold State.raise; split <;> rfl
@[simp] theorem State.raise_ft : (s.raise st op sym).ft = s.ft := by
  unfold State.raise; split <;> rfl
@[simp] theorem State.raise_nm : (s.raise st op sym).nm = s.nm := by
  unfold State.raise; split <;> rfl
@[simp] theorem State.raise_ct : (s.raise st op sym).ct = s.ct := by
  unfold State.raise; split <;> rfl
@[simp] theorem State.raise_out : (s.raise st op sym).out = s.out := by
  unfold State.raise; split <;> rfl
@[simp] theorem State.raise_input : (s.raise st op sym).input = s.input := by
  unfold State.raise; split <;> rfl

/-- The candidate depends on CLEN and CBITS only. -/
@[simp] theorem State.candidate_respond : (s.respond st d).candidate = s.candidate := rfl

@[simp] theorem State.candidate_emit : (s.emit b).candidate = s.candidate := rfl

end

end Sys2Proof.Machine
end

