-- ==== Sys2Proof/Laws/Ops.lean ====
section
/-! SUPPORT. What the shared operations of Machine/Ops.lean can do, said once each, so that callers cite these lemmas and
do not unfold the operations. -/

namespace Sys2Proof.Machine

/-- Everything `execute` can do when it answers a next state (R83, R211): refuse with E_FAULTED, raise E_SEQ, raise
E_OPERAND, or run the command's own rule, each with the checks passed before it. -/
theorem execute_cases {i : Instr} {body : State → Outcome} {s t : State} (h : execute i body s = .next t) :
    (s.ph = .fault ∧ allowedInFault i = false ∧ t = s.respond .eFaulted 0) ∨
    (¬(s.ph = .fault ∧ allowedInFault i = false) ∧ legalIn i s.ph = false ∧ t = s.raise .eSeq i.opcode i.sym) ∨
    (¬(s.ph = .fault ∧ allowedInFault i = false) ∧ legalIn i s.ph = true ∧ operandOk i = false ∧
      t = s.raise .eOperand i.opcode i.sym) ∨
    (¬(s.ph = .fault ∧ allowedInFault i = false) ∧ legalIn i s.ph = true ∧ operandOk i = true ∧ body s = .next t) := by
  unfold execute at h
  split_ifs at h with h1 h2 h3
  · cases h; exact .inl ⟨h1.1, h1.2, rfl⟩
  · cases h; exact .inr (.inl ⟨h1, h2, rfl⟩)
  · cases h; exact .inr (.inr (.inl ⟨h1, by simpa using h2, h3, rfl⟩))
  · exact .inr (.inr (.inr ⟨h1, by simpa using h2, by simpa using h3, h⟩))

/-- A command outside the eight is legal in no phase that is FAULT (R23, R212). -/
theorem legalIn_fault (i : Instr) (h : legalIn i .fault = true) : allowedInFault i = true := by
  cases i <;> first | rfl | simp [legalIn] at h

/-- A legal command with a good operand runs its own rule (R83, step 5). -/
theorem execute_of_legal {i : Instr} {s : State} (body : State → Outcome) (hl : legalIn i s.ph = true)
    (ho : operandOk i = true) : execute i body s = body s := by
  have h1 : ¬(s.ph = .fault ∧ allowedInFault i = false) := fun h => by
    have := legalIn_fault i (h.1 ▸ hl)
    rw [this] at h
    exact absurd h.2 (by decide)
  simp [execute, h1, hl, ho]

/-- In phase FAULT a command outside the eight is refused (R212). -/
theorem execute_of_fault {i : Instr} {s : State} (body : State → Outcome) (hp : s.ph = .fault)
    (ha : allowedInFault i = false) : execute i body s = .next (s.respond .eFaulted 0) := by
  simp [execute, hp, ha]

/-- Out of its phases a command raises E_SEQ (R205). -/
theorem execute_of_illegal {i : Instr} {s : State} (body : State → Outcome) (hp : s.ph ≠ .fault)
    (hl : legalIn i s.ph = false) : execute i body s = .next (s.raise .eSeq i.opcode i.sym) := by
  simp [execute, hp, hl]

/-- In its phases a command with an operand out of range raises E_OPERAND (R206). -/
theorem execute_of_badOperand {i : Instr} {s : State} (body : State → Outcome) (hl : legalIn i s.ph = true)
    (ho : operandOk i = false) : execute i body s = .next (s.raise .eOperand i.opcode i.sym) := by
  have h1 : ¬(s.ph = .fault ∧ allowedInFault i = false) := fun h => by
    have := legalIn_fault i (h.1 ▸ hl)
    rw [this] at h
    exact absurd h.2 (by decide)
  simp [execute, h1, hl, ho]

/-- Everything an undefined opcode can do (R85, R204). -/
theorem undefinedCommand_cases {op sym : BitVec 8} {s t : State} (h : undefinedCommand op sym s = .next t) :
    (s.ph = .fault ∧ t = s.respond .eFaulted 0) ∨ (s.ph ≠ .fault ∧ t = s.raise .eIllegal op sym) := by
  unfold undefinedCommand at h
  split_ifs at h with h1
  · cases h; exact .inl ⟨h1, rfl⟩
  · cases h; exact .inr ⟨h1, rfl⟩

/-- `repeat k times: emit(b)` appends k copies and counts them modulo 2^64 (R66). -/
theorem State.emitRepeat_eq (b : Byte) (k : Nat) (s : State) :
    State.emitRepeat b k s =
      { s with out := s.out ++ List.replicate k b, outcnt := s.outcnt + BitVec.ofNat 64 k } := by
  induction k generalizing s with
  | zero => simp [State.emitRepeat]
  | succ k ih =>
    rw [State.emitRepeat, ih]
    simp only [State.emit, List.append_assoc, List.singleton_append, ← List.replicate_succ]
    congr 1
    rw [BitVec.add_assoc, BitVec.add_comm 1, BitVec.ofNat_add]
    rfl

/-- The three ways a step goes: idle, reset, or a command (R65, R223, R230). -/
theorem step_cases {s : State} :
    (s.input = [] ∧ step s = .next s) ∨
    (∃ w rest, s.input = .reset w :: rest ∧ step s = .next (resetKeepingInput rest)) ∨
    (∃ w rest, s.input = .command w :: rest ∧ step s = runCommand w { s with input := rest }) := by
  unfold step
  split
  · exact .inl ⟨‹_›, rfl⟩
  · exact .inr (.inl ⟨_, _, ‹_›, rfl⟩)
  · exact .inr (.inr ⟨_, _, ‹_›, rfl⟩)

end Sys2Proof.Machine
end

