-- ==== Sys2Proof/Laws/PerInstr.lean ====
section
/-! SUPPORT. Statements made per instruction, about the instruction as syntax. -/

namespace Sys2Proof.Laws.EncodedFields

/-- The word of a command has its opcode in `op`, its `sym` and its `data` in their fields, and its opcode is none of
the 238 undefined values: the decoder does not answer it as undefined (30_encoding.md R80, R84, R85). -/
def Statement (i : Instr) : Prop :=
  opField (encode i) = i.opcode ∧ symField (encode i) = i.sym ∧ dataField (encode i) = i.data ∧
    ∀ op, decode (encode i) ≠ .error (.undefinedOpcode op)

/-- The three fields of any encoded command. -/
theorem fields (i : Instr) :
    opField (encode i) = i.opcode ∧ symField (encode i) = i.sym ∧ dataField (encode i) = i.data := by
  simp [encode]

theorem nop : Statement .nop := ⟨(fields _).1, (fields _).2.1, (fields _).2.2, by simp [decode, (fields _).1, Instr.opcode]⟩
theorem clr : Statement .clr := ⟨(fields _).1, (fields _).2.1, (fields _).2.2, by simp [decode, (fields _).1, Instr.opcode]⟩
theorem rds (r : BitVec 8) : Statement (.rds r) :=
  ⟨(fields _).1, (fields _).2.1, (fields _).2.2, by simp [decode, (fields _).1, Instr.opcode]⟩
theorem ftw (v : BitVec 8) (c : BitVec 64) : Statement (.ftw v c) :=
  ⟨(fields _).1, (fields _).2.1, (fields _).2.2, by simp [decode, (fields _).1, Instr.opcode]⟩
theorem ftr (v : BitVec 8) : Statement (.ftr v) :=
  ⟨(fields _).1, (fields _).2.1, (fields _).2.2, by simp [decode, (fields _).1, Instr.opcode]⟩
theorem setn (sym : BitVec 8) (n : BitVec 64) : Statement (.setn sym n) :=
  ⟨(fields _).1, (fields _).2.1, (fields _).2.2, by simp [decode, (fields _).1, Instr.opcode]⟩
theorem build (sym : BitVec 8) : Statement (.build sym) :=
  ⟨(fields _).1, (fields _).2.1, (fields _).2.2, by simp [decode, (fields _).1, Instr.opcode]⟩
theorem ndr (i : BitVec 9) : Statement (.ndr i) :=
  ⟨(fields _).1, (fields _).2.1, (fields _).2.2, by simp [decode, (fields _).1, Instr.opcode]⟩
theorem ndw (i : BitVec 9) : Statement (.ndw i) :=
  ⟨(fields _).1, (fields _).2.1, (fields _).2.2, by simp [decode, (fields _).1, Instr.opcode]⟩
theorem gen (sym : BitVec 8) : Statement (.gen sym) :=
  ⟨(fields _).1, (fields _).2.1, (fields _).2.2, by simp [decode, (fields _).1, Instr.opcode]⟩
theorem ctl (v : BitVec 8) : Statement (.ctl v) :=
  ⟨(fields _).1, (fields _).2.1, (fields _).2.2, by simp [decode, (fields _).1, Instr.opcode]⟩
theorem ctb (v : BitVec 8) (q : BitVec 2) : Statement (.ctb v q) :=
  ⟨(fields _).1, (fields _).2.1, (fields _).2.2, by simp [decode, (fields _).1, Instr.opcode]⟩
theorem pks (sym : BitVec 8) : Statement (.pks sym) :=
  ⟨(fields _).1, (fields _).2.1, (fields _).2.2, by simp [decode, (fields _).1, Instr.opcode]⟩
theorem pkb (b : BitVec 8) : Statement (.pkb b) :=
  ⟨(fields _).1, (fields _).2.1, (fields _).2.2, by simp [decode, (fields _).1, Instr.opcode]⟩
theorem pke (sym : BitVec 8) : Statement (.pke sym) :=
  ⟨(fields _).1, (fields _).2.1, (fields _).2.2, by simp [decode, (fields _).1, Instr.opcode]⟩
theorem ups (sym : BitVec 8) : Statement (.ups sym) :=
  ⟨(fields _).1, (fields _).2.1, (fields _).2.2, by simp [decode, (fields _).1, Instr.opcode]⟩
theorem upb (p : BitVec 8) : Statement (.upb p) :=
  ⟨(fields _).1, (fields _).2.1, (fields _).2.2, by simp [decode, (fields _).1, Instr.opcode]⟩
theorem upe (sym : BitVec 8) : Statement (.upe sym) :=
  ⟨(fields _).1, (fields _).2.1, (fields _).2.2, by simp [decode, (fields _).1, Instr.opcode]⟩

end Sys2Proof.Laws.EncodedFields
end

