-- ==== Sys2Proof/Laws/Tree.lean ====
section
/-! SUPPORT. What removing a least element does, for any collection and any order (42_tree.md R123). -/

namespace Sys2Proof.Machine

section
variable {α : Type} (lt : α → α → Bool)

/-- Nothing is removed from an empty collection only. -/
theorem extractMin_eq_none (q : List α) : extractMin lt q = none ↔ q = [] := by
  cases q with
  | nil => simp [extractMin]
  | cons x xs =>
    simp only [extractMin, reduceCtorEq, iff_false]
    cases extractMin lt xs with
    | none => simp
    | some p => cases h : lt p.1 x <;> simp [h]

/-- What is removed and what is left are the collection. -/
theorem extractMin_perm {q : List α} {m : α} {rest : List α} (h : extractMin lt q = some (m, rest)) :
    (m :: rest).Perm q := by
  induction q generalizing m rest with
  | nil => simp [extractMin] at h
  | cons x xs ih =>
    simp only [extractMin] at h
    cases hx : extractMin lt xs with
    | none =>
      rw [hx] at h
      obtain ⟨rfl, rfl⟩ := by simpa using h
      rw [(extractMin_eq_none lt xs).1 hx]
    | some p =>
      have hp := ih (m := p.1) (rest := p.2) hx
      rw [hx] at h
      cases hl : lt p.1 x with
      | true =>
        obtain ⟨rfl, rfl⟩ := by simpa [hl] using h
        exact (List.Perm.swap ..).trans (hp.cons x)
      | false =>
        obtain ⟨rfl, rfl⟩ := by simpa [hl] using h
        exact hp.cons x

/-- One element fewer is left. -/
theorem extractMin_length {q : List α} {m : α} {rest : List α} (h : extractMin lt q = some (m, rest)) :
    rest.length + 1 = q.length := by
  simpa using (extractMin_perm lt h).length_eq

/-- The element removed is one that no element left sorts before, when the order is transitive and decides every
pair. -/
theorem extractMin_least (htrans : ∀ a b c, lt a b = false → lt b c = false → lt a c = false)
    (hasymm : ∀ a b, lt a b = true → lt b a = false) {q : List α} {m : α} {rest : List α}
    (h : extractMin lt q = some (m, rest)) : ∀ y ∈ rest, lt y m = false := by
  induction q generalizing m rest with
  | nil => simp [extractMin] at h
  | cons x xs ih =>
    simp only [extractMin] at h
    cases hx : extractMin lt xs with
    | none =>
      rw [hx] at h
      obtain ⟨rfl, rfl⟩ := by simpa using h
      simp
    | some p =>
      have hp := ih (m := p.1) (rest := p.2) hx
      rw [hx] at h
      cases hl : lt p.1 x with
      | true =>
        obtain ⟨rfl, rfl⟩ := by simpa [hl] using h
        intro y hy
        rcases List.mem_cons.1 hy with rfl | hy
        · exact hasymm _ _ hl
        · exact hp y hy
      | false =>
        obtain ⟨rfl, rfl⟩ := by simpa [hl] using h
        intro y hy
        rcases List.mem_cons.1 hy with rfl | hy
        · exact hl
        · exact htrans _ _ _ (hp y hy) hl

/-- Removing a least element commutes with a map that keeps the order. -/
theorem extractMin_map {β : Type} (lt' : β → β → Bool) (f : α → β) (q : List α)
    (hf : ∀ a ∈ q, ∀ b ∈ q, lt' (f a) (f b) = lt a b) :
    extractMin lt' (q.map f) = (extractMin lt q).map (fun p => (f p.1, p.2.map f)) := by
  induction q with
  | nil => simp [extractMin]
  | cons x xs ih =>
    have ih' := ih fun a ha b hb => hf a (List.mem_cons_of_mem _ ha) b (List.mem_cons_of_mem _ hb)
    simp only [List.map_cons, extractMin, ih']
    cases hx : extractMin lt xs with
    | none => simp
    | some p =>
      have hm : p.1 ∈ xs := (extractMin_perm lt hx).subset (List.mem_cons_self ..)
      have := hf p.1 (List.mem_cons_of_mem _ hm) x (List.mem_cons_self ..)
      cases hl : lt p.1 x <;> simp [this, hl]

end

end Sys2Proof.Machine
end

