-- ==== Sys2Proof/Machine/Assembler.lean ====
section
/-! DEFINITION. The assembler's notation of 30_encoding.md R88 and R89, the one the programs of 95_test_vectors.md are
written in: a line of text becomes command words, or a host flow, with the response the line says is expected. -/

namespace Sys2Proof.Machine

/-- The pieces of a line. -/
inductive Token where
  /-- a mnemonic, a status name, a number or a run of hexadecimal digits -/
  | word (cs : List Char)
  /-- a byte written as a character in single quotes -/
  | byte (b : Byte)
  /-- bytes written as characters in double quotes -/
  | bytes (bs : Bytes)
  /-- any other character -/
  | mark (c : Char)
deriving DecidableEq, Repr

/-- What a line says. -/
inductive Line where
  /-- nothing, or a comment only -/
  | blank
  /-- command words in order, and the response expected of the last (R88) -/
  | commands (ws : List CmdWord) (expected : Option Response)
  /-- `COMPRESS` (R89, R174) -/
  | compress (bs : Bytes)
  /-- `DECOMPRESS` (R89, R175) -/
  | decompress (x : Bytes)
deriving DecidableEq, Repr

/-- Which of its two operands a command's notation writes: the `sym` field, the `data` field, both or neither. -/
inductive OperandForm where
  | none
  | sym
  | data
  | symData
deriving DecidableEq, Repr

/-- The 18 commands of R88: mnemonic, opcode (R84) and the operands written. -/
def mnemonicTable : List (List Char × BitVec 8 × OperandForm) :=
  [(['N', 'O', 'P'], 0x00, .none), (['C', 'L', 'R'], 0x01, .none), (['R', 'D', 'S'], 0x02, .sym),
   (['F', 'T', 'W'], 0x10, .symData), (['F', 'T', 'R'], 0x11, .sym), (['S', 'E', 'T', 'N'], 0x12, .data),
   (['B', 'U', 'I', 'L', 'D'], 0x20, .none), (['N', 'D', 'R'], 0x21, .data), (['N', 'D', 'W'], 0x22, .data)] ++
  [(['G', 'E', 'N'], 0x30, .none), (['C', 'T', 'L'], 0x31, .sym), (['C', 'T', 'B'], 0x32, .symData),
   (['P', 'K', 'S'], 0x40, .none), (['P', 'K', 'B'], 0x41, .sym), (['P', 'K', 'E'], 0x42, .none),
   (['U', 'P', 'S'], 0x50, .none), (['U', 'P', 'B'], 0x51, .sym), (['U', 'P', 'E'], 0x52, .none)]

/-- The value of a digit, hexadecimal ones included. -/
def digitValue (c : Char) : Option Nat :=
  let n := c.toNat
  if 48 ≤ n ∧ n ≤ 57 then some (n - 48)
  else if 65 ≤ n ∧ n ≤ 70 then some (n - 55)
  else if 97 ≤ n ∧ n ≤ 102 then some (n - 87)
  else none

/-- Digits in a base, first digit most significant. -/
def digitsValue (base : Nat) : List Char → Nat → Option Nat
  | [], acc => some acc
  | c :: cs, acc =>
    match digitValue c with
    | some d => if d < base then digitsValue base cs (acc * base + d) else none
    | none => none

/-- A number: decimal, or hexadecimal after `0x` (R88). -/
def numberValue : List Char → Option Nat
  | [] => none
  | '0' :: 'x' :: [] => none
  | '0' :: 'x' :: ds => digitsValue 16 ds 0
  | ds => digitsValue 10 ds 0

/-- A number that fits a field of `w` bits. -/
def fitting (w n : Nat) : Option (BitVec w) := if n < 2 ^ w then some (BitVec.ofNat w n) else none

/-- The number a token stands for. -/
def Token.number : Token → Option Nat
  | .word cs => numberValue cs
  | .byte b => some b.toNat
  | .bytes _ => none
  | .mark _ => none

/-- The field a token stands for. -/
def Token.field (w : Nat) (t : Token) : Option (BitVec w) := t.number.bind (fitting w)

/-- The byte of a character. -/
def charByte (c : Char) : Option Byte := fitting 8 c.toNat

/-- The single quote. -/
def quoteMark : Char := Char.ofNat 39

/-- The double quote. -/
def doubleQuoteMark : Char := Char.ofNat 34

/-- The braces of `LOADT`. -/
def openBrace : Char := Char.ofNat 123

/-- See `openBrace`. -/
def closeBrace : Char := Char.ofNat 125

/-- The characters of a mnemonic, a status name or a number. -/
def isWordChar (c : Char) : Bool := c.isAlphanum || c == '_'

/-- The tokens of a line; a semicolon starts a comment (R88). `fuel` is at least the line's length plus one. -/
def tokens : Nat → List Char → Option (List Token)
  | 0, _ => none
  | _ + 1, [] => some []
  | fuel + 1, c :: cs =>
    if c = ';' then some []
    else if c = ' ' ∨ c = '\t' then tokens fuel cs
    else if c = quoteMark then
      match cs with
      | x :: y :: rest =>
        if y = quoteMark then
          match charByte x, tokens fuel rest with
          | some b, some ts => some (.byte b :: ts)
          | _, _ => none
        else none
      | _ => none
    else if c = doubleQuoteMark then
      match cs.dropWhile (· ≠ doubleQuoteMark) with
      | _ :: rest =>
        match (cs.takeWhile (· ≠ doubleQuoteMark)).mapM charByte, tokens fuel rest with
        | some bs, some ts => some (.bytes bs :: ts)
        | _, _ => none
      | [] => none
    else if isWordChar c then
      (tokens fuel (cs.dropWhile isWordChar)).map (fun ts => .word (c :: cs.takeWhile isWordChar) :: ts)
    else (tokens fuel cs).map (fun ts => .mark c :: ts)

/-- Items of one field each, separated by commas. -/
def commaFields (w : Nat) : List Token → Option (List (BitVec w))
  | [] => some []
  | [t] => (t.field w).map (fun x => [x])
  | t :: .mark ',' :: u :: rest =>
    match t.field w, commaFields w (u :: rest) with
    | some x, some xs => some (x :: xs)
    | _, _ => none
  | _ => none

/-- The tokens before a closing mark, which must end the line. -/
def upTo (close : Char) : List Token → Option (List Token)
  | [] => none
  | [t] => if t = .mark close then some [] else none
  | t :: ts => (upTo close ts).map (fun us => t :: us)

/-- The operand of PACK and UNPACK: characters in double quotes, or bytes in square brackets (R89). -/
def byteList : List Token → Option Bytes
  | [.bytes bs] => some bs
  | .mark '[' :: ts => (upTo ']' ts).bind (commaFields 8)
  | _ => none

/-- The entries of LOADT, `v:c` separated by commas (R89). -/
def tableEntries : List Token → Option (List (Byte × BitVec 64))
  | [] => some []
  | [v, .mark ':', c] =>
    match v.field 8, c.field 64 with
    | some x, some y => some [(x, y)]
    | _, _ => none
  | v :: .mark ':' :: c :: .mark ',' :: u :: rest =>
    match v.field 8, c.field 64, tableEntries (u :: rest) with
    | some x, some y, some es => some ((x, y) :: es)
    | _, _, _ => none
  | _ => none

/-- Pairs of hexadecimal digits as bytes, as 95_test_vectors.md writes a container. -/
def hexPairs : List Char → Option Bytes
  | [] => some []
  | [_] => none
  | a :: b :: rest =>
    match digitsValue 16 [a, b] 0, hexPairs rest with
    | some n, some bs => some (BitVec.ofNat 8 n :: bs)
    | _, _ => none

/-- The characters of a run of words. -/
def wordChars : List Token → Option (List Char)
  | [] => some []
  | .word cs :: ts => (wordChars ts).map (fun ds => cs ++ ds)
  | _ => none

/-- The operand of DECOMPRESS: the container's bytes, listed or in hexadecimal. -/
def containerBytes (ts : List Token) : Option Bytes :=
  match byteList ts with
  | some bs => some bs
  | none => (wordChars ts).bind hexPairs

/-- One command: 0 in every field its notation does not write (R88). -/
def commandWord (op : BitVec 8) (form : OperandForm) (ts : List Token) : Option CmdWord :=
  match form, ts with
  | .none, [] => some (cmdWord op 0 0)
  | .sym, [t] => (t.field 8).map (fun x => cmdWord op x 0)
  | .data, [t] => (t.field 64).map (fun y => cmdWord op 0 y)
  | .symData, [t, .mark ',', u] =>
    match t.field 8, u.field 64 with
    | some x, some y => some (cmdWord op x y)
    | _, _ => none
  | _, _ => none

/-- The status names of 60_exceptions.md R200, as R88 writes them after an arrow. -/
def statusOfName (cs : List Char) : Option Status :=
  if cs = ['O', 'K'] then some .ok
  else if cs = ['E', '_', 'E', 'M', 'P', 'T', 'Y'] then some .eEmpty
  else if cs = ['E', '_', 'T', 'R', 'E', 'E'] then some .eTree
  else if cs = ['E', '_', 'F', 'O', 'R', 'M', 'A', 'T'] then some .eFormat
  else if cs = ['E', '_', 'S', 'I', 'Z', 'E'] then some .eSize
  else if cs = ['E', '_', 'I', 'L', 'L', 'E', 'G', 'A', 'L'] then some .eIllegal
  else if cs = ['E', '_', 'O', 'P', 'E', 'R', 'A', 'N', 'D'] then some .eOperand
  else if cs = ['E', '_', 'S', 'E', 'Q'] then some .eSeq
  else if cs = ['E', '_', 'N', 'O', 'C', 'O', 'D', 'E'] then some .eNoCode
  else if cs = ['E', '_', 'F', 'A', 'U', 'L', 'T', 'E', 'D'] then some .eFaulted
  else none

/-- The response after the arrow, `st, d` (R88). -/
def expectedResponse : List Token → Option Response
  | [.word st, .mark ',', d] =>
    match statusOfName st, d.field 64 with
    | some x, some y => some ⟨x, y⟩
    | _, _ => none
  | _ => none

/-- The tokens before the arrow, and those after it where there is one. -/
def splitArrow : List Token → List Token × Option (List Token)
  | [] => ([], none)
  | .mark '-' :: .mark '>' :: rest => ([], some rest)
  | t :: ts => (t :: (splitArrow ts).1, (splitArrow ts).2)

/-- The words of a line that is not a host flow: a command or one of the pseudo-commands LOADT, PACK, UNPACK and
RDCODE (R89). -/
def wordsOf (m : List Char) (ts : List Token) : Option (List CmdWord) :=
  match mnemonicTable.find? (fun r => r.1 = m) with
  | some r => (commandWord r.2.1 r.2.2 ts).map (fun w => [w])
  | none =>
    if m = ['L', 'O', 'A', 'D', 'T'] then
      match ts with
      | t :: rest =>
        if t = .mark openBrace then
          ((upTo closeBrace rest).bind tableEntries).map (fun es => (loadTable es).map encode)
        else none
      | [] => none
    else if m = ['P', 'A', 'C', 'K'] then (byteList ts).map (fun bs => (packCall bs).map encode)
    else if m = ['U', 'N', 'P', 'A', 'C', 'K'] then (byteList ts).map (fun ps => (unpackCall ps).map encode)
    else if m = ['R', 'D', 'C', 'O', 'D', 'E'] then
      match ts with
      | [t] => (t.field 8).map (fun v => (readCode v).map encode)
      | _ => none
    else none

/-- The meaning of a line's tokens. -/
def lineOf : List Token → Option Line
  | [] => some .blank
  | .word m :: ts =>
    if m = ['C', 'O', 'M', 'P', 'R', 'E', 'S', 'S'] then (byteList ts).map .compress
    else if m = ['D', 'E', 'C', 'O', 'M', 'P', 'R', 'E', 'S', 'S'] then (containerBytes ts).map .decompress
    else
      match wordsOf m (splitArrow ts).1, (splitArrow ts).2 with
      | some ws, none => some (.commands ws none)
      | some ws, some rest => (expectedResponse rest).map (fun r => .commands ws (some r))
      | none, _ => none
  | _ => none

/-- Assemble one line of text. -/
def assembleLine (text : List Char) : Option Line := (tokens (text.length + 1) text).bind lineOf

/-- The lines of a text. -/
def splitLines : List Char → List (List Char)
  | [] => [[]]
  | c :: cs =>
    if c = '\n' then [] :: splitLines cs
    else
      match splitLines cs with
      | l :: ls => (c :: l) :: ls
      | [] => [[c]]

/-- Assemble a program, one command per line (R88). -/
def assemble (text : List Char) : Option (List Line) := (splitLines text).mapM assembleLine

end Sys2Proof.Machine
end

