-- ==== Sys2Proof/Tests/Slice0.lean ====
section
/-! SUPPORT. Tests of the model: words written out from 30_encoding.md, the worked examples of the command rules and of
95_test_vectors.md, one step each on a small state; and for each obligation with hypotheses a state and operands that
meet them. -/

namespace Sys2Proof.Machine.Tests

/-! ### Well-formedness: an ill-formed term for each check of R82, and the largest term it accepts -/

theorem test_rds_0B_refused : (Instr.rds 0x0B).wellFormed = false ∧ (Instr.rds 0x10).wellFormed = false ∧
    (Instr.rds 0x0F).wellFormed = true := by decide

theorem test_ftw_count_refused : (Instr.ftw 0x62 0x80000000).wellFormed = false ∧
    (Instr.ftw 0x61 0x7FFFFFFF).wellFormed = true := by decide

theorem test_setn_size_refused : (Instr.setn 0 0x8000000000000000).wellFormed = false ∧
    (Instr.setn 0 0x7FFFFFFFFFFFFFFF).wellFormed = true := by decide

/-! ### Decoding: words of programs P1 to P6 and of vectors V17 to V19, one for every command -/

theorem test_decode_nop : decode 0x00000000000000000000 = .ok .nop := by decide
theorem test_decode_clr : decode 0x01000000000000000000 = .ok .clr := by decide
theorem test_decode_rds : decode 0x02070000000000000000 = .ok (.rds 7) := by decide
theorem test_decode_ftw : decode 0x10620000000080000000 = .ok (.ftw 0x62 2147483648) := by decide
theorem test_decode_ftr : decode 0x11610000000000000000 = .ok (.ftr 0x61) := by decide
theorem test_decode_setn : decode 0x1200000000000000000B = .ok (.setn 0 11) := by decide
theorem test_decode_build : decode 0x20000000000000000000 = .ok (.build 0) := by decide
theorem test_decode_ndr : decode 0x2100FFFFFFFFFFFFFE61 = .ok (.ndr 97) := by decide
theorem test_decode_ndw : decode 0x22000000000000000103 = .ok (.ndw 259) := by decide
theorem test_decode_gen : decode 0x30000000000000000000 = .ok (.gen 0) := by decide
theorem test_decode_ctl : decode 0x31620000000000000000 = .ok (.ctl 0x62) := by decide
theorem test_decode_ctb : decode 0x32620000000000000003 = .ok (.ctb 0x62 3) := by decide
theorem test_decode_pks : decode 0x40000000000000000000 = .ok (.pks 0) := by decide
theorem test_decode_pkb : decode 0x41630000000000000000 = .ok (.pkb 0x63) := by decide
theorem test_decode_pke : decode 0x42000000000000000000 = .ok (.pke 0) := by decide
theorem test_decode_ups : decode 0x50000000000000000000 = .ok (.ups 0) := by decide
theorem test_decode_upb : decode 0x51DC0000000000000000 = .ok (.upb 0xDC) := by decide
theorem test_decode_upe : decode 0x52000000000000000000 = .ok (.upe 0) := by decide
theorem test_decode_undefined : decode 0x03AB0000000000000000 = .error (.undefinedOpcode 0x03) ∧
    decode 0x77120000000000000005 = .error (.undefinedOpcode 0x77) := by decide
theorem test_encode_ftw : encode (.ftw 0x61 3) = 0x10610000000000000003 := by decide
theorem test_encode_ctb : encode (.ctb 0x62 1) = 0x32620000000000000001 := by decide
theorem test_decodeTableWord : decodeTableWord 80 0x02000000000000000000 = some (.rds 0) := by decide

/-! ### The assembler's notation: a line of P1, and a pseudo-command as R89 expands it -/

theorem test_assemble_ftw : assembleLine "FTW 'b', 3 -> OK, 0 ; comment".toList =
    some (.commands [0x10620000000000000003] (some ⟨.ok, 0⟩)) := by decide

theorem test_assemble_pack : assembleLine "PACK [0x61, 98]".toList =
    some (.commands [0x40000000000000000000, 0x41610000000000000000, 0x41620000000000000000, 0x42000000000000000000]
      none) := by decide

/-! ### Small states, one for each phase: the table a 1, b 1, its tree (as in V1, with count 1), its codes a "0", b "1";
and the one-entry table a 5 of program P3 -/

/-- After `FTW 'a', 1; FTW 'b', 1` (V17). -/
def loadState : State := { State.reset with ft := [(97, 1), (98, 1)], nsym := 2 }

/-- After BUILD: node 256 joins the leaves of a and b. -/
def builtState : State :=
  { loadState with
    ph := .built
    nm := [(97, NodeRec.ofLeaf 97 1), (98, NodeRec.ofLeaf 98 1), (256, ⟨true, .internal, 2, 97, 97, 98⟩)]
    root := 256, nint := 1 }

/-- After GEN. -/
def codedState : State := { builtState with ph := .coded, ct := [(97, ⟨1, 0⟩), (98, ⟨1, 1#255 <<< 254⟩)] }

/-- Seven bits packed, as before the fourth PKB of program P2: PACC 0x37, PCNT 7. -/
def packState : State := { codedState with ph := .pack, pacc := 0x37, pcnt := 7 }

/-- Unpacking with N = 3 and nothing emitted. -/
def unpackState : State := { codedState with ph := .unpack, n := 3 }

/-- The same call when all three bytes have been emitted. -/
def unpackFull : State := { unpackState with outcnt := 3, out := [97, 97, 97] }

/-- A call that ended without error. -/
def doneState : State := { codedState with ph := .done }

/-- After `BUILD -> E_TREE` from reset (V18). -/
def faultState : State := { State.reset with ph := .fault, err := 0x02, errcmd := 0x2000 }

/-- The table a 5. -/
def oneLoad : State := { State.reset with ft := [(97, 5)], nsym := 1, n := 5 }
def oneBuilt : State := { oneLoad with ph := .built, nm := [(97, NodeRec.ofLeaf 97 5)], root := 97 }
def oneCoded : State := { oneBuilt with ph := .coded, ct := [(97, ⟨1, 0⟩)] }

/-- A tree whose code b is "110" (program P2). -/
def p2Codes : State := { codedState with ct := [(97, ⟨1, 0⟩), (98, ⟨3, 6#255 <<< 252⟩), (114, ⟨3, 7#255 <<< 252⟩)] }

/-- What a command does to a state, read through `f`; `none` when the model stops. -/
def after {α : Type} (i : Instr) (s : State) (f : State → α) : Option α :=
  match exec i s with
  | .next t => some (f t)
  | .fault _ => none
  | .refused _ => none

/-- The last response of a state. -/
def last (s : State) : Option Response := s.rsps.getLast?

/-! ### One step each -/

theorem test_nop : after .nop faultState last = some (some ⟨.ok, 0⟩) := by decide
theorem test_clr : after .clr unpackFull (fun t => (t.ph, t.n, t.ft, t.out)) = some (.load, 0, [], [97, 97, 97]) := by
  decide
theorem test_rds_phase : after (.rds 0) faultState last = some (some ⟨.ok, 7⟩) := by decide
/-- V16: the candidate "11" reads 0xC000000000000000. -/
theorem test_rds_cand0 : after (.rds 0x0C) (unpackState.setCandidate [true, true]) last =
    some (some ⟨.ok, 0xC000000000000000⟩) := by decide +kernel
/-- R110's example, the second FTW. -/
theorem test_ftw_zero_removes : after (.ftw 97 0) loadState (fun t => (t.ft, t.nsym)) = some ([(98, 1)], 1) := by decide
/-- V17. -/
theorem test_ftw_large : after (.ftw 98 0x80000000) State.reset (fun t => (t.err, t.errcmd, t.ft)) =
    some (0x11, 0x1062, []) := by decide
theorem test_ftr : after (.ftr 97) oneLoad last = some (some ⟨.ok, 5⟩) := by decide
theorem test_setn : after (.setn 0 11) State.reset (fun t => t.n) = some 11 := by decide
theorem test_setn_negative : after (.setn 0 0x8000000000000000) State.reset (fun t => (t.err, t.errcmd)) =
    some (0x11, 0x1200) := by decide
theorem test_build : after (.build 0) loadState (fun t => (t.nm, t.root, t.nint, t.ph)) =
    some (builtState.nm, 256, 1, .built) := by decide +kernel
theorem test_build_empty : after (.build 0) State.reset (fun t => (t.err, t.errcmd, t.ph)) =
    some (0x02, 0x2000, .fault) := by decide
/-- R124's example. -/
theorem test_ndr : after (.ndr 256) builtState last = some (some ⟨.ok, 0x3118587⟩) ∧
    after (.ndr 511) builtState last = some (some ⟨.ok, 0⟩) := by decide
theorem test_ndw : after (.ndw 256) builtState last = some (some ⟨.ok, 2⟩) := by decide
theorem test_gen : after (.gen 0) builtState (fun t => (t.ct, t.ph)) = some (codedState.ct, .coded) := by decide +kernel
theorem test_gen_single : after (.gen 0) oneBuilt (fun t => t.ct) = some [(97, ⟨1, 0⟩)] := by decide +kernel
theorem test_ctl : after (.ctl 98) p2Codes last = some (some ⟨.ok, 3⟩) := by decide
/-- R145's example. -/
theorem test_ctb : after (.ctb 98 0) p2Codes last = some (some ⟨.ok, 0xC000000000000000⟩) ∧
    after (.ctb 98 1) p2Codes last = some (some ⟨.ok, 0⟩) := by decide +kernel
theorem test_pks : after (.pks 0) codedState (fun t => t.ph) = some .pack := by decide
/-- R151's example: PKB 'a' at PACC 0x37, PCNT 7 emits 0x6E. -/
theorem test_pkb : after (.pkb 97) packState (fun t => (t.out, t.pacc, t.pcnt, t.outcnt)) =
    some ([0x6E], 0, 0, 1) := by decide +kernel
theorem test_pkb_no_code : after (.pkb 99) packState (fun t => (t.err, t.errcmd, t.pacc)) =
    some (0x13, 0x4163, 0x37) := by decide
/-- R152's example: PACC 0x6E, PCNT 7 flushes 0xDC. -/
theorem test_pke : after (.pke 0) { packState with pacc := 0x6E } (fun t => (t.out, t.ph)) =
    some ([0xDC], .done) := by decide
/-- Program P3. -/
theorem test_ups_single : after (.ups 0) oneCoded (fun t => (t.out, t.outcnt)) =
    some ([97, 97, 97, 97, 97], 5) := by decide +kernel
theorem test_ups : after (.ups 0) codedState (fun t => (t.out, t.ph)) = some ([], .unpack) := by decide
/-- Bits 0, 1, 1 give a, b, b, and then N = 3 is reached. -/
theorem test_upb : after (.upb 0x7F) unpackState (fun t => (t.out, t.outcnt, t.clen)) =
    some ([97, 98, 98], 3, 0) := by decide +kernel
/-- The byte of V16 whose bits 110 110 11 leave the candidate "11". -/
theorem test_upb_candidate : after (.upb 0xDB) { p2Codes with ph := .unpack, n := 3 }
    (fun t => (t.out, t.candidate)) = some ([98, 98], [true, true]) := by decide +kernel
theorem test_upe_short : after (.upe 0) unpackState (fun t => (t.err, t.errcmd, t.ph)) =
    some (0x04, 0x5200, .fault) := by decide
theorem test_upe : after (.upe 0) unpackFull (fun t => t.ph) = some .done := by decide

/-- V17, priority: FTW of a count too large after BUILD is E_SEQ. -/
theorem test_priority : after (.ftw 99 0x80000000) builtState last = some (some ⟨.eSeq, 0⟩) := by decide

/-- P5: an undefined opcode in FAULT is E_FAULTED, and from reset E_ILLEGAL with ERRCMD 0x03AB. -/
theorem test_undefined :
    (match step (faultState.withFetchWord 80 0x77120000000000000005) with
      | .next t => last t | _ => none) = some ⟨.eFaulted, 0⟩ ∧
    (match step (State.reset.withFetchWord 80 0x03AB0000000000000000) with
      | .next t => some (t.err, t.errcmd) | _ => none) = some (0x10, 0x03AB) := by decide

/-- R81: a response as its 72-bit word. -/
theorem test_response_word : Response.word ⟨.eSize, 0⟩ = 0x040000000000000000 ∧
    Response.word ⟨.ok, 0x3118587⟩ = 0x000000000003118587 := by decide

/-! ### Order and payload values -/

/-- V4, the tie that rule 4 settles: equal weights, minleaf 0x61 before 0x63. -/
theorem test_key_rule4 : (NodeRec.mk true .internal 4 0x61 101 256).key < (NodeRec.mk true .internal 4 0x63 99 100).key := by
  decide
/-- V4, rule 2: a leaf before an internal node of equal weight whatever the minleaf. -/
theorem test_key_rule2 : (NodeRec.ofLeaf 0x65 2).key < (NodeRec.mk true .internal 2 0x61 97 98).key := by decide
/-- V4: the bits of "abccddee". -/
theorem test_toBytes : toBytes [false, true, false, false, true, true, true, false, true, false, true, true, true, true,
    false, false, false, false] = [0x4E, 0xBC, 0x00] := by decide
/-- V20: the container of "ababab" parses to its fields. -/
theorem test_parse : parseContainer [0x48, 0x46, 0x5A, 0x31, 0, 0, 0, 0, 0, 0, 0, 6, 0, 0, 0, 2, 0x61, 0, 0, 0, 3, 0x62,
    0, 0, 0, 3, 0x54] = .ok ⟨6, [(0x61, 3), (0x62, 3)], [0x54]⟩ := by decide
/-- V10: "HFZ2". -/
theorem test_parse_magic : parseContainer [0x48, 0x46, 0x5A, 0x32, 0, 0, 0, 0, 0, 0, 0, 0, 0, 0, 0, 0] =
    .error .invalidFormat := by decide

/-! ### The invariants hold in the small states -/

/-- Past the listed entries a memory reads as zero. -/
theorem nmRead_past (m : Memory NodeRec) (b : Nat) (h : ∀ c ∈ m, c.1 < b) (i : Nat) (hi : b ≤ i) :
    nmRead m i = NodeRec.zero := by
  have hr : Memory.read NodeRec.zero m i = NodeRec.zero := by
    induction m with
    | nil => rfl
    | cons c m ih =>
      have hc := h c (List.mem_cons_self ..)
      rw [Memory.read, if_neg (by omega)]
      exact ih fun d hd => h d (List.mem_cons_of_mem _ hd)
  simp [nmRead, hr]

theorem loadState_origin : loadState.CameFrom .load := by constructor <;> decide +kernel
theorem loadState_control : loadState.ControlInv := by
  constructor <;> first | exact ⟨_, loadState_origin⟩ | decide +kernel
theorem builtState_origin : builtState.CameFrom .built := by constructor <;> decide +kernel
theorem builtState_control : builtState.ControlInv := by
  constructor <;> first | exact ⟨_, builtState_origin⟩ | decide +kernel
theorem codedState_origin : codedState.CameFrom .coded := by constructor <;> decide +kernel
theorem codedState_control : codedState.ControlInv := by
  constructor <;> first | exact ⟨_, codedState_origin⟩ | decide +kernel
theorem unpackState_origin : unpackState.CameFrom .unpack := by constructor <;> decide +kernel
theorem unpackState_control : unpackState.ControlInv := by
  constructor <;> first | exact ⟨_, unpackState_origin⟩ | decide +kernel
theorem oneBuilt_origin : oneBuilt.CameFrom .built := by constructor <;> decide +kernel
theorem oneBuilt_control : oneBuilt.ControlInv := by
  constructor <;> first | exact ⟨_, oneBuilt_origin⟩ | decide +kernel

theorem builtState_tree_held : builtState.TreeHeld where
  someSymbol := by decide
  mergeCount := by decide
  leafSlots := by decide +kernel
  internalSlots := by decide +kernel
  restZero := nmRead_past _ _ (by decide +kernel)
  rootValid := by decide
  treeRead := by decide +kernel
  treeSpec := by decide +kernel

theorem oneBuilt_tree_held : oneBuilt.TreeHeld where
  someSymbol := by decide
  mergeCount := by decide
  leafSlots := by decide +kernel
  internalSlots := by decide +kernel
  restZero := nmRead_past _ _ (by decide +kernel)
  rootValid := by decide
  treeRead := by decide +kernel
  treeSpec := by decide +kernel

/-- The codes of `codedState` are those of its tree. -/
theorem codedState_codes_spec (t : Tree) (ht : codedState.tree = some t) (v : Byte) :
    (codesOf codedState.ct).lookup v = t.codes.lookup v := by
  have h : codedState.tree = some (.internal 2 (.leaf 97 1) (.leaf 98 1)) := by decide +kernel
  obtain rfl : Tree.internal 2 (.leaf 97 1) (.leaf 98 1) = t := by simpa using h.symm.trans ht
  revert v
  decide +kernel

theorem codedState_inv : codedState.Inv where
  control := codedState_control
  tree := fun _ => { builtState_tree_held with }
  codes := fun _ => ⟨.inr (.inl rfl), by decide +kernel, codedState_codes_spec, by decide +kernel⟩
  candidate := ⟨by decide +kernel, by decide, .inl (by decide)⟩

theorem unpackState_inv : unpackState.Inv where
  control := unpackState_control
  tree := fun _ => { builtState_tree_held with }
  codes := fun _ => ⟨.inr (.inr (.inr (.inl rfl))), by decide +kernel, codedState_codes_spec, by decide +kernel⟩
  candidate := ⟨by decide +kernel, by decide, .inl (by decide)⟩

/-! ### For each obligation with hypotheses, a state and operands that meet them; for several clauses, one each -/

theorem witness_DecodeReadsUsedBitsOnly :
    decode 0x2100FFFFFFFFFFFFFE61 = .ok (.ndr 97) ∧
    (0x21000000000000000061 : CmdWord) &&& (Instr.ndr 97).usedMask =
      0x2100FFFFFFFFFFFFFE61 &&& (Instr.ndr 97).usedMask := by decide

theorem witness_StepRunsTheOfferedCommand :
    State.reset.input = [] ∧ (State.reset.offer 0).input = .command 0 :: [] ∧ decode 0 = .ok .nop ∧
    decode 0xFF000000000000000000 = .error (.undefinedOpcode 0xFF) := by decide

theorem witness_OneResponsePerCommand :
    (State.reset.offer 0).input = .command 0 :: [] ∧
    step (State.reset.offer 0) = .next (State.reset.respond .ok 0) ∧ isRead .nop = false := ⟨rfl, rfl, rfl⟩

theorem witness_RstGivesResetState :
    ({ packState with input := [.reset (some 0)] } : State).input = .reset (some 0) :: [] := rfl

theorem witness_OperandOutOfRangeRaises :
    loadState.ph = .load ∧ 2 ^ 31 - 1 < (0x80000000 : BitVec 64).toNat ∧ codedState.ph = .coded ∧
    2 ^ 63 - 1 < (0x8000000000000000 : BitVec 64).toNat ∧ 0x10 ≤ (0x10 : BitVec 8).toNat ∧ codedState.ph ≠ .fault ∧
    faultState.ph = .fault := by decide

theorem witness_FtwStoresCount :
    Memory.wf 0 Config.nsymMax loadState.ft = true ∧ loadState.ph = .load ∧
    (0x7FFFFFFF : BitVec 64).toNat ≤ 2 ^ 31 - 1 := by decide

theorem witness_SetnWritesSize :
    codedState.ph = .coded ∧ (0x7FFFFFFFFFFFFFFF : BitVec 64).getLsbD 63 = false ∧
    (0x8000000000000000 : BitVec 64).getLsbD 63 = true ∧ doneState.ph = .done := by decide

/-- Two orders of one load, with one symbol written twice. -/
theorem witness_LoadOrderDoesNotMatter :
    Memory.wf 0 Config.nsymMax State.reset.ft = true ∧ State.reset.nsym.toNat = presentCount State.reset.ft ∧
    State.reset.ph = .load ∧ (∀ e ∈ ([(97, 4), (98, 1), (97, 9)] : List (Byte × BitVec 64)), e.2.toNat ≤ 2 ^ 31 - 1) ∧
    (∀ e ∈ ([(97, 9), (98, 1)] : List (Byte × BitVec 64)), e.2.toNat ≤ 2 ^ 31 - 1) :=
  ⟨by decide, by decide +kernel, rfl, by simp, by simp⟩

theorem witness_BuildOfEmptyTableRaises : State.reset.ph = .load ∧ State.reset.nsym = 0 := by decide

theorem witness_BuildMakesTheTableTree : loadState.ControlInv ∧ loadState.ph = .load ∧ loadState.nsym ≠ 0 :=
  ⟨loadState_control, rfl, by decide⟩

theorem build_loadState : exec (.build 0) loadState = .next (builtState.respond .ok 0) := by
  have h : after (.build 0) loadState id = some (builtState.respond .ok 0) := by decide +kernel
  unfold after at h
  split at h <;> simp_all

theorem witness_BuiltNodesAreWellShaped :
    loadState.ControlInv ∧ loadState.ph = .load ∧ exec (.build 0) loadState = .next (builtState.respond .ok 0) ∧
    (builtState.respond .ok 0).ph = .built ∧ 0 < (builtState.respond .ok 0).nint.toNat :=
  ⟨loadState_control, rfl, build_loadState, rfl, by decide⟩

theorem witness_BuiltTreeCoversTheTable :
    loadState.ControlInv ∧ loadState.ph = .load ∧ exec (.build 0) loadState = .next (builtState.respond .ok 0) ∧
    (builtState.respond .ok 0).ph = .built ∧ (nmRead (builtState.respond .ok 0).nm 97).valid = true ∧
    97 ≠ (builtState.respond .ok 0).root.toNat ∧ 0 < (builtState.respond .ok 0).nint.toNat :=
  ⟨loadState_control, rfl, build_loadState, rfl, by decide, by decide, by decide⟩

theorem witness_BuildDependsOnTheTableOnly :
    loadState.ControlInv ∧ loadState.ph = .load ∧ loadState.nsym ≠ 0 ∧
    ∀ v, ftRead loadState.ft v = ftRead loadState.ft v := ⟨loadState_control, rfl, by decide, fun _ => rfl⟩

theorem witness_DisjointTreesNeverTie :
    ∀ v ∈ (Tree.internal 2 (.leaf 97 1) (.leaf 98 1)).leaves, v ∉ (Tree.internal 2 (.leaf 99 1) (.leaf 100 1)).leaves := by
  decide

theorem witness_GenMakesTheTreeCodes : builtState.ControlInv ∧ builtState.TreeInv ∧ builtState.ph = .built :=
  ⟨builtState_control, fun _ => builtState_tree_held, rfl⟩

theorem witness_GenGivesSingleSymbolCodeZero :
    oneBuilt.ControlInv ∧ oneBuilt.TreeInv ∧ oneBuilt.ph = .built ∧ oneBuilt.nsym = 1 :=
  ⟨oneBuilt_control, fun _ => oneBuilt_tree_held, rfl, rfl⟩

theorem witness_CodesArePrefixFreeAndComplete :
    codedState.Inv ∧ codedState.codesMade ∧ (97 : Byte) ≠ 98 ∧ (ctRead codedState.ct 97).len ≠ 0 ∧
    (ctRead codedState.ct 98).len ≠ 0 ∧ 2 ≤ codedState.nsym.toNat :=
  ⟨codedState_inv, .inl rfl, by decide, by decide, by decide, by decide⟩

theorem witness_CodeReadsAnswerTheEntry : 64 * (0 : BitVec 2).toNat + 2 < (ctRead p2Codes.ct 98).len.toNat := by decide

theorem witness_PksStartsPacking : codedState.ph = .coded ∧ loadState.ph ≠ .coded ∧ loadState.ph ≠ .fault := by decide

theorem witness_PkbAppendsTheCode :
    packState.ph = .pack ∧ packState.pacc.toNat < 2 ^ packState.pcnt.toNat ∧ (ctRead packState.ct 97).len ≠ 0 := by
  decide

theorem witness_PkbWithoutCodeRaises : packState.ph = .pack ∧ (ctRead packState.ct 99).len = 0 := by decide

theorem witness_PkeFlushesThePartialByte :
    packState.ph = .pack ∧ packState.pacc.toNat < 2 ^ packState.pcnt.toNat ∧ packState.pcnt ≠ 0 := by decide

theorem witness_PackingASequenceEmitsItsBits :
    codedState.ph = .coded ∧ ∀ b ∈ ([97, 98, 97] : Bytes), (ctRead codedState.ct b).len ≠ 0 := by decide

theorem witness_PayloadBitOrderIsMsbFirst :
    0 < [true].length ∧ [true].length ≤ 7 ∧ 7 < 8 * (toBytes [true]).length := by decide

theorem witness_UpsStartsUnpacking :
    codedState.ph = .coded ∧ codedState.nsym ≠ 1 ∧ oneCoded.ph = .coded ∧ oneCoded.nsym = 1 ∧
    loadState.ph ≠ .coded ∧ loadState.ph ≠ .fault := by decide

theorem witness_UpbDecodesOneByte : unpackState.Inv ∧ unpackState.ph = .unpack := ⟨unpackState_inv, rfl⟩

theorem witness_UpbAfterLastSymbolDropsBits : unpackFull.ph = .unpack ∧ unpackFull.n ≤ unpackFull.outcnt := by decide

theorem witness_UpeChecksTheSize :
    unpackState.ph = .unpack ∧ unpackState.outcnt < unpackState.n ∧ unpackFull.ph = .unpack ∧
    unpackFull.n ≤ unpackFull.outcnt ∧ loadState.ph ≠ .unpack ∧ loadState.ph ≠ .fault := by decide

theorem witness_UnpackingAPayloadIsUnpack :
    codedState.Inv ∧ codedState.ph = .coded ∧
    (unpackValue [] (codesOf codedState.ct) codedState.n.toNat).2 = true ∧
    (unpackValue [] (codesOf codedState.ct) 1).2 = false := ⟨codedState_inv, rfl, by decide +kernel, by decide +kernel⟩

theorem witness_MatchingACodeIsWalkingTheTree : (Tree.internal 2 (.leaf 97 1) (.leaf 98 1)).leaves.Nodup := by decide

theorem witness_RoundTripThroughTheBlock :
    freq [98, 97, 98] = .ok [(97, 1), (98, 2)] ∧ ∀ e ∈ ([(97, 1), (98, 2)] : Table), e.2 ≤ 2 ^ 31 - 1 := by decide +kernel

theorem witness_UndefinedOpcodeRaises :
    (packState.offer 0x03AB0000000000000000).input = .command 0x03AB0000000000000000 :: [] ∧
    decode 0x03AB0000000000000000 = .error (.undefinedOpcode 3) ∧
    (packState.offer 0x03AB0000000000000000).ph ≠ .fault ∧ (faultState.offer 0x03AB0000000000000000).ph = .fault := by
  decide

theorem witness_OutOfPhaseCommandRaises : builtState.ph ≠ .fault ∧ legalIn (.ftw 99 0x80000000) builtState.ph = false := by
  decide

theorem witness_FaultPhaseKeepsTheState :
    faultState.ph = .fault ∧ allowedInFault (.upb 0) = false ∧ allowedInFault (.rds 0x0B) = true ∧
    Instr.rds 0x0B ≠ .clr ∧ decode 0x77120000000000000005 = .error (.undefinedOpcode 0x77) := by decide

theorem witness_next_on_success :
    exec (.ftr 97) loadState = .next (loadState.respond .ok 1) ∧
    (loadState.respond .ok 1).rsps = loadState.rsps ++ [⟨.ok, 1⟩] := ⟨rfl, rfl⟩

/-- For OutOnlyGrows, PhaseFollowsTheTable and EachStateHasItsWriters: a command that fails, and one that succeeds
(above). -/
theorem witness_next_on_failure :
    exec (.gen 0) loadState = .next (loadState.raise .eSeq 0x30 0) ∧
    (loadState.raise .eSeq 0x30 0).rsps = loadState.rsps ++ [⟨.eSeq, 0⟩] ∧ Status.eSeq ≠ .ok ∧
    loadState.ph ≠ .fault := ⟨rfl, rfl, by decide, by decide⟩

/-- For FirstApplicableErrorIsReported and FailedCommandChangesNothingElse. -/
theorem witness_FailedCommandChangesNothingElse :
    runCommand 0x30AB0000000000000000 loadState = .next (loadState.raise .eSeq 0x30 0xAB) ∧
    (loadState.raise .eSeq 0x30 0xAB).rsps = loadState.rsps ++ [⟨.eSeq, 0⟩] ∧ Status.eSeq ≠ .ok ∧
    loadState.ph ≠ .fault ∧ faultState.ph = .fault ∧
    runCommand 0x30AB0000000000000000 faultState = .next (faultState.respond .eFaulted 0) :=
  ⟨rfl, rfl, by decide, by decide, rfl, rfl⟩

/-- A FAULT entered from PACK keeps the accumulator, and one entered from LOAD has it clear. -/
theorem witness_StepTracksWhereAFaultCameFrom :
    packState.CameFrom .pack ∧
    step (packState.offer 0x03000000000000000000) = .next (packState.raise .eIllegal 0x03 0) ∧
    originAfter .pack packState (packState.raise .eIllegal 0x03 0) = .pack ∧
    (packState.raise .eIllegal 0x03 0).CameFrom .pack ∧ (packState.raise .eIllegal 0x03 0).pacc = 0x37 ∧
    faultState.CameFrom .load ∧ step faultState = .next faultState ∧ faultState.pacc = 0 :=
  ⟨by constructor <;> decide +kernel, rfl, rfl, by constructor <;> decide +kernel, rfl,
    by constructor <;> decide +kernel, rfl, rfl⟩

/-- For the clauses of EachStateHasItsWriters: CLR and a raise write ERR, BUILD writes PH and NM, UPS of one symbol OUT. -/
theorem witness_EachStateHasItsWriters :
    exec .clr faultState = .next (faultState.clear.respond .ok 0) ∧ faultState.clear.err ≠ faultState.err ∧
    loadState.raise .eSeq 0x30 0 ≠ loadState ∧ (loadState.raise .eSeq 0x30 0).errcmd ≠ loadState.errcmd ∧
    builtState.ph ≠ loadState.ph ∧ builtState.nm ≠ loadState.nm ∧ unpackFull.outcnt ≠ unpackState.outcnt := by
  exact ⟨rfl, by decide, by decide, by decide, by decide, by decide, by decide⟩

theorem witness_StepKeepsInvariants :
    unpackState.Inv ∧ step unpackState = .next unpackState := ⟨unpackState_inv, rfl⟩

theorem reset_inv_witness : (loadState.offer 0).input ≠ [] ∧ ∃ t, step (loadState.offer 0) = .next t := ⟨by decide, _, rfl⟩

theorem witness_ReachableStatesMeetTheInvariants :
    Host.Core.run core 1 { State.reset with input := [.command 0] } = .next (State.reset.respond .ok 0) := rfl

theorem witness_FrequencyModelCounts : ([97] : Bytes) ≠ [] := by decide

/-- A container cut short, one with a wrong tag, and one with each bad field. -/
theorem witness_ParserRejectsBadContainers :
    ([0x48] : Bytes).length < 16 ∧ (([0x48, 0x46, 0x5A, 0x32] ++ List.replicate 12 0 : Bytes)).take 4 ≠ [0x48, 0x46, 0x5A, 0x31] ∧
    (readBe64 ([0, 0, 0, 0] ++ List.replicate 12 0xFF) 4).toInt < 0 ∧
    (readBe32 ([0, 0, 0, 0] ++ List.replicate 12 0xFF) 12).toInt < 0 ∧
    256 < (readBe32 (List.replicate 14 0 ++ [1, 1]) 12).toInt ∧
    (List.replicate 15 0 ++ [1] : Bytes).length < 16 + 5 * (readBe32 (List.replicate 15 0 ++ [1]) 12).toNat ∧
    0 < (readBe32 (List.replicate 15 0 ++ [1, 97, 0xFF, 0, 0, 0]) 12).toNat ∧
    (readBe32 (List.replicate 15 0 ++ [1, 97, 0xFF, 0, 0, 0]) 17).toInt < 0 := by decide

theorem witness_ParserReadsWhatIsWritten :
    (⟨6, [(0x62, 3), (0x61, 3)], [0x54]⟩ : Container).originalSize.msb = false ∧
    (⟨6, [(0x62, 3), (0x61, 3)], [0x54]⟩ : Container).entries.length ≤ 256 ∧
    ∀ e ∈ (⟨6, [(0x62, 3), (0x61, 3)], [0x54]⟩ : Container).entries, e.2.msb = false :=
  ⟨by decide, by simp, by simp; decide⟩

theorem witness_CompressThenDecompressRoundTrips :
    ([98, 97, 98] : Bytes) ≠ [] ∧ ∀ v, ([98, 97, 98] : Bytes).count v ≤ 2 ^ 31 - 1 :=
  ⟨by decide, fun v => le_trans List.count_le_length (show (3 : Nat) ≤ 2147483647 by omega)⟩

end Sys2Proof.Machine.Tests
end

section
/-! PROOFS. Trees as values, their leaves, paths and codes, and the tree BUILD is specified by (42_tree.md R127,
43_codegen.md R141, 45_unpack.md R166). -/

namespace Sys2Proof.Machine

/-- A walk along two strings is the walk along the first, then along the second. -/
theorem Tree.descend_append (t : Tree) (c d : BitString) :
    t.descend (c ++ d) = (t.descend c).bind (fun u => u.descend d) := by
  induction c generalizing t with
  | nil => simp [Tree.descend]
  | cons x c ih =>
    cases t with
    | leaf v w => simp [Tree.descend]
    | internal w a b => cases x <;> simp [Tree.descend, ih]

/-- From an internal node one bit leads to a child. -/
@[simp] theorem Tree.descend_internal_singleton (w : Nat) (a b : Tree) (x : Bool) :
    (Tree.internal w a b).descend [x] = some (if x then b else a) := by
  cases x <;> simp [Tree.descend]

/-- A walk that stops short of a leaf stops at an internal node. -/
theorem Tree.descend_properPrefix {t : Tree} {c d : BitString} {v : Byte} {w : Nat}
    (hd : t.descend d = some (.leaf v w)) (hp : c <+: d) (hne : c ≠ d) :
    ∃ w' a b, t.descend c = some (.internal w' a b) := by
  obtain ⟨e, rfl⟩ := hp
  rw [Tree.descend_append] at hd
  obtain ⟨u, hu, he⟩ := Option.bind_eq_some_iff.1 hd
  cases u with
  | internal w' a b => exact ⟨w', a, b, hu⟩
  | leaf v' w' =>
    cases e with
    | nil => simp at hne
    | cons x e => simp [Tree.descend] at he

/-- The paths of a tree are the walks that end at a leaf (R141, R166). -/
theorem Tree.mem_paths (t : Tree) (p c : BitString) (v : Byte) :
    (v, c) ∈ t.paths p ↔ ∃ d w, c = p ++ d ∧ t.descend d = some (.leaf v w) := by
  induction t generalizing p with
  | leaf u w =>
    constructor
    · intro h
      obtain ⟨rfl, rfl⟩ : v = u ∧ c = p := by simpa [Tree.paths] using h
      exact ⟨[], w, by simp, by simp [Tree.descend]⟩
    · rintro ⟨d, w', rfl, h⟩
      cases d with
      | nil => simp_all [Tree.descend, Tree.paths]
      | cons x d => simp [Tree.descend] at h
  | internal w a b iha ihb =>
    simp only [Tree.paths, List.mem_append, iha, ihb]
    constructor
    · rintro (⟨d, w', rfl, h⟩ | ⟨d, w', rfl, h⟩)
      · exact ⟨false :: d, w', by simp, by simpa [Tree.descend] using h⟩
      · exact ⟨true :: d, w', by simp, by simpa [Tree.descend] using h⟩
    · rintro ⟨d, w', rfl, h⟩
      match d, h with
      | [], h => simp [Tree.descend] at h
      | false :: d, h => exact .inl ⟨d, w', by simp, by simpa [Tree.descend] using h⟩
      | true :: d, h => exact .inr ⟨d, w', by simp, by simpa [Tree.descend] using h⟩

/-- A tree has one path for each leaf. -/
theorem Tree.paths_map_fst (t : Tree) (p : BitString) : (t.paths p).map Prod.fst = t.leaves := by
  induction t generalizing p with
  | leaf v w => rfl
  | internal w a b iha ihb => simp [Tree.paths, Tree.leaves, iha, ihb]

/-- In a table of distinct keys a key is looked up to the value it stands with. -/
theorem lookup_eq_some_iff_mem {l : Codes} (hl : (l.map Prod.fst).Nodup) (v : Byte) (c : BitString) :
    l.lookup v = some c ↔ (v, c) ∈ l := by
  induction l with
  | nil => simp
  | cons e l ih =>
    obtain ⟨u, d⟩ := e
    obtain ⟨hu, hl⟩ := List.nodup_cons.1 hl
    by_cases hv : v = u
    · subst hv
      have hne : (v, c) ∉ l := fun h => hu (List.mem_map.2 ⟨_, h, rfl⟩)
      simp [hne, eq_comm]
    · have hb : (v == u) = false := by simpa using hv
      simp [List.lookup_cons, hb, ih hl, hv]

/-- With no leaf twice, the code of a symbol is the walk that ends at its leaf (R166). -/
theorem Tree.lookup_codes_iff_descend {w : Nat} {a b : Tree} (hn : (Tree.internal w a b).leaves.Nodup) (v : Byte)
    (c : BitString) : (Tree.internal w a b).codes.lookup v = some c ↔
      ∃ w', (Tree.internal w a b).descend c = some (.leaf v w') := by
  have hkeys : ((Tree.internal w a b).codes.map Prod.fst).Nodup := (Tree.paths_map_fst _ []).symm ▸ hn
  rw [lookup_eq_some_iff_mem hkeys]
  simpa [Tree.codes] using (Tree.internal w a b).mem_paths [] c v

/-- Merging loses no leaf and makes none (R127). -/
theorem mergeForest_leaves_perm {fuel : Nat} {f : List Tree} {t : Tree} (h : mergeForest fuel f = some t) :
    t.leaves.Perm (f.flatMap Tree.leaves) := by
  induction fuel generalizing f with
  | zero => simp [mergeForest] at h
  | succ fuel ih =>
    rw [mergeForest] at h
    cases ha : extractMin Tree.lt f with
    | none => simp [ha] at h
    | some p =>
      obtain ⟨a, f1⟩ := p
      have hpa := (extractMin_perm _ ha).flatMap_right Tree.leaves
      cases hb : extractMin Tree.lt f1 with
      | none =>
        obtain rfl := (extractMin_eq_none _ _).1 hb
        obtain rfl : a = t := by simpa [ha, hb] using h
        simpa using hpa
      | some p =>
        obtain ⟨b, f2⟩ := p
        have hpb := (extractMin_perm _ hb).flatMap_right Tree.leaves
        have hm := ih (by simpa [ha, hb] using h)
        simp only [List.flatMap_cons, Tree.leaves, List.append_assoc] at hm hpa hpb
        exact hm.trans ((hpb.append_left _).trans hpa)

/-- The leaves of the tree of a table are its symbols. -/
theorem buildTree_leaves_perm {T : Table} {t : Tree} (h : buildTree T = some t) : t.leaves.Perm (T.map Prod.fst) := by
  have hf : (T.map fun e => Tree.leaf e.1 e.2).flatMap Tree.leaves = T.map Prod.fst := by
    simp [List.flatMap_map, Tree.leaves, ← List.map_eq_flatMap]
  exact hf ▸ mergeForest_leaves_perm h

/-- The symbols of the table in FT are the present ones. -/
theorem tableOf_map_fst (ft : Memory (BitVec 31)) :
    (tableOf ft).map Prod.fst = symbols.filter (fun v => decide (ftRead ft v ≠ 0)) := by
  simp [tableOf, Function.comp_def]

end Sys2Proof.Machine
end

section
/-! PROOFS. The tree in node memory (10_state.md R33, R39 item 6): what reading it finds, and what GEN makes of it
(43_codegen.md R140 to R142). -/

namespace Sys2Proof.Machine

/-- The entry a tree is read from holds a node; it is read as a leaf, or with its two children. -/
theorem treeOf_succ_eq_some {nm : Memory NodeRec} {fuel i : Nat} {t : Tree} (h : treeOf nm (fuel + 1) i = some t) :
    (nmRead nm i).valid = true ∧
      (((nmRead nm i).tag = .leaf ∧ t = .leaf (nmRead nm i).ml (nmRead nm i).w.toNat) ∨
       ((nmRead nm i).tag = .internal ∧ ∃ a b, treeOf nm fuel (nmRead nm i).l.toNat = some a ∧
          treeOf nm fuel (nmRead nm i).r.toNat = some b ∧ t = .internal (nmRead nm i).w.toNat a b)) := by
  rw [treeOf] at h
  split at h
  next hv =>
    refine ⟨hv, ?_⟩
    split at h
    next htag => exact .inl ⟨htag, by simpa using h.symm⟩
    next htag =>
      split at h
      next a b ha hb => exact .inr ⟨htag, a, b, ha, hb, by simpa using h.symm⟩
      next => simp at h
  next => simp at h

/-- A tree read `fuel` nodes deep has no walk of `fuel` bits. -/
theorem treeOf_descend_length {nm : Memory NodeRec} {fuel i : Nat} {t u : Tree} {c : BitString}
    (ht : treeOf nm fuel i = some t) (hu : t.descend c = some u) : c.length < fuel := by
  induction fuel generalizing i t c with
  | zero => simp [treeOf] at ht
  | succ fuel ih =>
    cases c with
    | nil => simp
    | cons x c =>
      rw [List.length_cons, Nat.add_lt_add_iff_right]
      obtain ⟨-, ⟨-, rfl⟩ | ⟨-, a, b, ha, hb, rfl⟩⟩ := treeOf_succ_eq_some ht
      · simp [Tree.descend] at hu
      · cases x with
        | false => exact ih ha (by simpa [Tree.descend] using hu)
        | true => exact ih hb (by simpa [Tree.descend] using hu)

/-- `set_code` of every pair of a code table, in order (R140). -/
def writeCodes (ct : Memory CodeEntry) (cs : Codes) : Memory CodeEntry :=
  cs.foldl (fun ct e => ctWrite ct e.1 (CodeEntry.ofBits e.2)) ct

/-- `visit` sets the path of every leaf of the tree it walks, when the leaves are in the leaf slots and no path is
empty or too long (R140). -/
theorem visit_eq_writeCodes {nm : Memory NodeRec}
    (hleaf : ∀ i, (nmRead nm i).valid = true → (nmRead nm i).tag = .leaf →
      i < Config.nsymMax ∧ (nmRead nm i).ml = BitVec.ofNat 8 i)
    {fuel i : Nat} {t : Tree} (ht : treeOf nm fuel i = some t) {path : BitString} (ct : Memory CodeEntry)
    (hpath : (nmRead nm i).tag = .leaf → 1 ≤ path.length) (hlen : path.length + fuel ≤ Config.codeMax + 1) :
    visit nm fuel i path ct = some (writeCodes ct (t.paths path)) := by
  induction fuel generalizing i t path ct with
  | zero => simp [treeOf] at ht
  | succ fuel ih =>
    obtain ⟨hv, ⟨htag, rfl⟩ | ⟨htag, a, b, ha, hb, rfl⟩⟩ := treeOf_succ_eq_some ht
    · obtain ⟨hi, hml⟩ := hleaf i hv htag
      have hp : path.length ≤ Config.codeMax := by omega
      simp [visit, htag, setCode, hi, hpath htag, hp, Tree.paths, writeCodes, hml]
    · have hlong (x : Bool) : (path ++ [x]).length + fuel ≤ Config.codeMax + 1 := by
        rw [List.length_append, List.length_singleton]; omega
      have hleft := ih ha ct (by simp) (hlong false)
      have hright := ih hb (writeCodes ct (a.paths (path ++ [false]))) (by simp) (hlong true)
      simp only [visit, htag, hleft, hright]
      simp [Tree.paths, writeCodes]

/-- The leaves of a built tree are in the leaf slots, each under its own symbol (R33). -/
theorem State.TreeHeld.leaf_slot {s : State} (h : s.TreeHeld) (i : Nat) (hv : (nmRead s.nm i).valid = true)
    (ht : (nmRead s.nm i).tag = .leaf) : i < Config.nsymMax ∧ (nmRead s.nm i).ml = BitVec.ofNat 8 i := by
  have hi : i < 256 := by
    by_contra hge
    by_cases hk : i < Config.nodeMax
    · have hk' : i - 256 < 255 := by simp only [Config.nodeMax] at hk; omega
      have hint := (h.internalSlots (i - 256) hk').2
      rw [show Config.internalBase + (i - 256) = i by simp only [Config.internalBase]; omega] at hint
      simp [hint hv] at ht
    · simp [nmRead, hk, NodeRec.zero] at hv
  refine ⟨hi, ?_⟩
  have hslot := h.leafSlots (BitVec.ofNat 8 i)
  rw [BitVec.toNat_ofNat, Nat.mod_eq_of_lt hi] at hslot
  split at hslot
  next => simp [hslot, NodeRec.zero] at hv
  next => simp [hslot, NodeRec.ofLeaf]

/-- On a built tree GEN makes the table of the tree's codes (R140, R142). -/
theorem State.TreeHeld.generate_eq {s : State} (h : s.TreeHeld) {t : Tree} (ht : s.tree = some t) :
    generate s.nm s.root.toNat = some (writeCodes [] t.codes) := by
  obtain ⟨hv, ⟨htag, rfl⟩ | ⟨htag, a, b, -, -, rfl⟩⟩ := treeOf_succ_eq_some ht
  · obtain ⟨hi, hml⟩ := h.leaf_slot _ hv htag
    simp [generate, htag, setCode, hi, Config.codeMax, Tree.codes, writeCodes, hml]
  · simp only [generate, htag]
    exact visit_eq_writeCodes h.leaf_slot ht [] (by simp [htag]) (by simp)

/-- The leaves of a built tree are the present symbols (R129 (d)). -/
theorem State.TreeHeld.leaves_perm {s : State} (h : s.TreeHeld) {t : Tree} (ht : s.tree = some t) :
    t.leaves.Perm (symbols.filter (fun v => decide (ftRead s.ft v ≠ 0))) :=
  tableOf_map_fst s.ft ▸ buildTree_leaves_perm (h.treeSpec ▸ ht)

/-- No symbol is on two leaves of a built tree. -/
theorem State.TreeHeld.leaves_nodup {s : State} (h : s.TreeHeld) {t : Tree} (ht : s.tree = some t) : t.leaves.Nodup :=
  (h.leaves_perm ht).nodup_iff.2 (symbols_nodup.filter _)

/-- With two symbols or more the tree has an internal root. -/
theorem State.TreeHeld.tree_internal {s : State} (h : s.TreeHeld) (hc : s.nsym.toNat = presentCount s.ft)
    (h1 : s.nsym ≠ 1) : ∃ w a b, s.tree = some (.internal w a b) := by
  obtain ⟨t, ht⟩ := Option.ne_none_iff_exists'.1 h.treeRead
  cases t with
  | internal w a b => exact ⟨w, a, b, ht⟩
  | leaf v w =>
    have hlen : (1 : BitVec 9).toNat = presentCount s.ft := (h.leaves_perm ht).length_eq
    exact absurd (BitVec.eq_of_toNat_eq (hc.trans hlen.symm)) h1

end Sys2Proof.Machine
end

section
/-! PROOFS. The code table in CT (43_codegen.md R141), and the unpacker's candidate on its way down the tree
(45_unpack.md R162, R165, R166). -/

namespace Sys2Proof.Machine

/-- CT read as a value gives a symbol the code its entry holds. -/
theorem lookup_codesOf_eq_some (ct : Memory CodeEntry) (v : Byte) (c : BitString) :
    (codesOf ct).lookup v = some c ↔ (ctRead ct v).len ≠ 0 ∧ (ctRead ct v).bits = c := by
  have hkeys : ((codesOf ct).map Prod.fst).Nodup := by
    simpa [codesOf, Function.comp_def] using symbols_nodup.filter _
  rw [lookup_eq_some_iff_mem hkeys]
  simp [codesOf]

/-- With two symbols or more, CT holds a code exactly when the walk along it ends at the symbol's leaf (R166). -/
theorem State.CodesHeld.code_iff_descend {s : State} (hc : s.CodesHeld) {w : Nat} {a b : Tree}
    (ht : s.tree = some (.internal w a b)) (hn : (Tree.internal w a b).leaves.Nodup) (v : Byte) (c : BitString) :
    ((ctRead s.ct v).len ≠ 0 ∧ (ctRead s.ct v).bits = c) ↔
      ∃ w', (Tree.internal w a b).descend c = some (.leaf v w') := by
  rw [← lookup_codesOf_eq_some, hc.codesSpec _ ht, Tree.lookup_codes_iff_descend hn]

/-- No symbol is matched exactly when no code is the candidate. -/
theorem matchCode_eq_none (ct : Memory CodeEntry) (c : BitString) :
    matchCode ct c = none ↔ ∀ v, ¬((ctRead ct v).len ≠ 0 ∧ (ctRead ct v).bits = c) := by
  simp [matchCode]

/-- The unpacker on its way down the tree `t`: CT holds the walks of `t` to its leaves, which are at most 255 bits
long, and the candidate is the walk to an internal node. -/
structure State.Descending (t : Tree) (s : State) : Prop where
  codes : ∀ v c, ((ctRead s.ct v).len ≠ 0 ∧ (ctRead s.ct v).bits = c) ↔ ∃ w, t.descend c = some (.leaf v w)
  bound : ∀ c u, t.descend c = some u → c.length ≤ Config.codeMax
  atRoot : ∃ w a b, t.descend [] = some (.internal w a b)
  atCandidate : ∃ w a b, t.descend s.candidate = some (.internal w a b)

/-- Moving the candidate to another internal node keeps the unpacker on its way. -/
theorem State.Descending.setCandidate {t : Tree} {s : State} (h : s.Descending t) {c : BitString}
    (hc : ∃ w a b, t.descend c = some (.internal w a b)) : (s.setCandidate c).Descending t := by
  obtain ⟨w, a, b, hd⟩ := hc
  exact ⟨h.codes, h.bound, h.atRoot, w, a, b, by rw [s.candidate_setCandidate c (h.bound c _ hd)]; exact hd⟩

/-- One bit takes the unpacker to a leaf, where a code is matched, or to a further internal node, above which there
is still room for a bit; so it never stops (R165). -/
theorem unpackBit_descending {t : Tree} {s : State} (h : s.Descending t) (x : Bool) :
    ∃ s', unpackBit s x = some s' ∧ s'.Descending t := by
  by_cases hn : s.outcnt < s.n
  case neg => exact ⟨s, by simp [unpackBit, hn], h⟩
  cases hm : matchCode s.ct (s.candidate ++ [x]) with
  | some v =>
    have he : (s.emit v).Descending t := ⟨h.codes, h.bound, h.atRoot, h.atCandidate⟩
    exact ⟨_, by simp [unpackBit, hn, hm], he.setCandidate h.atRoot⟩
  | none =>
    obtain ⟨w, a, b, hc⟩ := h.atCandidate
    have hx : t.descend (s.candidate ++ [x]) = some (if x then b else a) := by simp [Tree.descend_append, hc]
    generalize (if x then b else a) = u at hx
    cases u with
    | leaf v w' => exact absurd ((h.codes v _).2 ⟨w', hx⟩) ((matchCode_eq_none _ _).1 hm v)
    | internal w' a' b' =>
      have hroom : (s.candidate ++ [x]).length ≤ Config.candidateMax := by
        have hchild : t.descend (s.candidate ++ [x] ++ [false]) = some a' := by
          rw [Tree.descend_append, hx, Option.bind_some, Tree.descend_internal_singleton]; rfl
        have hlong := h.bound _ _ hchild
        rw [List.length_append] at hlong
        exact Nat.le_of_succ_le_succ hlong
      exact ⟨_, by simp only [unpackBit, hn, hm, hroom, if_true], h.setCandidate ⟨w', a', b', hx⟩⟩

/-- The unpacker on its way down the tree takes any bits. -/
theorem unpackBits_descending {t : Tree} (xs : BitString) {s : State} (h : s.Descending t) :
    ∃ s', unpackBits xs s = some s' ∧ s'.Descending t := by
  induction xs generalizing s with
  | nil => exact ⟨s, rfl, h⟩
  | cons x xs ih =>
    obtain ⟨s', hs', h'⟩ := unpackBit_descending h x
    simpa [unpackBits, hs'] using ih h'

/-- Once N bytes are out every bit is dropped (R162). -/
theorem unpackBits_of_full (xs : BitString) {s : State} (h : ¬ s.outcnt < s.n) : unpackBits xs s = some s := by
  induction xs with
  | nil => rfl
  | cons x xs ih => simpa [unpackBits, unpackBit, h] using ih

/-- After a GEN on two symbols or more the unpacker is on its way down the tree (R165). -/
theorem State.Inv.descending {s : State} (h : s.Inv) (hg : s.codesMade) (h1 : s.nsym ≠ 1) :
    ∃ t, s.Descending t := by
  have hcodes := h.codes hg
  have htree := h.tree hcodes.built
  obtain ⟨w, a, b, ht⟩ := htree.tree_internal h.control.nsymCounts h1
  have hiff := hcodes.code_iff_descend ht (htree.leaves_nodup ht)
  have hroot : (Tree.internal w a b).descend [] = some (.internal w a b) := by simp [Tree.descend]
  refine ⟨.internal w a b, hiff, fun c u hu => Nat.lt_succ_iff.1 (treeOf_descend_length ht hu), ⟨w, a, b, hroot⟩, ?_⟩
  obtain hnil | ⟨v, hlen, hpre, hne⟩ := h.candidate.begun
  · exact ⟨w, a, b, hnil ▸ hroot⟩
  · obtain ⟨w', hd⟩ := (hiff v _).1 ⟨hlen, rfl⟩
    exact Tree.descend_properPrefix hd hpre hne

end Sys2Proof.Machine
end

section
/-! PROOFS. No command stops where the invariants hold (00_scope.md R15): the three faults the model names do not
arise (log entries 6 to 8). -/

namespace Sys2Proof.Machine

/-- The merge loop finds a root when a round is left for each element of a queue that is not empty (R123). -/
theorem mergeLoop_ne_none {fuel : Nat} (k : Nat) (nm : Memory NodeRec) {q : List Nat} (hq : q ≠ [])
    (hf : q.length ≤ fuel) : mergeLoop fuel k nm q ≠ none := by
  induction fuel generalizing k nm q with
  | zero => exact absurd (List.length_eq_zero_iff.1 (Nat.le_zero.1 hf)) hq
  | succ fuel ih =>
    rw [mergeLoop]
    cases ha : extractMin (keyLt nm) q with
    | none => exact absurd ((extractMin_eq_none _ _).1 ha) hq
    | some p =>
      obtain ⟨a, q1⟩ := p
      cases hb : extractMin (keyLt nm) q1 with
      | none => simp [hb]
      | some p =>
        obtain ⟨b, q2⟩ := p
        have h1 := extractMin_length _ ha
        have h2 := extractMin_length _ hb
        simpa [hb] using ih _ _ (List.cons_ne_nil _ q2) (by simp; omega)

/-- The first queue of BUILD has an index for each present symbol. -/
theorem leafQueue_length (ft : Memory (BitVec 31)) : (leafQueue ft).length = presentCount ft := by
  simp [leafQueue, presentCount]

/-- A command answers when its own rule does, where it is legal (R83). -/
theorem execute_answers {i : Instr} {body : State → Outcome} {s : State}
    (h : legalIn i s.ph = true → ∃ t, body s = .next t) : ∃ t, execute i body s = .next t := by
  unfold execute
  split_ifs with h1 h2 h3
  · exact ⟨_, rfl⟩
  · exact ⟨_, rfl⟩
  · exact ⟨_, rfl⟩
  · exact h (by simpa using h2)

/-- BUILD finds a present symbol where NSYM counts them: no `emptyQueue` (R27, log entry 7). -/
theorem execBuild_answers {s : State} (h : s.ControlInv) (sym : BitVec 8) : ∃ t, execBuild sym s = .next t := by
  refine execute_answers fun _ => ?_
  by_cases hz : s.nsym = 0
  · exact ⟨_, if_pos hz⟩
  · have hq : leafQueue s.ft ≠ [] := by
      intro hnil
      have hp : presentCount s.ft = 0 := by rw [← leafQueue_length, hnil, List.length_nil]
      exact hz (BitVec.eq_of_toNat_eq (h.nsymCounts.trans hp))
    have hm := mergeLoop_ne_none 0 (fillLeaves s.ft s.nm) hq le_rfl
    obtain ⟨⟨root, k, nm⟩, hr⟩ := Option.ne_none_iff_exists'.1 hm
    simp only [if_neg hz, hr]
    exact ⟨_, rfl⟩

/-- GEN has a tree to walk: no `malformedTree` (R129, log entry 6). -/
theorem execGen_answers {s : State} (h : s.TreeInv) (sym : BitVec 8) : ∃ t, execGen sym s = .next t := by
  refine execute_answers fun hl => ?_
  have hheld := h (.inl (by simpa [legalIn] using hl))
  obtain ⟨t, ht⟩ := Option.ne_none_iff_exists'.1 hheld.treeRead
  simp [hheld.generate_eq ht]

/-- UPB's candidate stays within the codes, and with one symbol no bit is looked at: no `candidateOverflow` (R161, R165,
log entry 8). -/
theorem execUpb_answers {s : State} (h : s.Inv) (p : BitVec 8) : ∃ t, execUpb p s = .next t := by
  refine execute_answers fun hl => ?_
  have hph : s.ph = .unpack := by simpa [legalIn] using hl
  by_cases h1 : s.nsym = 1
  · have hfull : ¬ s.outcnt < s.n := by rw [h.control.unpackSingle hph h1]; exact BitVec.lt_irrefl _
    simp [unpackBits_of_full _ hfull]
  · obtain ⟨t, hd⟩ := h.descending (.inr (.inr (.inl hph))) h1
    obtain ⟨s', hs', -⟩ := unpackBits_descending (byteBits p) hd
    simp [hs']

/-- Every command answers where the invariants hold. -/
theorem exec_answers {s : State} (h : s.Inv) (i : Instr) : ∃ t, exec i s = .next t := by
  unfold exec
  cases i with
  | build sym => exact execBuild_answers h.control sym
  | gen sym => exact execGen_answers h.tree sym
  | upb p => exact execUpb_answers h p
  | rds _ | pkb _ | upe _ => exact execute_answers fun _ => by split <;> exact ⟨_, rfl⟩
  | _ => exact execute_answers fun _ => ⟨_, rfl⟩

/-- Every word answers where the invariants hold, an undefined opcode as well (R85). -/
theorem runCommand_answers {s : State} (h : s.Inv) (w : CmdWord) : ∃ t, runCommand w s = .next t := by
  unfold runCommand
  split
  next i _ => exact exec_answers h i
  next op _ => by_cases hf : s.ph = .fault <;> simp [undefinedCommand, hf]

/-- No invariant speaks of what the host does next. -/
theorem State.Inv.withInput {s : State} (h : s.Inv) (l : List HostInput) : State.Inv { s with input := l } where
  control := { h.control with origin := h.control.origin.imp fun _ hp => { hp with } }
  tree hb := { h.tree hb with }
  codes hg := { h.codes hg with }
  candidate := { h.candidate with }

/-- Settles O54: an idle step and a reset always answer, and the command taken off the stream answers because the
invariants do not depend on the stream. -/
theorem stepNeverStops : Obligations.StepNeverStops := by
  intro s h
  obtain ⟨-, hs⟩ | ⟨w, rest, -, hs⟩ | ⟨w, rest, -, hs⟩ := step_cases (s := s)
  · exact ⟨_, hs⟩
  · exact ⟨_, hs⟩
  · exact hs ▸ runCommand_answers (h.withInput rest) w

end Sys2Proof.Machine
end

section
/-! PROOFS. What a command and a step can do, said once: the effect of each command that completes (R23, R83), and what a
step leaves besides (R65, R85, R210, R230). The invariants are derived from it. -/

namespace Sys2Proof.Machine

/-- The commands that read the state and change nothing: NOP and the seven reads. -/
def isObservation : Instr → Bool
  | .clr => false
  | i => allowedInFault i

/-- `Completes s i t`: in state `s` the command `i` carries out its own rule without an error, which leaves `t`. -/
inductive Completes (s : State) : Instr → State → Prop
  | observe {i : Instr} (d : BitVec 64) (hi : isObservation i = true) : Completes s i (s.respond .ok d)
  | clr : Completes s .clr (s.clear.respond .ok 0)
  | ftw (v : BitVec 8) (c : BitVec 64) :
      Completes s (.ftw v c) ({ s with
        ft := ftWrite s.ft v (c.extractLsb' 0 31)
        nsym := nsymAfter s.nsym (ftRead s.ft v) (c.extractLsb' 0 31) }.respond .ok 0)
  | setn (sym : BitVec 8) (n : BitVec 64) : Completes s (.setn sym n) ({ s with n := n }.respond .ok 0)
  | build (sym : BitVec 8) {root k : Nat} {nm : Memory NodeRec} (hn : s.nsym ≠ 0)
      (hm : mergeLoop (leafQueue s.ft).length 0 (fillLeaves s.ft s.nm) (leafQueue s.ft) = some (root, k, nm)) :
      Completes s (.build sym) ({ s with
        nm := nm, root := BitVec.ofNat 9 root, nint := BitVec.ofNat 8 k, ph := .built }.respond .ok 0)
  | gen (sym : BitVec 8) {ct : Memory CodeEntry} (hg : generate s.nm s.root.toNat = some ct) :
      Completes s (.gen sym) ({ s with ct := ct, ph := .coded }.respond .ok 0)
  | pks (sym : BitVec 8) :
      Completes s (.pks sym) ({ s with pacc := 0, pcnt := 0, outcnt := 0, ph := .pack }.respond .ok 0)
  | pkb (b : BitVec 8) (hc : (ctRead s.ct b).len ≠ 0) :
      Completes s (.pkb b) ((packBits s (ctRead s.ct b).bits).respond .ok 0)
  | pke (sym : BitVec 8) :
      Completes s (.pke sym) ({ flushPartial s with pacc := 0, pcnt := 0, ph := .done }.respond .ok 0)
  | upsOne (sym : BitVec 8) (h1 : s.nsym = 1) :
      Completes s (.ups sym) ({ s with
        clen := 0, cbits := 0, outcnt := s.n, ph := .unpack
        out := s.out ++ List.replicate s.n.toNat (s.root.extractLsb' 0 8) }.respond .ok 0)
  | upsMany (sym : BitVec 8) (h1 : s.nsym ≠ 1) :
      Completes s (.ups sym) ({ s with clen := 0, cbits := 0, outcnt := 0, ph := .unpack }.respond .ok 0)
  | upb (p : BitVec 8) {u : State} (hu : unpackBits (byteBits p) s = some u) :
      Completes s (.upb p) (u.respond .ok 0)
  | upe (sym : BitVec 8) (hn : ¬ s.outcnt < s.n) :
      Completes s (.upe sym) ({ s with clen := 0, cbits := 0, ph := .done }.respond .ok 0)

/-- The errors a command can raise itself: E_SEQ where it is not legal, and where it is, one of those R23 lists. -/
def CanRaise (i : Instr) (s : State) (e : Status) : Prop :=
  (legalIn i s.ph = false ∧ e = .eSeq) ∨ (legalIn i s.ph = true ∧ e ∈ mayRaise i)

/-- No command raises OK. -/
theorem CanRaise.ne_ok {i : Instr} {s : State} {e : Status} (h : CanRaise i s e) : e ≠ .ok := by
  rintro rfl
  obtain ⟨-, h⟩ | ⟨-, h⟩ := h
  · exact absurd h (by decide)
  · cases i <;> simp [mayRaise] at h

/-- An operand that is out of range is that of a command R23 lets raise E_OPERAND (R82). -/
theorem eOperand_mem_mayRaise {i : Instr} (h : operandOk i = false) : .eOperand ∈ mayRaise i := by
  cases i with
  | rds | ftw | setn => simp [mayRaise]
  | _ => simp [operandOk] at h

/-- What a command does follows from what its own rule does (R83). -/
theorem execute_next {i : Instr} {body : State → Outcome} {s t : State} (h : execute i body s = .next t)
    (hbody : legalIn i s.ph = true → operandOk i = true → body s = .next t →
      (∃ e, CanRaise i s e ∧ t = s.raise e i.opcode i.sym) ∨ Completes s i t) :
    (s.ph = .fault ∧ t = s.respond .eFaulted 0) ∨
    (∃ e, CanRaise i s e ∧ t = s.raise e i.opcode i.sym) ∨
    (legalIn i s.ph = true ∧ operandOk i = true ∧ Completes s i t) := by
  obtain ⟨hf, -, ht⟩ | ⟨-, hl, ht⟩ | ⟨-, hl, ho, ht⟩ | ⟨-, hl, ho, hb⟩ := execute_cases h
  · exact .inl ⟨hf, ht⟩
  · exact .inr (.inl ⟨.eSeq, .inl ⟨hl, rfl⟩, ht⟩)
  · exact .inr (.inl ⟨.eOperand, .inr ⟨hl, eOperand_mem_mayRaise ho⟩, ht⟩)
  · exact .inr ((hbody hl ho hb).imp_right fun hc => ⟨hl, ho, hc⟩)

/-- Everything a command can do when it answers a next state: be refused in FAULT, raise an error, or complete. -/
theorem exec_cases {i : Instr} {s t : State} (h : exec i s = .next t) :
    (s.ph = .fault ∧ t = s.respond .eFaulted 0) ∨
    (∃ e, CanRaise i s e ∧ t = s.raise e i.opcode i.sym) ∨
    (legalIn i s.ph = true ∧ operandOk i = true ∧ Completes s i t) := by
  unfold exec at h
  cases i with
  | nop | ftr _ | ndr _ | ndw _ | ctl _ | ctb _ _ =>
    exact execute_next h fun _ _ hb => .inr (by cases hb; exact .observe _ rfl)
  | clr => exact execute_next h fun _ _ hb => .inr (by cases hb; exact .clr)
  | ftw v c => exact execute_next h fun _ _ hb => .inr (by cases hb; exact .ftw v c)
  | setn sym n => exact execute_next h fun _ _ hb => .inr (by cases hb; exact .setn sym n)
  | pks sym => exact execute_next h fun _ _ hb => .inr (by cases hb; exact .pks sym)
  | pke sym => exact execute_next h fun _ _ hb => .inr (by cases hb; exact .pke sym)
  | rds r =>
    refine execute_next h fun hl ho hb => ?_
    split at hb
    · cases hb; exact .inr (.observe _ rfl)
    · cases hb; exact .inl ⟨.eOperand, .inr ⟨hl, by simp [mayRaise]⟩, rfl⟩
  | build sym =>
    refine execute_next h fun hl _ hb => ?_
    split_ifs at hb with hn
    · cases hb; exact .inl ⟨.eTree, .inr ⟨hl, by simp [mayRaise]⟩, rfl⟩
    · dsimp only at hb
      split at hb
      · cases hb
      next hm => cases hb; exact .inr (.build sym hn hm)
  | gen sym =>
    refine execute_next h fun _ _ hb => .inr ?_
    split at hb
    · cases hb
    next hg => cases hb; exact .gen sym hg
  | pkb b =>
    refine execute_next h fun hl _ hb => ?_
    split_ifs at hb with hc
    · cases hb; exact .inl ⟨.eNoCode, .inr ⟨hl, by simp [mayRaise]⟩, rfl⟩
    · cases hb; exact .inr (.pkb b hc)
  | ups sym =>
    refine execute_next h fun _ _ hb => .inr ?_
    dsimp only at hb
    split_ifs at hb with h1
    · rw [State.emitRepeat_eq] at hb
      cases hb
      simpa using Completes.upsOne sym h1
    · cases hb; exact .upsMany sym h1
  | upb p =>
    refine execute_next h fun _ _ hb => .inr ?_
    split at hb
    · cases hb
    next hu => cases hb; exact .upb p hu
  | upe sym =>
    refine execute_next h fun hl _ hb => ?_
    split_ifs at hb with hn
    · cases hb; exact .inl ⟨.eSize, .inr ⟨hl, by simp [mayRaise]⟩, rfl⟩
    · cases hb; exact .inr (.upe sym hn)

/-- `CommandTo s t`: the block in state `s` takes a command word, and is in `t` after it. -/
inductive CommandTo (s : State) : State → Prop
  | refused (hf : s.ph = .fault) : CommandTo s (s.respond .eFaulted 0)
  | raised {e : Status} (op sym : BitVec 8) (he : e ≠ .ok) : CommandTo s (s.raise e op sym)
  | completed {i : Instr} {t : State} (hl : legalIn i s.ph = true) (ho : operandOk i = true) (hc : Completes s i t) :
      CommandTo s t

/-- What a word does, defined or not (R83, R85). -/
theorem commandTo_of_runCommand {w : CmdWord} {s t : State} (h : runCommand w s = .next t) : CommandTo s t := by
  unfold runCommand at h
  split at h
  · obtain ⟨hf, rfl⟩ | ⟨e, he, rfl⟩ | ⟨hl, ho, hc⟩ := exec_cases h
    · exact .refused hf
    · exact .raised _ _ he.ne_ok
    · exact .completed hl ho hc
  · obtain ⟨hf, rfl⟩ | ⟨-, rfl⟩ := undefinedCommand_cases h
    · exact .refused hf
    · exact .raised _ _ (by decide)

/-- What a step does: nothing, a reset, or the command it takes off the host's stream. -/
theorem step_next {s t : State} (h : step s = .next t) :
    t = s ∨ (∃ l, t = resetKeepingInput l) ∨ ∃ l, CommandTo { s with input := l } t := by
  obtain ⟨-, hs⟩ | ⟨_, rest, -, hs⟩ | ⟨w, rest, -, hs⟩ := step_cases (s := s)
  · exact .inl (by cases hs.symm.trans h; rfl)
  · exact .inr (.inl ⟨rest, by cases hs.symm.trans h; rfl⟩)
  · exact .inr (.inr ⟨rest, commandTo_of_runCommand (hs.symm.trans h)⟩)

/-! What the packer and the unpacker leave unchanged. -/

/-- `s.emitted bytes` is `s` after emitting `bytes` (R66). -/
def State.emitted (s : State) (bytes : Bytes) : State :=
  { s with out := s.out ++ bytes, outcnt := s.outcnt + BitVec.ofNat 64 bytes.length }

/-- Emitting nothing changes nothing. -/
theorem State.emitted_nil (s : State) : s.emitted [] = s := by simp [State.emitted]

/-- Emitting twice is emitting both in order. -/
theorem State.emitted_emitted (s : State) (xs ys : Bytes) : (s.emitted xs).emitted ys = s.emitted (xs ++ ys) := by
  simp [State.emitted, BitVec.ofNat_add, BitVec.add_assoc]

/-- OUTCNT never counts more than was emitted. -/
theorem State.emitted_outcnt_le {s : State} (h : s.outcnt.toNat ≤ s.out.length) (bytes : Bytes) :
    (s.emitted bytes).outcnt.toNat ≤ (s.emitted bytes).out.length := by
  simp only [State.emitted, BitVec.toNat_add, BitVec.toNat_ofNat, List.length_append]
  omega

/-- One bit packed emits at most a byte and changes PACC and PCNT besides (R151). -/
theorem packBit_frame (s : State) (x : Bool) :
    ∃ bytes acc cnt, packBit s x = { s.emitted bytes with pacc := acc, pcnt := cnt } := by
  by_cases h : s.pcnt.toNat + 1 = 8
  · exact ⟨[_], 0, 0, by simp only [packBit, h, if_true]; rfl⟩
  · exact ⟨[], _, _, by simp only [packBit, h, if_false, State.emitted_nil]; rfl⟩

/-- Packing bits emits bytes and changes PACC and PCNT besides (R151). -/
theorem packBits_frame (c : BitString) (s : State) :
    ∃ bytes acc cnt, packBits s c = { s.emitted bytes with pacc := acc, pcnt := cnt } := by
  induction c generalizing s with
  | nil => exact ⟨[], s.pacc, s.pcnt, by rw [State.emitted_nil]; rfl⟩
  | cons x c ih =>
    obtain ⟨b1, acc, cnt, h1⟩ := packBit_frame s x
    obtain ⟨b2, acc', cnt', h2⟩ := ih (packBit s x)
    refine ⟨b1 ++ b2, acc', cnt', ?_⟩
    rw [← State.emitted_emitted]
    exact h2.trans (by rw [h1]; rfl)

/-- PKE's flush emits at most a byte (R152). -/
theorem flushPartial_frame (s : State) : ∃ bytes, flushPartial s = s.emitted bytes := by
  by_cases h : s.pcnt = 0
  · exact ⟨[], by simp [flushPartial, h, State.emitted_nil]⟩
  · exact ⟨[_], by simp only [flushPartial, h, if_false]; rfl⟩

/-- One turn of UPB's loop drops the bit, emits the symbol whose code it ends, or adds it to the candidate (R162). -/
theorem unpackBit_cases {s u : State} {x : Bool} (h : unpackBit s x = some u) :
    (¬ s.outcnt < s.n ∧ u = s) ∨
    (s.outcnt < s.n ∧ ∃ v, matchCode s.ct (s.candidate ++ [x]) = some v ∧ u = (s.emit v).setCandidate []) ∨
    (s.outcnt < s.n ∧ matchCode s.ct (s.candidate ++ [x]) = none ∧
      (s.candidate ++ [x]).length ≤ Config.candidateMax ∧ u = s.setCandidate (s.candidate ++ [x])) := by
  unfold unpackBit at h
  split_ifs at h with hn
  · dsimp only at h
    split at h
    next v hv => exact .inr (.inl ⟨hn, v, hv, by simpa using h.symm⟩)
    next hv =>
      split_ifs at h with hl
      exact .inr (.inr ⟨hn, hv, hl, by simpa using h.symm⟩)
  · exact .inl ⟨hn, by simpa using h.symm⟩

/-- Whatever one turn of UPB's loop keeps, the loop keeps. -/
theorem unpackBits_induction {P : State → Prop} (hP : ∀ s u x, P s → unpackBit s x = some u → P u) {xs : BitString}
    {s u : State} (hs : P s) (h : unpackBits xs s = some u) : P u := by
  induction xs generalizing s with
  | nil => cases h; exact hs
  | cons x xs ih =>
    rw [unpackBits] at h
    split at h
    · cases h
    next s' hx => exact ih (hP _ _ _ hs hx) h

/-- UPB's loop emits bytes and changes the candidate besides (R162). -/
theorem unpackBits_frame {xs : BitString} {s u : State} (h : unpackBits xs s = some u) :
    ∃ bytes len bits, u = { s.emitted bytes with clen := len, cbits := bits } := by
  refine unpackBits_induction (P := fun u => ∃ bytes len bits, u = { s.emitted bytes with clen := len, cbits := bits })
    ?_ ⟨[], s.clen, s.cbits, by rw [State.emitted_nil]⟩ h
  rintro - u x ⟨bytes, len, bits, rfl⟩ hu
  obtain ⟨-, rfl⟩ | ⟨-, v, -, rfl⟩ | ⟨-, -, -, rfl⟩ := unpackBit_cases hu
  · exact ⟨bytes, len, bits, rfl⟩
  · exact ⟨bytes ++ [v], _, _, by rw [← State.emitted_emitted]; rfl⟩
  · exact ⟨bytes, _, _, rfl⟩

end Sys2Proof.Machine
end

section
/-! PROOFS. The memories after FTW, BUILD and GEN: NSYM counts FT, the nodes BUILD makes lie past the leaf slots, and
NM and CT are not empty afterwards (10_state.md R27, R33, R35). -/

namespace Sys2Proof.Machine

/-- Changing a predicate at one element of a list without duplicates changes the count by that element. -/
theorem countP_update {α : Type} [DecidableEq α] {l : List α} (hl : l.Nodup) {p q : α → Prop} [DecidablePred p]
    [DecidablePred q] {v : α} (hv : v ∈ l) (h : ∀ u, u ≠ v → (q u ↔ p u)) :
    l.countP (fun u => decide (q u)) + (if p v then 1 else 0) =
      l.countP (fun u => decide (p u)) + (if q v then 1 else 0) := by
  have hrest : (l.erase v).countP (fun u => decide (q u)) = (l.erase v).countP (fun u => decide (p u)) :=
    List.countP_congr fun u hu => by
      simpa using h u fun e => hl.not_mem_erase (e ▸ hu)
  rw [(List.perm_cons_erase hv).countP_eq, (List.perm_cons_erase hv).countP_eq (fun u => decide (p u)),
    List.countP_cons, List.countP_cons, hrest]
  simp only [decide_eq_true_eq]
  omega

/-- The number of present symbols, as a count. -/
theorem presentCount_eq_countP (ft : Memory (BitVec 31)) :
    presentCount ft = symbols.countP (fun v => decide (ftRead ft v ≠ 0)) :=
  List.countP_eq_length_filter.symm

/-- At most 256 symbols are present. -/
theorem presentCount_le (ft : Memory (BitVec 31)) : presentCount ft ≤ 256 :=
  (List.length_filter_le ..).trans symbols_length.le

/-- FTW counts a symbol that appears and one that goes (R110). -/
theorem presentCount_ftWrite {ft : Memory (BitVec 31)} (hw : Memory.wf 0 Config.nsymMax ft = true) (v : Byte)
    (c : BitVec 31) :
    presentCount (ftWrite ft v c) + (if ftRead ft v = 0 then 0 else 1) =
      presentCount ft + (if c = 0 then 0 else 1) := by
  have h := countP_update symbols_nodup (mem_symbols v) (p := fun u => ftRead ft u ≠ 0)
    (q := fun u => ftRead (ftWrite ft v c) u ≠ 0) fun u hu => by rw [ftRead_ftWrite ft v u c hw, if_neg hu]
  simpa only [presentCount_eq_countP, ftRead_ftWrite ft v v c hw, if_true, ite_not] using h

/-- NSYM goes on counting the present symbols (R27, R110). -/
theorem nsymAfter_toNat {ft : Memory (BitVec 31)} (hw : Memory.wf 0 Config.nsymMax ft = true) {nsym : BitVec 9}
    (h : nsym.toNat = presentCount ft) (v : Byte) (c : BitVec 31) :
    (nsymAfter nsym (ftRead ft v) c).toNat = presentCount (ftWrite ft v c) := by
  have hcount := presentCount_ftWrite hw v c
  have hle := presentCount_le (ftWrite ft v c)
  unfold nsymAfter
  split_ifs with h1 h2
  · rw [if_pos h1.1, if_neg h1.2] at hcount
    bv_omega
  · rw [if_neg h2.1, if_pos h2.2] at hcount
    bv_omega
  · have hsame : (ftRead ft v = 0) = (c = 0) := by simp only [eq_iff_iff]; tauto
    simp only [hsame] at hcount
    omega

/-! The node memory BUILD makes. -/

/-- What BUILD writes to leaf slot `v` (R123). -/
def leafSlot (ft : Memory (BitVec 31)) (v : Byte) : NodeRec :=
  if ftRead ft v = 0 then NodeRec.zero else NodeRec.ofLeaf v (ftRead ft v)

/-- Some leaf slots written, in order. -/
def writeLeafSlots (ft : Memory (BitVec 31)) (vs : List Byte) (nm : Memory NodeRec) : Memory NodeRec :=
  vs.foldl (fun nm v => nmWrite nm v.toNat (leafSlot ft v)) nm

/-- A byte value is an index of NM. -/
theorem byte_lt_nodeMax (v : Byte) : v.toNat < Config.nodeMax := (byte_lt v).trans (by decide)

/-- Writing leaf slots keeps the canonical form. -/
theorem writeLeafSlots_wf (ft : Memory (BitVec 31)) (vs : List Byte) {nm : Memory NodeRec}
    (hw : Memory.wf NodeRec.zero Config.nodeMax nm = true) :
    Memory.wf NodeRec.zero Config.nodeMax (writeLeafSlots ft vs nm) = true := by
  induction vs generalizing nm with
  | nil => exact hw
  | cons v vs ih => exact ih (nmWrite_wf _ _ _ hw (byte_lt_nodeMax v))

/-- Writing leaf slots leaves every other entry alone. -/
theorem nmRead_writeLeafSlots_of_notMem (ft : Memory (BitVec 31)) {vs : List Byte} {nm : Memory NodeRec}
    (hw : Memory.wf NodeRec.zero Config.nodeMax nm = true) {i : Nat} (hi : ∀ v ∈ vs, i ≠ v.toNat) :
    nmRead (writeLeafSlots ft vs nm) i = nmRead nm i := by
  induction vs generalizing nm with
  | nil => rfl
  | cons v vs ih =>
    obtain ⟨hv, hvs⟩ := List.forall_mem_cons.1 hi
    exact (ih (nmWrite_wf _ _ _ hw (byte_lt_nodeMax v)) hvs).trans
      (by rw [nmRead_nmWrite _ _ _ _ hw (byte_lt_nodeMax v), if_neg hv])

/-- A leaf slot written reads as its leaf. -/
theorem nmRead_writeLeafSlots_of_mem (ft : Memory (BitVec 31)) {vs : List Byte} {nm : Memory NodeRec}
    (hw : Memory.wf NodeRec.zero Config.nodeMax nm = true) {v : Byte} (hv : v ∈ vs) :
    nmRead (writeLeafSlots ft vs nm) v.toNat = leafSlot ft v := by
  induction vs generalizing nm with
  | nil => cases hv
  | cons u vs ih =>
    have hw' := nmWrite_wf _ u.toNat (leafSlot ft u) hw (byte_lt_nodeMax u)
    by_cases hmem : v ∈ vs
    · exact ih hw' hmem
    · obtain rfl : v = u := (List.mem_cons.1 hv).resolve_right hmem
      refine (nmRead_writeLeafSlots_of_notMem ft hw' fun u hu e => hmem ?_).trans
        (by rw [nmRead_nmWrite _ _ _ _ hw (byte_lt_nodeMax v), if_pos rfl])
      exact BitVec.eq_of_toNat_eq e ▸ hu

/-- `fillLeaves` writes every leaf slot, and keeps the canonical form. -/
theorem fillLeaves_wf (ft : Memory (BitVec 31)) {nm : Memory NodeRec}
    (hw : Memory.wf NodeRec.zero Config.nodeMax nm = true) :
    Memory.wf NodeRec.zero Config.nodeMax (fillLeaves ft nm) = true :=
  writeLeafSlots_wf ft symbols hw

/-- After the leaf slots are written each holds its leaf (R33). -/
theorem nmRead_fillLeaves (ft : Memory (BitVec 31)) {nm : Memory NodeRec}
    (hw : Memory.wf NodeRec.zero Config.nodeMax nm = true) (v : Byte) :
    nmRead (fillLeaves ft nm) v.toNat = leafSlot ft v :=
  nmRead_writeLeafSlots_of_mem ft hw (mem_symbols v)

/-- Writing the leaf slots leaves the entries past them alone. -/
theorem nmRead_fillLeaves_of_ge (ft : Memory (BitVec 31)) {nm : Memory NodeRec}
    (hw : Memory.wf NodeRec.zero Config.nodeMax nm = true) {i : Nat} (hi : 256 ≤ i) :
    nmRead (fillLeaves ft nm) i = nmRead nm i :=
  nmRead_writeLeafSlots_of_notMem ft hw fun v _ => by have := v.isLt; omega

/-- NM: a write leaves every other entry alone. -/
theorem nmRead_nmWrite_other (nm : Memory NodeRec) {i j : Nat} (x : NodeRec) (h : i ≠ j) :
    nmRead (nmWrite nm j x) i = nmRead nm i := by
  simp only [nmRead, nmWrite, Memory.read_write_other NodeRec.zero nm j i x h]

/-- Whatever a write of an internal node keeps, the merge loop keeps: of at most 256 elements it makes at most 255 nodes,
from index 256 on (R33). -/
theorem mergeLoop_induction {P : Memory NodeRec → Prop}
    (hP : ∀ nm j x, 256 ≤ j → j < Config.nodeMax → P nm → P (nmWrite nm j x)) {fuel k : Nat} {nm : Memory NodeRec}
    {q : List Nat} (hk : k + q.length ≤ 256) {root k' : Nat} {nm' : Memory NodeRec}
    (h : mergeLoop fuel k nm q = some (root, k', nm')) (hnm : P nm) : P nm' := by
  induction fuel generalizing k nm q with
  | zero => simp [mergeLoop] at h
  | succ fuel ih =>
    rw [mergeLoop] at h
    cases ha : extractMin (keyLt nm) q with
    | none => simp [ha] at h
    | some p =>
      obtain ⟨a, q1⟩ := p
      cases hb : extractMin (keyLt nm) q1 with
      | none =>
        obtain ⟨rfl, rfl, rfl⟩ : a = root ∧ k = k' ∧ nm = nm' := by simpa [ha, hb] using h
        exact hnm
      | some p =>
        obtain ⟨b, q2⟩ := p
        have h1 := extractMin_length _ ha
        have h2 := extractMin_length _ hb
        simp only [ha, hb] at h
        refine ih (by rw [List.length_cons]; omega) h (hP _ _ _ ?_ ?_ hnm) <;>
          simp only [Config.internalBase, Config.nodeMax] <;> omega

/-- The queue of BUILD is short enough for its nodes. -/
theorem leafQueue_length_le (ft : Memory (BitVec 31)) : 0 + (leafQueue ft).length ≤ 256 := by
  rw [Nat.zero_add, leafQueue_length]
  exact presentCount_le ft

/-- The node memory BUILD makes is in canonical form. -/
theorem mergeLoop_wf {ft : Memory (BitVec 31)} {nm nm' : Memory NodeRec} {fuel root k : Nat}
    (hw : Memory.wf NodeRec.zero Config.nodeMax nm = true)
    (h : mergeLoop fuel 0 (fillLeaves ft nm) (leafQueue ft) = some (root, k, nm')) :
    Memory.wf NodeRec.zero Config.nodeMax nm' = true :=
  mergeLoop_induction (P := fun nm => Memory.wf NodeRec.zero Config.nodeMax nm = true)
    (fun nm j x _ hj hnm => nmWrite_wf nm j x hnm hj) (leafQueue_length_le ft) h (fillLeaves_wf ft hw)

/-- Merging leaves the leaf slots alone. -/
theorem nmRead_mergeLoop_leafSlot {ft : Memory (BitVec 31)} {nm nm' : Memory NodeRec} {fuel root k : Nat}
    (hw : Memory.wf NodeRec.zero Config.nodeMax nm = true)
    (h : mergeLoop fuel 0 (fillLeaves ft nm) (leafQueue ft) = some (root, k, nm')) (v : Byte) :
    nmRead nm' v.toNat = leafSlot ft v := by
  refine mergeLoop_induction (P := fun nm => nmRead nm v.toNat = leafSlot ft v) (fun nm j x hj _ hnm => ?_)
    (leafQueue_length_le ft) h (nmRead_fillLeaves ft hw v)
  have hv : v.toNat ≠ j := by have := v.isLt; omega
  exact (nmRead_nmWrite_other nm x hv).trans hnm

/-- A BUILD that answers leaves a leaf in NM. -/
theorem mergeLoop_ne_nil {ft : Memory (BitVec 31)} {nm nm' : Memory NodeRec} {fuel root k : Nat}
    (hw : Memory.wf NodeRec.zero Config.nodeMax nm = true)
    (h : mergeLoop fuel 0 (fillLeaves ft nm) (leafQueue ft) = some (root, k, nm')) : nm' ≠ [] := by
  have hq : leafQueue ft ≠ [] := by
    intro hnil
    cases fuel <;> simp [mergeLoop, hnil, extractMin] at h
  obtain ⟨i, hi⟩ := List.exists_mem_of_ne_nil _ hq
  obtain ⟨v, hv, -⟩ := List.mem_map.1 hi
  have hv : ftRead ft v ≠ 0 := by simpa using (List.mem_filter.1 hv).2
  rintro rfl
  have hslot := nmRead_mergeLoop_leafSlot hw h v
  rw [leafSlot, if_neg hv] at hslot
  exact absurd (congrArg NodeRec.valid hslot) (by simp [NodeRec.zero, NodeRec.ofLeaf])

/-! The code table GEN makes. -/

/-- A write of an entry that is not zero leaves a memory that is not empty. -/
theorem Memory.write_ne_nil {α : Type} [DecidableEq α] {zero x : α} (hx : x ≠ zero) (m : Memory α) (i : Nat) :
    Memory.write zero m i x ≠ [] := by
  cases m with
  | nil => simp [Memory.write, hx]
  | cons c m => simp only [Memory.write, hx, if_false]; split_ifs <;> simp

/-- The entry of a code of 1 to 255 bits has a length. -/
theorem CodeEntry.ofBits_len_ne_zero {c : BitString} (h1 : 1 ≤ c.length) (h2 : c.length ≤ Config.codeMax) :
    (CodeEntry.ofBits c).len ≠ 0 := by
  intro h
  have hz : c.length % 256 = 0 := by simpa [CodeEntry.ofBits] using congrArg BitVec.toNat h
  have hmax : c.length ≤ 255 := h2
  omega

/-- `TableMade ct`: a code table in canonical form that holds a code. -/
def TableMade (ct : Memory CodeEntry) : Prop := Memory.wf CodeEntry.zero Config.nsymMax ct = true ∧ ct ≠ []

/-- `set_code` writes an entry that is not zero (R140). -/
theorem setCode_tableMade {v : Nat} {c : BitString} {ct ct' : Memory CodeEntry}
    (hw : Memory.wf CodeEntry.zero Config.nsymMax ct = true) (h : setCode v c ct = some ct') : TableMade ct' := by
  unfold setCode at h
  split_ifs at h with hb
  obtain ⟨-, h1, h2⟩ := hb
  cases h
  refine ⟨ctWrite_wf _ _ _ hw, Memory.write_ne_nil (fun hz => ?_) _ _⟩
  exact CodeEntry.ofBits_len_ne_zero h1 h2 (congrArg CodeEntry.len hz)

/-- `visit` sets at least one code (R140). -/
theorem visit_tableMade {nm : Memory NodeRec} {fuel i : Nat} {path : BitString} {ct ct' : Memory CodeEntry}
    (hw : Memory.wf CodeEntry.zero Config.nsymMax ct = true) (h : visit nm fuel i path ct = some ct') :
    TableMade ct' := by
  induction fuel generalizing i path ct ct' with
  | zero => simp [visit] at h
  | succ fuel ih =>
    rw [visit] at h
    split at h
    · exact setCode_tableMade hw h
    · split at h
      · cases h
      next hleft => exact ih (ih hw hleft).1 h

/-- The table GEN makes (R140, R142). -/
theorem generate_tableMade {nm : Memory NodeRec} {root : Nat} {ct : Memory CodeEntry}
    (h : generate nm root = some ct) : TableMade ct := by
  unfold generate at h
  split at h
  · exact setCode_tableMade (Memory.wf_nil _ _) h
  · exact visit_tableMade (Memory.wf_nil _ _) h

end Sys2Proof.Machine
end

section
/-! PROOFS. Reset and CLR (10_state.md R40), the phase table (R23) and OUT (R36). -/

namespace Sys2Proof.Machine

/-- Reset is what CLR makes of a fresh block (R40). -/
theorem resetKeepingInput_eq_clear (l : List HostInput) :
    resetKeepingInput l = ({ State.reset with input := l } : State).clear := rfl

/-- CLR leaves every register and memory at its reset value (R40, R101). -/
theorem State.clear_atResetValues (s : State) : s.clear.AtResetValues := by
  constructor <;> simp [State.faultPin]

/-- CLR answers in every state (R101). -/
theorem clr_clears (s : State) : exec .clr s = .next (s.clear.respond .ok 0) :=
  show execClr s = _ from execute_of_legal _ rfl rfl

/-- Settles O8: reset is what CLR makes of a fresh block. -/
theorem resetAndClrGiveResetValues : Obligations.ResetAndClrGiveResetValues := by
  refine ⟨⟨State.clear_atResetValues State.reset, rfl⟩, fun s => ?_⟩
  exact ⟨s.clear.respond .ok 0, clr_clears s, { s.clear_atResetValues with }, rfl, rfl, rfl⟩

/-- RDS of a defined number answers the register (R102). -/
theorem rds_answers {r : BitVec 8} {s : State} {d : BitVec 64} (ho : operandOk (.rds r) = true)
    (hd : statusRegister r s = some d) : Answers (.rds r) s d := by
  show execRds r s = _
  rw [execRds, execute_of_legal _ rfl ho, hd]
  rfl

/-- RDS of a reserved number raises E_OPERAND (R206). -/
theorem rds_reserved_raises {r : BitVec 8} {s : State} (hr : r = 0x0B ∨ 0x10 ≤ r.toNat) (hf : s.ph ≠ .fault) :
    Raises (.rds r) s .eOperand := by
  have ho : operandOk (.rds r) = false := by
    rw [operandOk_eq_wellFormed, Instr.wellFormed, decide_eq_false_iff_not]
    obtain rfl | hr := hr
    · decide
    · omega
  show execRds r s = _
  rw [execRds, execute_of_badOperand _ rfl ho, State.raise, if_neg hf]
  rfl

/-- Settles O10: register by register. -/
theorem rdsAnswersRegister : Obligations.RdsAnswersRegister := by
  intro s
  refine ⟨?_, ?_, ?_, ?_, ?_, ?_, ?_, ?_, ?_, ?_, ?_, ?_, ?_, ?_, ?_, fun r => rds_reserved_raises⟩ <;>
    exact rds_answers rfl rfl

/-- A command that only reads stays in its phase (R23). -/
theorem nextPhase_of_isObservation {i : Instr} (h : isObservation i = true) (p : Phase) : nextPhase i p = p := by
  cases i with
  | nop | rds | ftr | ndr | ndw | ctl | ctb => rfl
  | _ => simp [isObservation, allowedInFault] at h

/-- A command that completes leaves the phase R23 lists. -/
theorem Completes.ph_eq_nextPhase {i : Instr} {s t : State} (h : Completes s i t) : t.ph = nextPhase i s.ph := by
  cases h with
  | observe d hi => exact (nextPhase_of_isObservation hi s.ph).symm
  | pkb b hc =>
    obtain ⟨bytes, acc, cnt, hp⟩ := packBits_frame (ctRead s.ct b).bits s
    rw [hp]; rfl
  | upb p hu =>
    obtain ⟨bytes, len, bits, rfl⟩ := unpackBits_frame hu
    rfl
  | _ => rfl

/-- A command that completes answers OK. -/
theorem Completes.rsps_eq {i : Instr} {s t : State} (h : Completes s i t) : ∃ d, t.rsps = s.rsps ++ [⟨.ok, d⟩] := by
  cases h with
  | pkb b hc =>
    obtain ⟨bytes, acc, cnt, hp⟩ := packBits_frame (ctRead s.ct b).bits s
    rw [hp]; exact ⟨_, rfl⟩
  | pke sym =>
    obtain ⟨bytes, hp⟩ := flushPartial_frame s
    rw [hp]; exact ⟨_, rfl⟩
  | upb p hu =>
    obtain ⟨bytes, len, bits, rfl⟩ := unpackBits_frame hu
    exact ⟨_, rfl⟩
  | _ => exact ⟨_, rfl⟩

/-- Settles O47: a command is refused, raises an error R23 lists, or completes, and its response says which. -/
theorem phaseFollowsTheTable : Obligations.PhaseFollowsTheTable := by
  intro i s t st d h hr
  have hst {st' : Status} {d' : BitVec 64} (h' : t.rsps = s.rsps ++ [⟨st', d'⟩]) : st = st' := by
    have hlast := List.append_cancel_left (hr.symm.trans h')
    exact congrArg Response.status (List.singleton_inj.1 hlast)
  obtain ⟨hf, rfl⟩ | ⟨e, he, rfl⟩ | ⟨hl, -, hc⟩ := exec_cases h
  · obtain rfl := hst rfl
    exact ⟨nofun, fun _ => ⟨hf, fun hn => absurd hf hn⟩⟩
  · obtain rfl := hst (State.raise_rsps ..)
    refine ⟨fun hok => absurd hok he.ne_ok, fun _ => ⟨State.raise_ph .., fun _ hl => ?_⟩⟩
    obtain ⟨hl', -⟩ | ⟨-, hm⟩ := he
    · simp [hl] at hl'
    · exact hm
  · obtain ⟨d', hd⟩ := hc.rsps_eq
    obtain rfl := hst hd
    exact ⟨fun _ => ⟨hl, hc.ph_eq_nextPhase⟩, fun hn => absurd rfl hn⟩

/-- The commands that emit (R66). -/
def Emits (i : Instr) : Prop :=
  (∃ b, i = .pkb b) ∨ (∃ y, i = .pke y) ∨ (∃ y, i = .ups y) ∨ (∃ p, i = .upb p)

/-- The commands that start counting OUTCNT from 0 (R101, R150, R160). -/
def StartsCount (i : Instr) : Prop := i = .clr ∨ (∃ y, i = .pks y) ∨ (∃ y, i = .ups y)

/-- A command that completes appends bytes to OUT, and counts them. -/
theorem Completes.out_eq {i : Instr} {s t : State} (h : Completes s i t) :
    ∃ bytes, t.out = s.out ++ bytes ∧ (bytes ≠ [] → Emits i) ∧
      (t.outcnt = s.outcnt + BitVec.ofNat 64 bytes.length ∨
        (StartsCount i ∧ t.outcnt = BitVec.ofNat 64 bytes.length)) := by
  cases h with
  | observe | ftw | setn | build | gen | upe =>
    exact ⟨[], (List.append_nil _).symm, fun h => absurd rfl h, .inl (BitVec.add_zero _).symm⟩
  | clr => exact ⟨[], (List.append_nil _).symm, fun h => absurd rfl h, .inr ⟨.inl rfl, rfl⟩⟩
  | pks sym => exact ⟨[], (List.append_nil _).symm, fun h => absurd rfl h, .inr ⟨.inr (.inl ⟨_, rfl⟩), rfl⟩⟩
  | upsMany sym => exact ⟨[], (List.append_nil _).symm, fun h => absurd rfl h, .inr ⟨.inr (.inr ⟨_, rfl⟩), rfl⟩⟩
  | upsOne sym =>
    exact ⟨_, rfl, fun _ => .inr (.inr (.inl ⟨_, rfl⟩)), .inr ⟨.inr (.inr ⟨_, rfl⟩), by simp⟩⟩
  | pkb b hc =>
    obtain ⟨bytes, acc, cnt, hp⟩ := packBits_frame (ctRead s.ct b).bits s
    rw [hp]; exact ⟨bytes, rfl, fun _ => .inl ⟨_, rfl⟩, .inl rfl⟩
  | pke sym =>
    obtain ⟨bytes, hp⟩ := flushPartial_frame s
    rw [hp]; exact ⟨bytes, rfl, fun _ => .inr (.inl ⟨_, rfl⟩), .inl rfl⟩
  | upb p hu =>
    obtain ⟨bytes, len, bits, rfl⟩ := unpackBits_frame hu
    exact ⟨bytes, rfl, fun _ => .inr (.inr (.inr ⟨_, rfl⟩)), .inl rfl⟩

/-- Settles O46: a command that does not complete emits nothing. -/
theorem outOnlyGrows : Obligations.OutOnlyGrows := by
  intro i s t h
  obtain ⟨-, rfl⟩ | ⟨e, -, rfl⟩ | ⟨-, -, hc⟩ := exec_cases h
  · exact ⟨[], by simp⟩
  · exact ⟨[], by simp⟩
  · exact hc.out_eq

end Sys2Proof.Machine
end

section
/-! PROOFS. The phase a FAULT was entered from, and the control invariant (10_state.md R39 items 1 to 5, 8 and 9). -/

namespace Sys2Proof.Machine

/-- Outside FAULT the origin is the phase. -/
theorem State.CameFrom.eq_of_ph {s : State} {p q : Phase} (h : s.CameFrom p) (hq : s.ph = q) (hf : q ≠ .fault) :
    p = q :=
  (h.current (hq ▸ hf)).trans hq

/-- A step into FAULT, or one that keeps the phase, keeps the origin. -/
theorem State.CameFrom.originAfter_eq {s t : State} {p : Phase} (h : s.CameFrom p)
    (ht : t.ph = .fault ∨ t.ph = s.ph) : originAfter p s t = p := by
  by_cases hs : s.ph = .fault
  · exact originAfter_of_stays_in_fault p hs (ht.elim id fun e => e.trans hs)
  · obtain ht | ht := ht
    · exact (originAfter_of_enters_fault p hs ht).trans (h.current hs).symm
    · exact (originAfter_of_ne_fault p s (ht ▸ hs)).trans (ht.trans (h.current hs).symm)

/-- CLR goes back to LOAD with everything clear. -/
theorem State.clear_cameFrom (s : State) : s.clear.CameFrom .load := by
  constructor <;> simp

/-- A state past BUILT has come from its phase when NM and CT are not empty and the packer and the unpacker are clear
outside their phases. -/
theorem State.cameFrom_of_coded {s : State} {p : Phase} (hp : s.ph = p)
    (hcoded : p = .coded ∨ p = .pack ∨ p = .unpack ∨ p = .done) (hnm : s.nm ≠ []) (hct : s.ct ≠ [])
    (hacc : p ≠ .pack → s.pacc = 0 ∧ s.pcnt = 0) (hcand : p ≠ .unpack → s.clen = 0 ∧ s.cbits = 0) : s.CameFrom p where
  notFault := by rintro rfl; simp at hcoded
  current _ := hp.symm
  loadClean := by rintro rfl; simp at hcoded
  treeKept _ := hnm
  builtNoCodes := by rintro rfl; simp at hcoded
  codesKept _ _ := hct
  accClear := hacc
  candClear := hcand

/-- A command that completes leaves the registers of its own phase, or, in FAULT, of the same origin (R23). -/
theorem State.CameFrom.completes {p : Phase} {i : Instr} {s t : State} (h : s.CameFrom p)
    (hl : legalIn i s.ph = true) (hc : Completes s i t) : t.CameFrom (originAfter p s t) := by
  have hstays (ht : t.ph = s.ph) : originAfter p s t = p := h.originAfter_eq (.inr ht)
  cases hc with
  | observe | ftw | setn => rw [hstays rfl]; exact { h with }
  | clr => exact { s.clear_cameFrom with }
  | build sym hn hm =>
    obtain rfl := h.eq_of_ph (by simpa [legalIn] using hl) (q := .load) nofun
    obtain ⟨hnm, hct, -⟩ := h.loadClean rfl
    exact {
      notFault := nofun
      current := fun _ => rfl
      loadClean := nofun
      treeKept := fun _ => mergeLoop_ne_nil (by simp [hnm]) hm
      builtNoCodes := fun _ => hct
      codesKept := fun _ hb => absurd rfl hb
      accClear := fun _ => h.accClear nofun
      candClear := fun _ => h.candClear nofun }
  | gen sym hg =>
    obtain rfl := h.eq_of_ph (by simpa [legalIn] using hl) (q := .built) nofun
    exact State.cameFrom_of_coded rfl (.inl rfl) (h.treeKept nofun) (generate_tableMade hg).2
      (fun _ => h.accClear nofun) fun _ => h.candClear nofun
  | pks sym =>
    obtain rfl := h.eq_of_ph (by simpa [legalIn] using hl) (q := .coded) nofun
    exact State.cameFrom_of_coded rfl (.inr (.inl rfl)) (h.treeKept nofun) (h.codesKept nofun nofun)
      (fun hp => absurd rfl hp) fun _ => h.candClear nofun
  | upsOne | upsMany =>
    obtain rfl := h.eq_of_ph (by simpa [legalIn] using hl) (q := .coded) nofun
    exact State.cameFrom_of_coded rfl (.inr (.inr (.inl rfl))) (h.treeKept nofun) (h.codesKept nofun nofun)
      (fun _ => h.accClear nofun) fun hp => absurd rfl hp
  | pkb b _ =>
    obtain ⟨bytes, acc, cnt, hp⟩ := packBits_frame (ctRead s.ct b).bits s
    rw [hstays (by rw [hp]; rfl), hp]
    have hpack : p = .pack := h.eq_of_ph (by simpa [legalIn] using hl) nofun
    exact { h with accClear := fun hne => absurd hpack hne }
  | pke sym =>
    obtain ⟨bytes, hp⟩ := flushPartial_frame s
    rw [hp]
    obtain rfl := h.eq_of_ph (by simpa [legalIn] using hl) (q := .pack) nofun
    exact State.cameFrom_of_coded rfl (.inr (.inr (.inr rfl))) (h.treeKept nofun) (h.codesKept nofun nofun)
      (fun _ => ⟨rfl, rfl⟩) fun _ => h.candClear nofun
  | upb x hu =>
    obtain ⟨bytes, len, bits, rfl⟩ := unpackBits_frame hu
    rw [hstays rfl]
    have hunpack : p = .unpack := h.eq_of_ph (by simpa [legalIn] using hl) nofun
    exact { h with candClear := fun hne => absurd hunpack hne }
  | upe sym =>
    obtain rfl := h.eq_of_ph (by simpa [legalIn] using hl) (q := .unpack) nofun
    exact State.cameFrom_of_coded rfl (.inr (.inr (.inr rfl))) (h.treeKept nofun) (h.codesKept nofun nofun)
      (fun _ => h.accClear nofun) fun _ => ⟨rfl, rfl⟩

/-- A raise takes the origin over from the state it leaves (R210). -/
theorem State.CameFrom.raise {p : Phase} {s : State} (h : s.CameFrom p) (e : Status) (op sym : BitVec 8) :
    (s.raise e op sym).CameFrom p where
  notFault := h.notFault
  current hf := absurd (State.raise_ph ..) hf
  loadClean := by simpa using h.loadClean
  treeKept := by simpa using h.treeKept
  builtNoCodes := by simpa using h.builtNoCodes
  codesKept := by simpa using h.codesKept
  accClear := by simpa using h.accClear
  candClear := by simpa using h.candClear

/-- Every command word keeps track of the origin. -/
theorem State.CameFrom.commandTo {p : Phase} {s t : State} (h : s.CameFrom p) (hc : CommandTo s t) :
    t.CameFrom (originAfter p s t) := by
  cases hc with
  | refused hf => rw [h.originAfter_eq (t := s.respond .eFaulted 0) (.inl hf)]; exact { h with }
  | raised op sym _ => rw [h.originAfter_eq (.inl (State.raise_ph ..))]; exact h.raise ..
  | completed hl _ hc => exact h.completes hl hc

/-- Settles O60: an idle step keeps the origin, a reset goes to LOAD, and a command keeps track of it. -/
theorem stepTracksWhereAFaultCameFrom : Obligations.StepTracksWhereAFaultCameFrom := by
  intro p s t h hs
  obtain rfl | ⟨l, rfl⟩ | ⟨l, hc⟩ := step_next hs
  · rwa [h.originAfter_eq (.inr rfl)]
  · rw [resetKeepingInput_eq_clear]
    exact State.clear_cameFrom _
  · have hl : State.CameFrom p { s with input := l } := { h with }
    exact hl.commandTo hc

end Sys2Proof.Machine
end

section
/-! PROOFS. Every step keeps the control invariant (10_state.md R39 items 1 to 5, 8 and 9). -/

namespace Sys2Proof.Machine

/-- CLR leaves the registers and memories clear, whatever they held (R101). -/
theorem State.clear_controlInv (s : State) : s.clear.ControlInv where
  ftForm := Memory.wf_nil 0 _
  nmForm := Memory.wf_nil NodeRec.zero _
  ctForm := Memory.wf_nil CodeEntry.zero _
  errIffFault := by simp
  errcmdClear _ := rfl
  nsymCounts := by simp [presentCount]
  sizeLegal := by simp
  origin := ⟨_, s.clear_cameFrom⟩
  accBound := by simp
  unpackCount := nofun
  unpackSingle := nofun
  outcntClear _ := rfl
  outcntLogged := by simp

/-- Only OK has the code 0 (R200). -/
theorem Status.code_ne_zero {e : Status} (h : e ≠ .ok) : e.code ≠ 0 := by
  cases e with
  | ok => exact absurd rfl h
  | _ => decide

/-- A raise latches an error that is not OK, or keeps the one latched (R210). -/
theorem State.ControlInv.raise {s : State} (h : s.ControlInv) {e : Status} (he : e ≠ .ok) (op sym : BitVec 8) :
    (s.raise e op sym).ControlInv := by
  obtain ⟨p, hp⟩ := h.origin
  have horigin : ∃ p, (s.raise e op sym).CameFrom p := ⟨p, hp.raise e op sym⟩
  by_cases hf : s.ph = .fault
  · rw [State.raise, if_pos hf] at horigin ⊢
    exact { h with origin := horigin }
  · rw [State.raise, if_neg hf] at horigin ⊢
    have hcode := Status.code_ne_zero he
    exact { h with
      errIffFault := iff_of_true hcode rfl
      errcmdClear := fun hz => absurd hz hcode
      origin := horigin
      unpackCount := nofun
      unpackSingle := nofun
      outcntClear := by simp }

/-- An operand SETN accepts has bit 63 clear (R112). -/
theorem setn_operandOk {sym : BitVec 8} {n : BitVec 64} (h : operandOk (.setn sym n) = true) :
    n.getLsbD 63 = false := by
  simpa [operandOk] using h

/-- One bit more fits an accumulator one bit longer (R31, R151). -/
theorem packBit_accBound {s : State} (h : s.pacc.toNat < 2 ^ s.pcnt.toNat) (x : Bool) :
    (packBit s x).pacc.toNat < 2 ^ (packBit s x).pcnt.toNat := by
  unfold packBit
  dsimp only
  split_ifs with h8
  · simp
  · have hcnt : (s.pcnt + 1).toNat = s.pcnt.toNat + 1 := by bv_omega
    rw [hcnt, BitVec.toNat_or]
    refine Nat.or_lt_two_pow ?_ ?_
    · have hle : (s.pacc <<< 1).toNat ≤ 2 * s.pacc.toNat := by bv_omega
      omega
    · cases x <;> simp

/-- PACC holds no more than PCNT bits while packing (R31). -/
theorem packBits_accBound (c : BitString) {s : State} (h : s.pacc.toNat < 2 ^ s.pcnt.toNat) :
    (packBits s c).pacc.toNat < 2 ^ (packBits s c).pcnt.toNat := by
  induction c generalizing s with
  | nil => exact h
  | cons x c ih => exact ih (packBit_accBound h x)

/-- What UPB's loop keeps: OUTCNT does not pass N, and with N bytes out the candidate is empty (R39 item 9). -/
theorem unpackBits_count {xs : BitString} {s u : State} (h : s.outcnt ≤ s.n ∧ (s.outcnt = s.n → s.clen = 0))
    (hu : unpackBits xs s = some u) : u.outcnt ≤ u.n ∧ (u.outcnt = u.n → u.clen = 0) := by
  refine unpackBits_induction (P := fun s => s.outcnt ≤ s.n ∧ (s.outcnt = s.n → s.clen = 0)) ?_ h hu
  intro s u x h hu
  obtain ⟨-, rfl⟩ | ⟨hn, v, -, rfl⟩ | ⟨hn, -, -, rfl⟩ := unpackBit_cases hu
  · exact h
  · refine ⟨?_, fun _ => rfl⟩
    simp only [State.setCandidate_outcnt, State.emit_outcnt, State.setCandidate_n, State.emit_n]
    bv_omega
  · exact ⟨h.1, fun he => absurd hn (he ▸ BitVec.lt_irrefl _)⟩

/-- PKB keeps the accumulator within its bits and counts what it emits (R151). -/
theorem State.ControlInv.pkb {s : State} (h : s.ControlInv) (hp : s.ph = .pack) (c : BitString)
    (horigin : ∃ p, ((packBits s c).respond .ok 0).CameFrom p) : ((packBits s c).respond .ok 0).ControlInv := by
  have hacc := packBits_accBound c h.accBound
  obtain ⟨bytes, acc, cnt, hpk⟩ := packBits_frame c s
  rw [hpk] at hacc horigin ⊢
  exact { h with
    origin := horigin
    accBound := hacc
    unpackCount := fun hu => by simp [State.emitted, hp] at hu
    unpackSingle := fun hu => by simp [State.emitted, hp] at hu
    outcntClear := fun hu => by simp [State.emitted, hp] at hu
    outcntLogged := s.emitted_outcnt_le h.outcntLogged bytes }

/-- UPB emits no more than N bytes in the call, and with one symbol, N being out already, none (R161, R162). -/
theorem State.ControlInv.upb {s u : State} (h : s.ControlInv) (hp : s.ph = .unpack) {xs : BitString}
    (hu : unpackBits xs s = some u) (horigin : ∃ p, (u.respond .ok 0).CameFrom p) : (u.respond .ok 0).ControlInv := by
  have hcount := unpackBits_count (h.unpackCount hp) hu
  have hsingle (h1 : s.nsym = 1) : u.outcnt = s.n := by
    have hfull := h.unpackSingle hp h1
    rw [unpackBits_of_full _ (hfull ▸ BitVec.lt_irrefl _)] at hu
    exact Option.some.inj hu ▸ hfull
  obtain ⟨bytes, len, bits, rfl⟩ := unpackBits_frame hu
  exact { h with
    origin := horigin
    unpackCount := fun _ => hcount
    unpackSingle := fun _ => hsingle
    outcntClear := fun hu => by simp [State.emitted, hp] at hu
    outcntLogged := s.emitted_outcnt_le h.outcntLogged bytes }

/-- A command that completes keeps the control invariant. -/
theorem State.ControlInv.completes {i : Instr} {s t : State} (h : s.ControlInv) (hl : legalIn i s.ph = true)
    (ho : operandOk i = true) (hc : Completes s i t) : t.ControlInv := by
  obtain ⟨p, hp⟩ := h.origin
  have horigin : ∃ p, t.CameFrom p := ⟨_, hp.completes hl hc⟩
  cases hc with
  | observe => exact { h with origin := horigin }
  | clr => exact { s.clear_controlInv with origin := horigin }
  | ftw v c =>
    have hload : s.ph = .load := by simpa [legalIn] using hl
    exact { h with
      ftForm := ftWrite_wf _ _ _ h.ftForm
      nsymCounts := nsymAfter_toNat h.ftForm h.nsymCounts _ _
      origin := horigin
      unpackSingle := fun hu => by simp [hload] at hu }
  | setn sym n =>
    have hnot : s.ph ≠ .unpack := fun hu => by simp [legalIn, hu] at hl
    exact { h with
      sizeLegal := setn_operandOk ho
      origin := horigin
      unpackCount := fun hu => absurd hu hnot
      unpackSingle := fun hu => absurd hu hnot }
  | build sym hn hm =>
    have hload : s.ph = .load := by simpa [legalIn] using hl
    exact { h with
      nmForm := mergeLoop_wf h.nmForm hm
      errIffFault := by simpa [hload] using h.errIffFault
      origin := horigin
      unpackCount := nofun
      unpackSingle := nofun
      outcntClear := fun _ => h.outcntClear (.inl hload) }
  | gen sym hg =>
    have hbuilt : s.ph = .built := by simpa [legalIn] using hl
    exact { h with
      ctForm := (generate_tableMade hg).1
      errIffFault := by simpa [hbuilt] using h.errIffFault
      origin := horigin
      unpackCount := nofun
      unpackSingle := nofun
      outcntClear := fun _ => h.outcntClear (.inr (.inl hbuilt)) }
  | pks sym =>
    have hcoded : s.ph = .coded := by simpa [legalIn] using hl
    exact { h with
      errIffFault := by simpa [hcoded] using h.errIffFault
      origin := horigin
      accBound := by simp
      unpackCount := nofun
      unpackSingle := nofun
      outcntClear := fun _ => rfl
      outcntLogged := Nat.zero_le _ }
  | upsOne sym h1 =>
    have hcoded : s.ph = .coded := by simpa [legalIn] using hl
    exact { h with
      errIffFault := by simpa [hcoded] using h.errIffFault
      origin := horigin
      unpackCount := fun _ => ⟨BitVec.le_refl _, fun _ => rfl⟩
      unpackSingle := fun _ _ => rfl
      outcntClear := by simp
      outcntLogged := by simp }
  | upsMany sym h1 =>
    have hcoded : s.ph = .coded := by simpa [legalIn] using hl
    exact { h with
      errIffFault := by simpa [hcoded] using h.errIffFault
      origin := horigin
      unpackCount := fun _ => ⟨BitVec.le_def.2 (Nat.zero_le _), fun _ => rfl⟩
      unpackSingle := fun _ hn => absurd hn h1
      outcntClear := fun _ => rfl
      outcntLogged := Nat.zero_le _ }
  | pkb b _ => exact h.pkb (by simpa [legalIn] using hl) _ horigin
  | pke sym =>
    have hpack : s.ph = .pack := by simpa [legalIn] using hl
    obtain ⟨bytes, hfl⟩ := flushPartial_frame s
    rw [hfl] at horigin ⊢
    exact { h with
      errIffFault := by simpa [State.emitted, hpack] using h.errIffFault
      origin := horigin
      accBound := by simp
      unpackCount := nofun
      unpackSingle := nofun
      outcntClear := by simp
      outcntLogged := s.emitted_outcnt_le h.outcntLogged bytes }
  | upb x hu => exact h.upb (by simpa [legalIn] using hl) hu horigin
  | upe sym hn =>
    have hunpack : s.ph = .unpack := by simpa [legalIn] using hl
    exact { h with
      errIffFault := by simpa [hunpack] using h.errIffFault
      origin := horigin
      unpackCount := nofun
      unpackSingle := nofun
      outcntClear := by simp }

/-- Every command word keeps the control invariant. -/
theorem State.ControlInv.commandTo {s t : State} (h : s.ControlInv) (hc : CommandTo s t) : t.ControlInv := by
  cases hc with
  | refused => exact { h with origin := h.origin.imp fun _ hp => { hp with } }
  | raised op sym he => exact h.raise he op sym
  | completed hl ho hc => exact h.completes hl ho hc

/-- No part of the control invariant speaks of what the host does next. -/
theorem State.ControlInv.withInput {s : State} (h : s.ControlInv) (l : List HostInput) :
    State.ControlInv { s with input := l } :=
  { h with origin := h.origin.imp fun _ hp => { hp with } }

/-- Settles O50: an idle step changes nothing, a reset leaves everything clear, and a command keeps the invariant. -/
theorem stepKeepsControlInvariant : Obligations.StepKeepsControlInvariant := by
  intro s t h hs
  obtain rfl | ⟨l, rfl⟩ | ⟨l, hc⟩ := step_next hs
  · exact h
  · exact resetKeepingInput_eq_clear l ▸ State.clear_controlInv _
  · exact (h.withInput l).commandTo hc

end Sys2Proof.Machine
end

section
/-! PROOFS. BUILD makes the tree of the table (42_tree.md R123, R127): each round of the merge loop on node memory is a
round of `mergeForest` on the trees that the nodes in its queue stand for. -/

namespace Sys2Proof.Machine

/-- The key is weight, tag and minleaf in one number (R121). -/
theorem NodeRec.key_toNat (x : NodeRec) :
    x.key.toNat = x.w.toNat * 512 + x.tag.bit.toNat * 256 + x.ml.toNat := by
  rw [NodeRec.key, BitVec.toNat_append, BitVec.toNat_append, ← Nat.shiftLeft_add_eq_or_of_lt x.ml.isLt,
    ← Nat.shiftLeft_add_eq_or_of_lt x.tag.bit.isLt]
  simp only [Nat.shiftLeft_eq]
  omega

/-- The record `x` is that of the root of `t`: its weight, kind and least leaf (R33, R121). -/
structure NodeRec.Holds (x : NodeRec) (t : Tree) : Prop where
  valid : x.valid = true
  tag : x.tag.bit.toNat = t.tag
  weight : x.w.toNat = t.weight
  minLeaf : x.ml.toNat = t.minLeaf

/-- Records sort as the trees they hold (R121, R127). -/
theorem NodeRec.Holds.key_lt_iff {x y : NodeRec} {t u : Tree} (hx : x.Holds t) (hy : y.Holds u) :
    x.key < y.key ↔ Tree.lt t u = true := by
  rw [BitVec.lt_def, x.key_toNat, y.key_toNat, Tree.lt, decide_eq_true_iff, ← hx.tag, ← hx.weight, ← hx.minLeaf,
    ← hy.tag, ← hy.weight, ← hy.minLeaf]
  have := x.ml.isLt
  have := y.ml.isLt
  have := x.tag.bit.isLt
  have := y.tag.bit.isLt
  omega

/-- Node `i` is the root of a copy of the tree in node memory. -/
def Represents (nm : Memory NodeRec) : Nat → Tree → Prop
  | i, .leaf v w => (nmRead nm i).Holds (.leaf v w)
  | i, .internal w a b => (nmRead nm i).Holds (.internal w a b) ∧
      Represents nm (nmRead nm i).l.toNat a ∧ Represents nm (nmRead nm i).r.toNat b

/-- The root's record holds the tree. -/
theorem Represents.holds {nm : Memory NodeRec} {i : Nat} {t : Tree} (h : Represents nm i t) : (nmRead nm i).Holds t := by
  cases t with
  | leaf => exact h
  | internal => exact h.1

/-- A node in use is one of the entries of NM. -/
theorem Represents.lt_nodeMax {nm : Memory NodeRec} {i : Nat} {t : Tree} (h : Represents nm i t) :
    i < Config.nodeMax := by
  by_contra hi
  have hv := h.holds.valid
  simp [nmRead, hi, NodeRec.zero] at hv

/-- A write to an entry that holds no node changes no tree. -/
theorem Represents.write_unused {nm : Memory NodeRec} {i j : Nat} {t : Tree} (h : Represents nm i t)
    (hj : (nmRead nm j).valid = false) (x : NodeRec) : Represents (nmWrite nm j x) i t := by
  have hread {i : Nat} {t : Tree} (h : Represents nm i t) : nmRead (nmWrite nm j x) i = nmRead nm i :=
    nmRead_nmWrite_other nm x fun e => by simp [← e, h.holds.valid] at hj
  induction t generalizing i with
  | leaf v w => rw [Represents, hread h]; exact h
  | internal w a b iha ihb =>
    obtain ⟨hroot, ha, hb⟩ := h
    rw [Represents, hread (show Represents nm i (.internal w a b) from ⟨hroot, ha, hb⟩)]
    exact ⟨hroot, iha ha, ihb hb⟩

/-- A tree has a leaf. -/
theorem Tree.leaves_length_pos (t : Tree) : 0 < t.leaves.length := by
  induction t with
  | leaf => exact Nat.one_pos
  | internal w a b iha _ => rw [Tree.leaves, List.length_append]; omega

/-- A tree in node memory is read back, at most as many nodes deep as it has leaves. -/
theorem Represents.treeOf_eq {nm : Memory NodeRec} {fuel i : Nat} {t : Tree} (h : Represents nm i t)
    (hf : t.leaves.length ≤ fuel) : treeOf nm fuel i = some t := by
  induction t generalizing fuel i with
  | leaf v w =>
    obtain ⟨hv, ht, hw, hm⟩ := h
    cases fuel with
    | zero => simp [Tree.leaves] at hf
    | succ fuel =>
      have hml : (nmRead nm i).ml = v := BitVec.eq_of_toNat_eq hm
      have htag : (nmRead nm i).tag = .leaf := by
        cases htag : (nmRead nm i).tag <;> simp [htag, NodeTag.bit, Tree.tag] at ht ⊢
      simp [treeOf, hv, htag, hml, hw, Tree.weight]
  | internal w a b iha ihb =>
    obtain ⟨⟨hv, ht, hw, -⟩, ha, hb⟩ := h
    have hapos := a.leaves_length_pos
    have hbpos := b.leaves_length_pos
    rw [Tree.leaves, List.length_append] at hf
    cases fuel with
    | zero => omega
    | succ fuel =>
      have htag : (nmRead nm i).tag = .internal := by
        cases htag : (nmRead nm i).tag <;> simp [htag, NodeTag.bit, Tree.tag] at ht ⊢
      simp [treeOf, hv, htag, hw, Tree.weight, iha (fuel := fuel) ha (by omega),
        ihb (fuel := fuel) hb (by omega)]

/-- A merge round: node memory holds the trees of the queue, entries `256` to `256 + k - 1` are the internal nodes made
so far, nothing is past them, and there is room in NM and in the weights for all merges still to come (R33, R130). -/
structure Forest (nm : Memory NodeRec) (k : Nat) (q : List (Nat × Tree)) : Prop where
  form : Memory.wf NodeRec.zero Config.nodeMax nm = true
  nodes : ∀ p ∈ q, Represents nm p.1 p.2
  weights : (q.map (fun p => p.2.weight)).sum < 2 ^ 39
  room : k + q.length ≤ 256
  made : ∀ k' < k, (nmRead nm (Config.internalBase + k')).valid = true ∧
    (nmRead nm (Config.internalBase + k')).tag = .internal
  rest : ∀ i, Config.internalBase + k ≤ i → nmRead nm i = NodeRec.zero

/-- The order of the queue does not matter to what is in it. -/
theorem Forest.perm {nm : Memory NodeRec} {k : Nat} {q q' : List (Nat × Tree)} (h : Forest nm k q) (hp : q'.Perm q) :
    Forest nm k q' where
  form := h.form
  nodes p hm := h.nodes p (hp.mem_iff.1 hm)
  weights := (hp.map fun p => p.2.weight).sum_eq ▸ h.weights
  room := hp.length_eq ▸ h.room
  made := h.made
  rest := h.rest

/-- The record that joins two nodes holds the tree that joins their trees, when the weights do not overflow (R123,
R127). -/
theorem NodeRec.Holds.join {x y : NodeRec} {t u : Tree} (hx : x.Holds t) (hy : y.Holds u)
    (hw : t.weight + u.weight < 2 ^ 39) (i j : Nat) :
    (NodeRec.join i j x y).Holds (.internal (t.weight + u.weight) t u) where
  valid := rfl
  tag := rfl
  weight := by
    rw [NodeRec.join, BitVec.toNat_add, hx.weight, hy.weight, Nat.mod_eq_of_lt hw, Tree.weight]
  minLeaf := by
    simp only [NodeRec.join, Tree.minLeaf, BitVec.lt_def, apply_ite BitVec.toNat, hx.minLeaf, hy.minLeaf]
    split_ifs <;> omega

/-- One merge keeps the forest (R123). -/
theorem Forest.merge {nm : Memory NodeRec} {k i j : Nat} {a b : Tree} {q : List (Nat × Tree)}
    (h : Forest nm k ((i, a) :: (j, b) :: q)) :
    Forest (nmWrite nm (Config.internalBase + k) (NodeRec.join i j (nmRead nm i) (nmRead nm j))) (k + 1)
      ((Config.internalBase + k, .internal (a.weight + b.weight) a b) :: q) := by
  obtain ⟨hi, hj, hq⟩ : Represents nm i a ∧ Represents nm j b ∧ ∀ p ∈ q, Represents nm p.1 p.2 := by
    simpa using h.nodes
  have hweights : a.weight + (b.weight + (q.map fun p => p.2.weight).sum) < 2 ^ 39 := by simpa using h.weights
  have hroom : k + 2 + q.length ≤ 256 := by simpa [add_assoc, add_comm 2] using h.room
  have hlt : Config.internalBase + k < Config.nodeMax := by
    simp only [Config.internalBase, Config.nodeMax]; omega
  have hunused : (nmRead nm (Config.internalBase + k)).valid = false := by rw [h.rest _ le_rfl]; rfl
  have hread (n : Nat) := nmRead_nmWrite nm (Config.internalBase + k) n
    (NodeRec.join i j (nmRead nm i) (nmRead nm j)) h.form hlt
  have hindex {n : Nat} {t : Tree} (hn : Represents nm n t) : (BitVec.ofNat 9 n).toNat = n := by
    have hn : n < 511 := hn.lt_nodeMax
    simp; omega
  refine ⟨nmWrite_wf _ _ _ h.form hlt, ?_, ?_, ?_, fun k' hk' => ?_, fun n hn => ?_⟩
  · refine List.forall_mem_cons.2 ⟨?_, fun p hp => (hq p hp).write_unused hunused _⟩
    refine ⟨?_, ?_, ?_⟩
    · rw [hread, if_pos rfl]
      exact hi.holds.join hj.holds (by omega) i j
    · rw [hread, if_pos rfl, NodeRec.join, hindex hi]
      exact hi.write_unused hunused _
    · rw [hread, if_pos rfl, NodeRec.join, hindex hj]
      exact hj.write_unused hunused _
  · simpa [Tree.weight, add_assoc] using hweights
  · simp only [List.length_cons]; omega
  · rw [hread]
    split_ifs with he
    · exact ⟨rfl, rfl⟩
    · exact h.made k' (by omega)
  · rw [hread, if_neg (by omega)]
    exact h.rest n (by omega)

/-- The order of a queue with its trees. -/
def treeLt (p q : Nat × Tree) : Bool := Tree.lt p.2 q.2

/-- The least node of a queue is the node of the least tree. -/
theorem extractMin_indices {nm : Memory NodeRec} {q : List (Nat × Tree)} (h : ∀ p ∈ q, Represents nm p.1 p.2) :
    extractMin (keyLt nm) (q.map Prod.fst) = (extractMin treeLt q).map (fun p => (p.1.1, p.2.map Prod.fst)) :=
  extractMin_map treeLt (keyLt nm) Prod.fst q fun a ha b hb => by
    rw [Bool.eq_iff_iff, keyLt, decide_eq_true_iff]
    exact (h a ha).holds.key_lt_iff (h b hb).holds

/-- The least tree of a queue. -/
theorem extractMin_trees (q : List (Nat × Tree)) :
    extractMin Tree.lt (q.map Prod.snd) = (extractMin treeLt q).map (fun p => (p.1.2, p.2.map Prod.snd)) :=
  extractMin_map treeLt Tree.lt Prod.snd q fun _ _ _ _ => rfl

/-- The merge loop computes `mergeForest` (R127): the node it ends with is the root of the merged tree. -/
theorem mergeLoop_eq_mergeForest {fuel k root k' : Nat} {nm nm' : Memory NodeRec} {q : List (Nat × Tree)}
    (hq : Forest nm k q) (h : mergeLoop fuel k nm (q.map Prod.fst) = some (root, k', nm')) :
    ∃ t, mergeForest fuel (q.map Prod.snd) = some t ∧ Forest nm' k' [(root, t)] ∧ k' + 1 = k + q.length := by
  induction fuel generalizing k nm q with
  | zero => simp [mergeLoop] at h
  | succ fuel ih =>
    rw [mergeLoop, extractMin_indices hq.nodes] at h
    rw [mergeForest, extractMin_trees]
    cases ha : extractMin treeLt q with
    | none => simp [ha] at h
    | some p =>
      obtain ⟨⟨i, a⟩, q1⟩ := p
      have hq1 := hq.perm (extractMin_perm _ ha)
      have hl1 := extractMin_length _ ha
      simp only [ha, Option.map_some] at h ⊢
      rw [extractMin_indices fun p hp => hq1.nodes p (List.mem_cons_of_mem _ hp)] at h
      rw [extractMin_trees]
      cases hb : extractMin treeLt q1 with
      | none =>
        obtain rfl := (extractMin_eq_none _ _).1 hb
        obtain ⟨rfl, rfl, rfl⟩ : i = root ∧ k = k' ∧ nm = nm' := by simpa [hb] using h
        exact ⟨a, by simp, hq1, by rw [← hl1]; rfl⟩
      | some p =>
        obtain ⟨⟨j, b⟩, q2⟩ := p
        have hq2 := (hq1.perm ((extractMin_perm _ hb).cons _)).merge
        have hl2 := extractMin_length _ hb
        obtain ⟨t, ht, hroot, hcount⟩ := ih hq2 (by simpa [hb] using h)
        rw [List.length_cons] at hcount
        exact ⟨t, by simpa using ht, hroot, by omega⟩

/-- The leaves of the present symbols, each with its index (R123). -/
def leafForest (ft : Memory (BitVec 31)) : List (Nat × Tree) :=
  (symbols.filter (fun v => decide (ftRead ft v ≠ 0))).map (fun v => (v.toNat, .leaf v (ftRead ft v).toNat))

/-- The indices are the first queue of BUILD. -/
theorem leafForest_map_fst (ft : Memory (BitVec 31)) : (leafForest ft).map Prod.fst = leafQueue ft := by
  simp [leafForest, leafQueue, Function.comp_def]

/-- The trees are the first forest of `buildTree`. -/
theorem leafForest_map_snd (ft : Memory (BitVec 31)) :
    (leafForest ft).map Prod.snd = (tableOf ft).map (fun e => .leaf e.1 e.2) := by
  simp [leafForest, tableOf, Function.comp_def]

/-- There is one leaf for each present symbol. -/
theorem leafForest_length (ft : Memory (BitVec 31)) : (leafForest ft).length = presentCount ft := by
  simp [leafForest, presentCount]

/-- The counts of a table add up to less than a weight can hold (R130). -/
theorem leafForest_weight_lt (ft : Memory (BitVec 31)) : ((leafForest ft).map (fun p => p.2.weight)).sum < 2 ^ 39 := by
  have hle : ∀ w ∈ (leafForest ft).map (fun p => p.2.weight), w ≤ 2 ^ 31 - 1 := by
    intro w hw
    obtain ⟨v, -, rfl⟩ : ∃ v, ftRead ft v ≠ 0 ∧ (ftRead ft v).toNat = w := by
      simpa [leafForest, Tree.weight] using hw
    exact Nat.le_sub_one_of_lt (ftRead ft v).isLt
  have hsum := List.sum_le_card_nsmul _ _ hle
  have hlen := leafForest_length ft ▸ presentCount_le ft
  rw [List.length_map, smul_eq_mul] at hsum
  omega

/-- When the leaf slots are written, the queue holds the leaves of the table (R123). -/
theorem leafForest_forest (ft : Memory (BitVec 31)) : Forest (fillLeaves ft []) 0 (leafForest ft) where
  form := fillLeaves_wf ft (Memory.wf_nil _ _)
  nodes p hp := by
    obtain ⟨v, hv, rfl⟩ := List.mem_map.1 hp
    have hv : ftRead ft v ≠ 0 := by simpa using (List.mem_filter.1 hv).2
    rw [Represents, nmRead_fillLeaves ft (Memory.wf_nil _ _), leafSlot, if_neg hv]
    refine ⟨rfl, rfl, ?_, rfl⟩
    exact BitVec.toNat_setWidth_of_le (by decide)
  weights := leafForest_weight_lt ft
  room := by rw [leafForest_length, Nat.zero_add]; exact presentCount_le ft
  made := nofun
  rest i hi := (nmRead_fillLeaves_of_ge ft (Memory.wf_nil _ _) hi).trans (nmRead_nil i)

/-- BUILD leaves the tree of the table in node memory (R127, R39 item 6). -/
theorem State.ControlInv.build_treeHeld {s : State} (h : s.ControlInv) (hload : s.ph = .load) {root k : Nat}
    {nm : Memory NodeRec}
    (hm : mergeLoop (leafQueue s.ft).length 0 (fillLeaves s.ft s.nm) (leafQueue s.ft) = some (root, k, nm)) :
    State.TreeHeld { s with nm := nm, root := BitVec.ofNat 9 root, nint := BitVec.ofNat 8 k, ph := .built } := by
  rw [(h.loadClean hload).1] at hm
  have hslots := nmRead_mergeLoop_leafSlot (Memory.wf_nil _ _) hm
  rw [leafQueue_length, ← leafForest_map_fst] at hm
  obtain ⟨t, ht, hforest, hcount⟩ := mergeLoop_eq_mergeForest (leafForest_forest s.ft) hm
  have hbuild : buildTree (tableOf s.ft) = some t := by
    rw [buildTree, ← leafForest_map_snd, ← ht]
    simp [tableOf, presentCount]
  have hroot : Represents nm root t := hforest.nodes (root, t) (List.mem_singleton.2 rfl)
  have hpresent := presentCount_le s.ft
  rw [leafForest_length, Nat.zero_add] at hcount
  have hrootIndex : (BitVec.ofNat 9 root).toNat = root := by
    have hlt : root < 511 := hroot.lt_nodeMax
    simp; omega
  have hnint : (BitVec.ofNat 8 k).toNat = k := by simp; omega
  have htree : State.tree { s with nm := nm, root := BitVec.ofNat 9 root, nint := BitVec.ofNat 8 k, ph := .built } =
      some t := by
    refine (congrArg _ hrootIndex).trans (hroot.treeOf_eq ?_)
    rw [(buildTree_leaves_perm hbuild).length_eq, tableOf_map_fst]
    exact hpresent
  exact {
    someSymbol := by
      have := h.nsymCounts
      show 1 ≤ s.nsym.toNat
      omega
    mergeCount := by rw [hnint, hcount]; exact h.nsymCounts.symm
    leafSlots := hslots
    internalSlots := fun j _ => by
      rw [hnint]
      by_cases hj : j < k
      · simp [hforest.made j hj, hj]
      · rw [hforest.rest _ (by omega)]
        simp [hj, NodeRec.zero]
    restZero := fun i hi => hforest.rest i (by rwa [hnint] at hi)
    rootValid := by rw [hrootIndex]; exact hroot.holds.valid
    treeRead := by simp [htree]
    treeSpec := htree.trans hbuild.symm }

end Sys2Proof.Machine
end

section
/-! PROOFS. Every step keeps the tree invariant (10_state.md R39 item 6). -/

namespace Sys2Proof.Machine

/-- Past LOAD and outside FAULT a BUILD has succeeded in this call. -/
theorem State.treeBuilt_of_ph {s : State} (hl : s.ph ≠ .load) (hf : s.ph ≠ .fault) : s.treeBuilt := by
  cases h : s.ph <;> simp_all [State.treeBuilt]

/-- In LOAD no BUILD has succeeded in this call. -/
theorem State.not_treeBuilt_of_load {s : State} (h : s.ph = .load) : ¬ s.treeBuilt := by
  simp [State.treeBuilt, h]

/-- A raise changes no memory, so after it the tree is still there, or still absent (R210). -/
theorem State.ControlInv.treeBuilt_raise {s : State} (h : s.ControlInv) {e : Status} {op sym : BitVec 8}
    (hb : (s.raise e op sym).treeBuilt) : s.treeBuilt := by
  obtain ⟨p, hp⟩ := h.origin
  exact hp.treeBuilt_iff.2 ((hp.raise e op sym).treeBuilt_iff.1 hb)

/-- A raise keeps the tree. -/
theorem State.TreeHeld.raise {s : State} (h : s.TreeHeld) (e : Status) (op sym : BitVec 8) :
    (s.raise e op sym).TreeHeld := by
  unfold State.raise
  split
  · exact { h with }
  · exact { h with }

/-- A command that completes keeps the tree invariant: BUILD makes the tree, FTW changes the table only while there is
none, and the others change neither. -/
theorem State.TreeInv.completes {i : Instr} {s t : State} (h : s.TreeInv) (hcontrol : s.ControlInv)
    (hl : legalIn i s.ph = true) (hc : Completes s i t) : t.TreeInv := by
  cases hc with
  | observe | setn => exact fun hb => { h hb with }
  | clr => exact fun hb => absurd hb (State.not_treeBuilt_of_load rfl)
  | ftw v c =>
    have hload : s.ph = .load := by simpa [legalIn] using hl
    exact fun hb => absurd hb (State.not_treeBuilt_of_load hload)
  | build sym hn hm =>
    have hload : s.ph = .load := by simpa [legalIn] using hl
    exact fun _ => { hcontrol.build_treeHeld hload hm with }
  | gen sym hg =>
    have hbuilt : s.ph = .built := by simpa [legalIn] using hl
    exact fun _ => { h (.inl hbuilt) with }
  | pks | upsOne | upsMany =>
    have hcoded : s.ph = .coded := by simpa [legalIn] using hl
    exact fun _ => { h (.inr (.inl hcoded)) with }
  | pkb b _ =>
    obtain ⟨bytes, acc, cnt, hp⟩ := packBits_frame (ctRead s.ct b).bits s
    rw [hp]
    exact fun hb => { h hb with }
  | pke sym =>
    have hpack : s.ph = .pack := by simpa [legalIn] using hl
    obtain ⟨bytes, hp⟩ := flushPartial_frame s
    rw [hp]
    exact fun _ => { h (.inr (.inr (.inl hpack))) with }
  | upb x hu =>
    obtain ⟨bytes, len, bits, rfl⟩ := unpackBits_frame hu
    exact fun hb => { h hb with }
  | upe sym hn =>
    have hunpack : s.ph = .unpack := by simpa [legalIn] using hl
    exact fun _ => { h (.inr (.inr (.inr (.inl hunpack)))) with }

/-- Every command word keeps the tree invariant. -/
theorem State.TreeInv.commandTo {s t : State} (h : s.TreeInv) (hcontrol : s.ControlInv) (hc : CommandTo s t) :
    t.TreeInv := by
  cases hc with
  | refused => exact fun hb => { h hb with }
  | raised op sym => exact fun hb => (h (hcontrol.treeBuilt_raise hb)).raise ..
  | completed hl _ hc => exact h.completes hcontrol hl hc

/-- Settles O51: an idle step changes nothing, a reset leaves no tree, and a command keeps the invariant. -/
theorem stepKeepsTreeInvariant : Obligations.StepKeepsTreeInvariant := by
  intro s t hcontrol h hs
  obtain rfl | ⟨l, rfl⟩ | ⟨l, hc⟩ := step_next hs
  · exact h
  · exact fun hb => absurd hb (State.not_treeBuilt_of_load rfl)
  · have hl : State.TreeInv { s with input := l } := fun hb => { h hb with }
    exact hl.commandTo (hcontrol.withInput l) hc

end Sys2Proof.Machine
end

section
/-! PROOFS. GEN makes the codes of the tree (43_codegen.md R140 to R142), and every step keeps the code invariant
(10_state.md R39 item 7). -/

namespace Sys2Proof.Machine

/-- Writing the codes of distinct symbols gives each symbol its code and leaves the other entries alone. -/
theorem ctRead_writeCodes {cs : Codes} (hn : (cs.map Prod.fst).Nodup) {ct : Memory CodeEntry}
    (hw : Memory.wf CodeEntry.zero Config.nsymMax ct = true) (v : Byte) :
    ctRead (writeCodes ct cs) v = ((cs.lookup v).map CodeEntry.ofBits).getD (ctRead ct v) := by
  induction cs generalizing ct with
  | nil => rfl
  | cons e cs ih =>
    obtain ⟨u, c⟩ := e
    obtain ⟨hu, hn⟩ := List.nodup_cons.1 hn
    refine (ih hn (ctWrite_wf ct u _ hw)).trans ?_
    rw [ctRead_ctWrite _ _ _ _ hw]
    by_cases hv : v = u
    · subst hv
      have hnone : cs.lookup v = none := List.lookup_eq_none_iff.2 fun p hp => by
        simpa using fun e : v = p.1 => hu (List.mem_map.2 ⟨p, hp, e.symm⟩)
      simp [hnone]
    · have hb : (v == u) = false := by simpa using hv
      simp [List.lookup_cons, hb, hv]

/-- A tree has one code for each leaf (R141). -/
theorem Tree.codes_map_fst (t : Tree) : t.codes.map Prod.fst = t.leaves := by
  cases t with
  | leaf v w => rfl
  | internal w a b => exact Tree.paths_map_fst _ []

/-- The codes of a tree that is read in node memory have 1 to 255 bits (R35, R140). -/
theorem Tree.codes_length {nm : Memory NodeRec} {i : Nat} {t : Tree} (ht : treeOf nm (Config.codeMax + 1) i = some t)
    {v : Byte} {c : BitString} (hc : (v, c) ∈ t.codes) : 1 ≤ c.length ∧ c.length ≤ Config.codeMax := by
  cases t with
  | leaf u w =>
    obtain ⟨-, rfl⟩ : v = u ∧ c = [false] := by simpa [Tree.codes] using hc
    decide
  | internal w a b =>
    obtain ⟨d, w', hcd, hd⟩ := (Tree.mem_paths _ [] c v).1 hc
    obtain rfl : c = d := hcd
    refine ⟨?_, Nat.lt_succ_iff.1 (treeOf_descend_length ht hd)⟩
    cases c with
    | nil => simp [Tree.descend] at hd
    | cons x c => simp

/-- The table of a tree's codes gives a symbol the code the tree gives it, and no other symbol an entry. -/
theorem ctRead_writeCodes_codes {t : Tree} (hn : t.leaves.Nodup) (v : Byte) :
    ctRead (writeCodes [] t.codes) v = ((t.codes.lookup v).map CodeEntry.ofBits).getD CodeEntry.zero :=
  ctRead_writeCodes (t.codes_map_fst ▸ hn) (Memory.wf_nil _ _) v

/-- GEN leaves the codes of the tree in CT (R141, R39 item 7). -/
theorem State.TreeHeld.gen_codesHeld {s : State} (h : s.TreeHeld) {ct : Memory CodeEntry}
    (hg : generate s.nm s.root.toNat = some ct) : State.CodesHeld { s with ct := ct, ph := .coded } := by
  obtain ⟨t, ht⟩ := Option.ne_none_iff_exists'.1 h.treeRead
  obtain rfl : writeCodes [] t.codes = ct := Option.some.inj ((h.generate_eq ht).symm.trans hg)
  have hn := h.leaves_nodup ht
  have hkeys : (t.codes.map Prod.fst).Nodup := t.codes_map_fst ▸ hn
  have hread := ctRead_writeCodes_codes hn
  have hlen {v : Byte} {c : BitString} (hc : t.codes.lookup v = some c) : 1 ≤ c.length ∧ c.length ≤ Config.codeMax :=
    Tree.codes_length ht ((lookup_eq_some_iff_mem hkeys v c).1 hc)
  have hcoded (v : Byte) : (ctRead (writeCodes [] t.codes) v).len ≠ 0 ↔ v ∈ t.leaves := by
    rw [hread, ← t.codes_map_fst]
    cases hc : t.codes.lookup v with
    | none =>
      refine iff_of_false (by simp [CodeEntry.zero]) fun hm => ?_
      obtain ⟨p, hp, rfl⟩ := List.mem_map.1 hm
      simpa using List.lookup_eq_none_iff.1 hc p hp
    | some c =>
      exact iff_of_true (CodeEntry.ofBits_len_ne_zero (hlen hc).1 (hlen hc).2)
        (List.mem_map.2 ⟨_, (lookup_eq_some_iff_mem hkeys v c).1 hc, rfl⟩)
  refine ⟨.inr (.inl rfl), fun v => ?_, fun t' ht' v => ?_, fun v => ?_⟩
  · rw [hcoded, (h.leaves_perm ht).mem_iff]
    simp
  · obtain rfl : t = t' := Option.some.inj (ht.symm.trans ht')
    refine Option.ext fun c => ?_
    rw [lookup_codesOf_eq_some, hread]
    cases hc : t.codes.lookup v with
    | none => simp [CodeEntry.zero]
    | some d =>
      have hd := CodeEntry.ofBits_len_ne_zero (hlen hc).1 (hlen hc).2
      simpa [CodeEntry.bits_ofBits d (hlen hc).2] using fun _ => hd
  · rw [hread]
    cases hc : t.codes.lookup v with
    | none => rfl
    | some c =>
      exact (congrArg leftAlign (CodeEntry.bits_ofBits c (hlen hc).2)).symm

/-- In LOAD and BUILT no GEN has succeeded in this call. -/
theorem State.not_codesMade {s : State} (h : s.ph = .load ∨ s.ph = .built) : ¬ s.codesMade := by
  obtain h | h := h <;> simp [State.codesMade, h]

/-- A raise changes no memory, so after it the code table is still there, or still absent (R210). -/
theorem State.ControlInv.codesMade_raise {s : State} (h : s.ControlInv) {e : Status} {op sym : BitVec 8}
    (hg : (s.raise e op sym).codesMade) : s.codesMade := by
  obtain ⟨p, hp⟩ := h.origin
  exact hp.codesMade_iff.2 ((hp.raise e op sym).codesMade_iff.1 hg)

/-- The code table depends on FT, NM, ROOT and CT only. -/
theorem State.CodesHeld.of_eq {s t : State} (h : s.CodesHeld) (hb : t.treeBuilt) (hft : t.ft = s.ft)
    (hnm : t.nm = s.nm) (hroot : t.root = s.root) (hct : t.ct = s.ct) : t.CodesHeld where
  built := hb
  codedSymbols := by rw [hct, hft]; exact h.codedSymbols
  codesSpec := by rw [hct, State.tree, hnm, hroot]; exact h.codesSpec
  aligned := by rw [hct]; exact h.aligned

/-- A command that completes keeps the code invariant: GEN makes the codes, FTW and BUILD work only while there are none,
and the others change neither the tree nor its codes. -/
theorem State.CodeInv.completes {i : Instr} {s t : State} (h : s.CodeInv) (htree : s.TreeInv)
    (hl : legalIn i s.ph = true) (hc : Completes s i t) : t.CodeInv := by
  have hnone (ht : t.ph = .load ∨ t.ph = .built) : t.CodeInv := fun hg => absurd hg (State.not_codesMade ht)
  cases hc with
  | observe | setn => exact fun hg => { h hg with }
  | clr => exact hnone (.inl rfl)
  | ftw v c => exact hnone (.inl (by simpa [legalIn] using hl))
  | build sym hn hm => exact hnone (.inr rfl)
  | gen sym hg =>
    have hbuilt : s.ph = .built := by simpa [legalIn] using hl
    exact fun _ => { (htree (.inl hbuilt)).gen_codesHeld hg with }
  | pks | upsOne | upsMany =>
    have hcoded : s.ph = .coded := by simpa [legalIn] using hl
    exact fun _ => (h (.inl hcoded)).of_eq (State.treeBuilt_of_ph nofun nofun) rfl rfl rfl rfl
  | pkb b _ =>
    obtain ⟨bytes, acc, cnt, hp⟩ := packBits_frame (ctRead s.ct b).bits s
    rw [hp]
    exact fun hg => { h hg with }
  | pke sym =>
    have hpack : s.ph = .pack := by simpa [legalIn] using hl
    obtain ⟨bytes, hp⟩ := flushPartial_frame s
    rw [hp]
    exact fun _ => (h (.inr (.inl hpack))).of_eq (State.treeBuilt_of_ph nofun nofun) rfl rfl rfl rfl
  | upb x hu =>
    obtain ⟨bytes, len, bits, rfl⟩ := unpackBits_frame hu
    exact fun hg => { h hg with }
  | upe sym hn =>
    have hunpack : s.ph = .unpack := by simpa [legalIn] using hl
    exact fun _ => (h (.inr (.inr (.inl hunpack)))).of_eq (State.treeBuilt_of_ph nofun nofun) rfl rfl rfl rfl

/-- Every command word keeps the code invariant. -/
theorem State.CodeInv.commandTo {s t : State} (h : s.CodeInv) (hcontrol : s.ControlInv) (htree : s.TreeInv)
    (hc : CommandTo s t) : t.CodeInv := by
  cases hc with
  | refused => exact fun hg => { h hg with }
  | @raised e op sym =>
    intro hg
    have hheld := h (hcontrol.codesMade_raise hg)
    obtain ⟨p, hp⟩ := hcontrol.origin
    have hbuilt := (hp.raise e op sym).treeBuilt_iff.2 (hp.treeBuilt_iff.1 hheld.built)
    exact hheld.of_eq hbuilt (State.raise_ft ..) (State.raise_nm ..) (State.raise_root ..) (State.raise_ct ..)
  | completed hl _ hc => exact h.completes htree hl hc

/-- Settles O52: an idle step changes nothing, a reset leaves no code, and a command keeps the invariant. -/
theorem stepKeepsCodeInvariant : Obligations.StepKeepsCodeInvariant := by
  intro s t hcontrol htree h hs
  obtain rfl | ⟨l, rfl⟩ | ⟨l, hc⟩ := step_next hs
  · exact h
  · exact fun hg => absurd hg (State.not_codesMade (.inl rfl))
  · have hl : State.CodeInv { s with input := l } := fun hg => { h hg with }
    exact hl.commandTo (hcontrol.withInput l) (fun hb => { htree hb with }) hc

end Sys2Proof.Machine
end

section
/-! PROOFS. Every step keeps the candidate short and the beginning of a code (10_state.md R32, 45_unpack.md R165); the
invariants together hold in every state a run from reset reaches. -/

namespace Sys2Proof.Machine

/-- An empty candidate. -/
theorem State.candidateInv_of_clear {s : State} (hlen : s.clen = 0) (hbits : s.cbits = 0) : s.CandidateInv := by
  have hnil : s.candidate = [] := by rw [State.candidate, hlen, leftBits_zero]
  exact ⟨by rw [hnil, hbits, leftAlign_nil], by simp [hlen], .inl hnil⟩

/-- Below every node of a tree there is a leaf. -/
theorem Tree.exists_descend_leaf (t : Tree) : ∃ c v w, t.descend c = some (.leaf v w) := by
  induction t with
  | leaf v w => exact ⟨[], v, w, rfl⟩
  | internal w a b iha _ =>
    obtain ⟨c, v, w', hc⟩ := iha
    exact ⟨false :: c, v, w', hc⟩

/-- On the way down the tree the candidate is the beginning of a code (R165). -/
theorem State.Descending.begun {t : Tree} {s : State} (h : s.Descending t) :
    ∃ v : Byte, (ctRead s.ct v).len ≠ 0 ∧ s.candidate <+: (ctRead s.ct v).bits ∧ s.candidate ≠ (ctRead s.ct v).bits := by
  obtain ⟨w, a, b, hnode⟩ := h.atCandidate
  obtain ⟨c, v, w', hleaf⟩ := (Tree.internal w a b).exists_descend_leaf
  obtain ⟨hlen, hbits⟩ := (h.codes v (s.candidate ++ c)).2 ⟨w', by rw [Tree.descend_append, hnode]; exact hleaf⟩
  refine ⟨v, hlen, hbits ▸ List.prefix_append _ _, fun he => ?_⟩
  have hc : c = [] := by simpa [hbits] using he
  simp [hc, Tree.descend] at hleaf

/-- UPB's loop keeps the candidate left-aligned and at most 254 bits long (R32). -/
theorem unpackBits_aligned {xs : BitString} {s u : State}
    (h : s.cbits = leftAlign s.candidate ∧ s.clen.toNat ≤ Config.candidateMax) (hu : unpackBits xs s = some u) :
    u.cbits = leftAlign u.candidate ∧ u.clen.toNat ≤ Config.candidateMax := by
  have hset (s : State) {c : BitString} (hc : c.length ≤ Config.candidateMax) :
      (s.setCandidate c).cbits = leftAlign (s.setCandidate c).candidate ∧
        (s.setCandidate c).clen.toNat ≤ Config.candidateMax := by
    have hcand := s.candidate_setCandidate c (hc.trans (by decide))
    rw [← State.candidate_length, hcand]
    exact ⟨rfl, hc⟩
  refine unpackBits_induction
    (P := fun s => s.cbits = leftAlign s.candidate ∧ s.clen.toNat ≤ Config.candidateMax) ?_ h hu
  intro s u x h hu
  obtain ⟨-, rfl⟩ | ⟨-, v, -, rfl⟩ | ⟨-, -, hlen, rfl⟩ := unpackBit_cases hu
  · exact h
  · exact hset _ (Nat.zero_le _)
  · exact hset _ hlen

/-- UPB keeps the candidate the beginning of a code (R165). -/
theorem State.Inv.upb_candidateInv {s u : State} (h : s.Inv) (hp : s.ph = .unpack) {xs : BitString}
    (hu : unpackBits xs s = some u) : u.CandidateInv := by
  by_cases h1 : s.nsym = 1
  · have hfull : ¬ s.outcnt < s.n := h.control.unpackSingle hp h1 ▸ BitVec.lt_irrefl _
    rw [unpackBits_of_full _ hfull] at hu
    exact Option.some.inj hu ▸ h.candidate
  · obtain ⟨t, hd⟩ := h.descending (.inr (.inr (.inl hp))) h1
    obtain ⟨u', hu', hd'⟩ := unpackBits_descending xs hd
    obtain rfl : u' = u := Option.some.inj (hu'.symm.trans hu)
    obtain ⟨haligned, hshort⟩ := unpackBits_aligned ⟨h.candidate.aligned, h.candidate.short⟩ hu
    exact ⟨haligned, hshort, .inr hd'.begun⟩

/-- A command that completes keeps the candidate the beginning of a code: UPB moves it down the tree, CLR, UPS and UPE
empty it, GEN works while it is empty, and the others change neither it nor CT. -/
theorem State.Inv.completes_candidateInv {i : Instr} {s t : State} (h : s.Inv) (hl : legalIn i s.ph = true)
    (hc : Completes s i t) : t.CandidateInv := by
  cases hc with
  | observe | setn | ftw | build | pks => exact { h.candidate with }
  | clr | upsOne | upsMany | upe => exact State.candidateInv_of_clear rfl rfl
  | gen sym hg =>
    have hbuilt : s.ph = .built := by simpa [legalIn] using hl
    obtain ⟨hlen, hbits⟩ := h.control.candClear (by simp [hbuilt]) (by simp [hbuilt])
    exact State.candidateInv_of_clear hlen hbits
  | pkb b _ =>
    obtain ⟨bytes, acc, cnt, hp⟩ := packBits_frame (ctRead s.ct b).bits s
    rw [hp]
    exact { h.candidate with }
  | pke sym =>
    obtain ⟨bytes, hp⟩ := flushPartial_frame s
    rw [hp]
    exact { h.candidate with }
  | upb x hu =>
    have hunpack : s.ph = .unpack := by simpa [legalIn] using hl
    exact { h.upb_candidateInv hunpack hu with }

/-- A raise keeps the candidate and CT (R210). -/
theorem State.CandidateInv.raise {s : State} (h : s.CandidateInv) (e : Status) (op sym : BitVec 8) :
    (s.raise e op sym).CandidateInv := by
  unfold State.raise
  split
  · exact { h with }
  · exact { h with }

/-- Every command word keeps the candidate the beginning of a code. -/
theorem State.Inv.commandTo_candidateInv {s t : State} (h : s.Inv) (hc : CommandTo s t) : t.CandidateInv := by
  cases hc with
  | refused => exact { h.candidate with }
  | raised => exact h.candidate.raise ..
  | completed hl _ hc => exact h.completes_candidateInv hl hc

/-- Settles O53: an idle step changes nothing, a reset empties the candidate, and a command keeps the invariant. -/
theorem stepKeepsCandidateInvariant : Obligations.StepKeepsCandidateInvariant := by
  intro s t h hs
  obtain rfl | ⟨l, rfl⟩ | ⟨l, hc⟩ := step_next hs
  · exact h.candidate
  · exact State.candidateInv_of_clear rfl rfl
  · exact (h.withInput l).commandTo_candidateInv hc

/-- Every step keeps the invariants together. -/
theorem State.Inv.step {s t : State} (h : s.Inv) (hs : step s = .next t) : t.Inv where
  control := stepKeepsControlInvariant s t h.control hs
  tree := stepKeepsTreeInvariant s t h.control h.tree hs
  codes := stepKeepsCodeInvariant s t h.control h.tree h.codes hs
  candidate := stepKeepsCandidateInvariant s t h hs

/-- CLR leaves a state with every invariant. -/
theorem State.clear_inv (s : State) : s.clear.Inv where
  control := s.clear_controlInv
  tree hb := absurd hb (State.not_treeBuilt_of_load rfl)
  codes hg := absurd hg (State.not_codesMade (.inl rfl))
  candidate := State.candidateInv_of_clear rfl rfl

/-- Settles O49: reset is what CLR makes of a fresh block. -/
theorem resetMeetsTheInvariants : Obligations.ResetMeetsTheInvariants :=
  ⟨State.reset.clear_inv, State.reset.clear_cameFrom⟩

/-- A run goes on from the state its first step answers. -/
theorem run_succ (k : Nat) {s u : State} (h : step s = .next u) :
    Host.Core.run core (k + 1) s = Host.Core.run core k u := by
  have hstep : core.step s = .next u := h
  simp only [Host.Core.run, hstep]

/-- A run from a state with the invariants stops nowhere, and ends in a state that has them, with the origin followed
along it. -/
theorem State.Inv.run (k : Nat) {p : Phase} {s : State} (h : s.Inv) (hp : s.CameFrom p) :
    ∃ t, Host.Core.run core k s = .next t ∧ t.Inv ∧ t.CameFrom (originOfRun k p s) := by
  induction k generalizing p s with
  | zero => exact ⟨s, rfl, h, hp⟩
  | succ k ih =>
    obtain ⟨u, hu⟩ := stepNeverStops s h
    obtain ⟨t, ht, hinv, horigin⟩ := ih (h.step hu) (stepTracksWhereAFaultCameFrom p s u hp hu)
    refine ⟨t, (run_succ k hu).trans ht, hinv, ?_⟩
    · rw [originOfRun, hu]
      exact horigin

/-- Settles O55: the host's inputs change none of the invariants reset meets, and every run keeps them. -/
theorem reachableStatesMeetTheInvariants : Obligations.ReachableStatesMeetTheInvariants := by
  intro inputs k
  have hreset : State.Inv { State.reset with input := inputs } := State.clear_inv { State.reset with input := inputs }
  have horigin : State.CameFrom .load { State.reset with input := inputs } :=
    State.clear_cameFrom { State.reset with input := inputs }
  obtain ⟨t, ht, hinv, hfrom⟩ := hreset.run k horigin
  refine ⟨⟨t, ht⟩, fun t' ht' => ?_⟩
  cases ht.symm.trans ht'
  exact ⟨hinv, hfrom⟩

end Sys2Proof.Machine
end

section
/-! PROOFS. A step runs the word offered, and every word has one response (20_memory.md R65,
30_encoding.md R81, R83). -/

namespace Sys2Proof.Machine

/-- A word that is no command is so by its opcode (R85). -/
theorem decode_error {w : CmdWord} {e : DecodeError} (h : decode w = .error e) : e = .undefinedOpcode (opField w) := by
  unfold decode at h
  split at h <;> cases h
  rfl

/-- A step takes the word offered and runs it (R65). -/
theorem step_of_command {s : State} {w : CmdWord} {rest : List HostInput} (h : s.input = .command w :: rest) :
    step s = runCommand w { s with input := rest } := by
  rw [step, h]

/-- A word that decodes runs its command (R83). -/
theorem runCommand_of_ok {w : CmdWord} {i : Instr} (h : decode w = .ok i) (s : State) : runCommand w s = exec i s := by
  rw [runCommand, h]

/-- A word that does not decode is an undefined opcode (R85). -/
theorem runCommand_of_error {w : CmdWord} {e : DecodeError} (h : decode w = .error e) (s : State) :
    runCommand w s = undefinedCommand (opField w) (symField w) s := by
  obtain rfl := decode_error h
  rw [runCommand, h]

/-- Settles O5: the three ways a step goes, and the two ways a word goes. -/
theorem stepRunsTheOfferedCommand : Obligations.StepRunsTheOfferedCommand := by
  refine fun s => ⟨fun h => by rw [step, h], fun w rest h => ⟨fun i hi => ?_, fun e he => ?_⟩⟩
  · rw [step_of_command h, runCommand_of_ok hi]
  · rw [step_of_command h, runCommand_of_error he]

/-- What R81, R200 and R201 ask of a response, whatever the command: no status of the host's, and no data with an
error. -/
structure Response.Proper (r : Response) : Prop where
  not_empty : r.status ≠ .eEmpty
  not_format : r.status ≠ .eFormat
  data_of_error : r.status ≠ .ok → r.data = 0

/-- A response of the block's own status without data is proper. -/
theorem Response.proper_of_zero {e : Status} (h1 : e ≠ .eEmpty) (h2 : e ≠ .eFormat) : Response.Proper ⟨e, 0⟩ :=
  ⟨h1, h2, fun _ => rfl⟩

/-- A response OK is proper, with any data. -/
theorem Response.proper_of_ok (d : BitVec 64) : Response.Proper ⟨.ok, d⟩ := ⟨nofun, nofun, fun h => absurd rfl h⟩

/-- The errors a command raises itself: no status of the host's (R201), and not E_FAULTED (R208). -/
theorem CanRaise.mem {i : Instr} {s : State} {e : Status} (h : CanRaise i s e) :
    e ∈ [Status.eSeq, .eOperand, .eTree, .eNoCode, .eSize] := by
  obtain ⟨-, rfl⟩ | ⟨-, hm⟩ := h
  · decide
  · cases i <;> simp [mayRaise] at hm <;> simp [hm]

/-- What a command raises is answered properly. -/
theorem CanRaise.proper {i : Instr} {s : State} {e : Status} (h : CanRaise i s e) : Response.Proper ⟨e, 0⟩ := by
  refine Response.proper_of_zero ?_ ?_ <;> rintro rfl <;> exact absurd h.mem (by decide)

/-- NOP is the one observation that is no read (R64, R100). -/
theorem eq_nop_of_isObservation {i : Instr} (h : isObservation i = true) (hr : isRead i = false) : i = .nop := by
  cases i with
  | nop => rfl
  | rds | ftr | ndr | ndw | ctl | ctb => simp [isRead] at hr
  | _ => simp [isObservation, allowedInFault] at h

/-- NOP answers OK, 0 in every state (R100). -/
theorem exec_nop (s : State) : exec .nop s = .next (s.respond .ok 0) :=
  show execNop s = _ from execute_of_legal _ rfl rfl

/-- Only an observation answers with data (R81). -/
theorem Completes.rsps_eq_zero {i : Instr} {s t : State} (h : Completes s i t) (ho : isObservation i = false) :
    t.rsps = s.rsps ++ [⟨.ok, 0⟩] := by
  cases h with
  | observe d hi => simp [hi] at ho
  | pkb b hc =>
    obtain ⟨bytes, acc, cnt, hp⟩ := packBits_frame (ctRead s.ct b).bits s
    rw [hp]; rfl
  | pke sym =>
    obtain ⟨bytes, hp⟩ := flushPartial_frame s
    rw [hp]; rfl
  | upb p hu =>
    obtain ⟨bytes, len, bits, rfl⟩ := unpackBits_frame hu
    rfl
  | _ => rfl

/-- A command gives one proper response, with data only where it is a read (R81). -/
theorem exec_responds {i : Instr} {s t : State} (h : exec i s = .next t) :
    ∃ r : Response, t.rsps = s.rsps ++ [r] ∧ r.Proper ∧ (isRead i = false → r.data = 0) := by
  obtain ⟨-, rfl⟩ | ⟨e, he, rfl⟩ | ⟨-, -, hc⟩ := exec_cases h
  · exact ⟨_, State.respond_rsps .., Response.proper_of_zero nofun nofun, fun _ => rfl⟩
  · exact ⟨_, State.raise_rsps .., he.proper, fun _ => rfl⟩
  · cases hr : isRead i with
    | true =>
      obtain ⟨d, hd⟩ := hc.rsps_eq
      exact ⟨_, hd, Response.proper_of_ok d, nofun⟩
    | false =>
      have hzero : t.rsps = s.rsps ++ [⟨.ok, 0⟩] := by
        cases ho : isObservation i with
        | true =>
          obtain rfl := eq_nop_of_isObservation ho hr
          cases (exec_nop s).symm.trans h
          rfl
        | false => exact hc.rsps_eq_zero ho
      exact ⟨_, hzero, Response.proper_of_ok 0, fun _ => rfl⟩

/-- An undefined opcode gives one proper response without data (R85, R204). -/
theorem undefinedCommand_responds {op sym : BitVec 8} {s t : State} (h : undefinedCommand op sym s = .next t) :
    ∃ r : Response, t.rsps = s.rsps ++ [r] ∧ r.Proper ∧ t.input = s.input := by
  obtain ⟨-, rfl⟩ | ⟨-, rfl⟩ := undefinedCommand_cases h
  · exact ⟨_, State.respond_rsps .., Response.proper_of_zero nofun nofun, rfl⟩
  · exact ⟨_, State.raise_rsps .., Response.proper_of_zero nofun nofun, State.raise_input ..⟩

end Sys2Proof.Machine
end

section
/-! PROOFS. The writers of each register and memory (20_memory.md R60, R71), and with them the one response of a word
(R65). -/

namespace Sys2Proof.Machine

/-- The six commands beside CLR to which R23 gives a next phase. -/
def EntersPhase (i : Instr) : Prop :=
  (∃ y, i = .build y) ∨ (∃ y, i = .gen y) ∨ (∃ y, i = .pks y) ∨ (∃ y, i = .pke y) ∨ (∃ y, i = .ups y) ∨ ∃ y, i = .upe y

/-- `Raised s i t`: outside FAULT the command `i` takes `s` to `t` by raising an error (R210). -/
def Raised (s : State) (i : Instr) (t : State) : Prop :=
  s.ph ≠ .fault ∧ ∃ e, e ≠ .ok ∧ e ≠ .eFaulted ∧ t = s.raise e i.opcode i.sym

/-- `Writers s i t`: of the registers that are no counter of OUT, and of the memories, `i` changes from `s` to `t` only
those it writes (R22 to R35); and it leaves the host's inputs. -/
structure Writers (s : State) (i : Instr) (t : State) : Prop where
  errors : t.err ≠ s.err ∨ t.errcmd ≠ s.errcmd → i = .clr ∨ Raised s i t
  phase : t.ph ≠ s.ph → i = .clr ∨ Raised s i t ∨ EntersPhase i
  table : t.ft ≠ s.ft ∨ t.nsym ≠ s.nsym → i = .clr ∨ ∃ v c, i = .ftw v c ∧ s.ph = .load
  size : t.n ≠ s.n → i = .clr ∨ ∃ y n, i = .setn y n
  tree : t.nm ≠ s.nm ∨ t.root ≠ s.root ∨ t.nint ≠ s.nint → i = .clr ∨ ∃ y, i = .build y
  codes : t.ct ≠ s.ct → i = .clr ∨ ∃ y, i = .gen y
  accumulator : t.pacc ≠ s.pacc ∨ t.pcnt ≠ s.pcnt → i = .clr ∨ (∃ y, i = .pks y) ∨ (∃ b, i = .pkb b) ∨ ∃ y, i = .pke y
  candidate : t.clen ≠ s.clen ∨ t.cbits ≠ s.cbits → i = .clr ∨ (∃ y, i = .ups y) ∨ (∃ p, i = .upb p) ∨ ∃ y, i = .upe y
  input : t.input = s.input

/-- A response alone writes nothing. -/
theorem respond_writers (s : State) (i : Instr) (st : Status) (d : BitVec 64) : Writers s i (s.respond st d) := by
  constructor <;> simp

/-- The fault action writes ERR, ERRCMD and PH, and outside FAULT only (R210). -/
theorem CanRaise.writers {i : Instr} {s : State} {e : Status} (h : CanRaise i s e) :
    Writers s i (s.raise e i.opcode i.sym) := by
  have hraised (hf : s.ph ≠ .fault) : Raised s i (s.raise e i.opcode i.sym) :=
    ⟨hf, e, h.ne_ok, by rintro rfl; exact absurd h.mem (by decide), rfl⟩
  constructor
  case errors => exact fun hn => .inr (hraised fun hf => by simp [State.raise_err, State.raise_errcmd, hf] at hn)
  case phase => exact fun hn => .inr (.inl (hraised fun hf => by simp [hf] at hn))
  all_goals simp

/-- A command that completes writes what its own rule names. -/
theorem Completes.writers {i : Instr} {s t : State} (h : Completes s i t) (hl : legalIn i s.ph = true) :
    Writers s i t := by
  cases h with
  | ftw v c =>
    have hload : s.ph = .load := by simpa [legalIn] using hl
    constructor <;> simp [hload]
  | pkb b hc =>
    obtain ⟨bytes, acc, cnt, hp⟩ := packBits_frame (ctRead s.ct b).bits s
    rw [hp]
    constructor <;> simp [State.emitted]
  | pke sym =>
    obtain ⟨bytes, hp⟩ := flushPartial_frame s
    rw [hp]
    constructor <;> simp [State.emitted, EntersPhase]
  | upb p hu =>
    obtain ⟨bytes, len, bits, rfl⟩ := unpackBits_frame hu
    constructor <;> simp [State.emitted]
  | _ => constructor <;> simp [EntersPhase]

/-- A command writes only what is its own, whatever it answers. -/
theorem exec_writers {i : Instr} {s t : State} (h : exec i s = .next t) : Writers s i t := by
  obtain ⟨-, rfl⟩ | ⟨e, he, rfl⟩ | ⟨hl, -, hc⟩ := exec_cases h
  · exact respond_writers ..
  · exact he.writers
  · exact hc.writers hl

/-- Only the commands that emit change OUT (R66). -/
theorem exec_out_writer {i : Instr} {s t : State} (h : exec i s = .next t) (hn : t.out ≠ s.out) : Emits i := by
  obtain ⟨bytes, hout, hem, -⟩ := outOnlyGrows i s t h
  exact hem fun hb => hn (by simp [hout, hb])

/-- Only the commands that emit or that start a count change OUTCNT (R30). -/
theorem exec_outcnt_writer {i : Instr} {s t : State} (h : exec i s = .next t) (hn : t.outcnt ≠ s.outcnt) :
    Emits i ∨ StartsCount i := by
  obtain ⟨bytes, -, hem, hcnt | ⟨hst, -⟩⟩ := outOnlyGrows i s t h
  · exact .inl (hem fun hb => hn (by simp [hcnt, hb]))
  · exact .inr hst

/-- Settles O48: what each command writes, read once per register. -/
theorem eachStateHasItsWriters : Obligations.EachStateHasItsWriters := by
  intro i s t h
  have w := exec_writers h
  have houtcnt (hn : t.outcnt ≠ s.outcnt) : i = .clr ∨ (∃ y, i = .pks y) ∨ (∃ b, i = .pkb b) ∨ (∃ y, i = .pke y) ∨
      (∃ y, i = .ups y) ∨ ∃ p, i = .upb p := by
    have := exec_outcnt_writer h hn
    unfold Emits StartsCount at this
    tauto
  obtain ⟨r, hr, -⟩ := exec_responds h
  exact ⟨w.errors, w.phase, houtcnt, exec_out_writer h, w.table, w.size, w.tree, w.codes, w.accumulator, w.candidate,
    w.input, r, hr⟩

/-- Settles O6: an undefined opcode answers without data, and a command as `exec_responds` says. -/
theorem oneResponsePerCommand : Obligations.OneResponsePerCommand := by
  intro s t w rest hin ht
  obtain ⟨-, hrun⟩ := stepRunsTheOfferedCommand s
  obtain ⟨hok, herr⟩ := hrun w rest hin
  cases hd : decode w with
  | ok i =>
    have hexec := (hok i hd).symm.trans ht
    obtain ⟨r, hr, hproper, hzero⟩ := exec_responds hexec
    refine ⟨(exec_writers hexec).input, r, hr, hproper.not_empty, hproper.not_format, hproper.data_of_error, ?_⟩
    rintro _ ⟨⟩
    exact hzero
  | error e =>
    obtain ⟨r, hr, hproper, hinput⟩ := undefinedCommand_responds ((herr e hd).symm.trans ht)
    exact ⟨hinput, r, hr, hproper.not_empty, hproper.not_format, hproper.data_of_error, nofun⟩

end Sys2Proof.Machine
end

section
/-! PROOFS. The order of bits in a payload (20_memory.md R61). -/

namespace Sys2Proof.Machine

/-- Shifting a bit into a byte from the right puts it in place 0 and moves the others up by one. -/
theorem getLsbD_shiftIn (acc : Byte) (x : Bool) (k : Nat) (hk : k < 8) :
    ((acc <<< 1) ||| (BitVec.ofBool x).zeroExtend 8).getLsbD k = if k = 0 then x else acc.getLsbD (k - 1) := by
  cases k with
  | zero => simp
  | succ k => simp [hk, BitVec.getLsbD_eq_getElem (show k < 8 by omega)]

/-- After `n` bits are shifted in, the last of them is in place 0 and the one before it in place 1, and so on. -/
theorem getLsbD_foldl_shiftIn (f : Nat → Bool) (n k : Nat) (hk : k < 8) :
    ((List.range n).foldl (fun (acc : Byte) t => (acc <<< 1) ||| (BitVec.ofBool (f t)).zeroExtend 8) 0).getLsbD k =
      (decide (k < n) && f (n - 1 - k)) := by
  induction n generalizing k with
  | zero => simp
  | succ n ih =>
    rw [List.range_succ, List.foldl_append, List.foldl_cons, List.foldl_nil, getLsbD_shiftIn _ _ _ hk]
    cases k with
    | zero => simp
    | succ k =>
      rw [if_neg k.succ_ne_zero, Nat.add_sub_cancel, ih k (by omega)]
      simp [show n - 1 - k = n - (k + 1) by omega]

/-- Bit `7 - j` of the byte is bit `j` of the string, 0 past its end. -/
theorem byteOfBits_getLsbD (b : BitString) (j : Nat) (hj : j < 8) :
    (byteOfBits b).getLsbD (7 - j) = b.getD j false := by
  rw [byteOfBits, getLsbD_foldl_shiftIn _ _ _ (by omega)]
  simp [show 7 - j < 8 by omega, show 7 - (7 - j) = j by omega]

/-- A payload of `L` bits has `ceil(L / 8)` bytes. -/
theorem toBytes_length (b : BitString) : (toBytes b).length = (b.length + 7) / 8 := by simp [toBytes]

/-- Bit `7 - (j mod 8)` of payload byte `floor(j / 8)` is bit `j` of the string, 0 past its end. -/
theorem toBytes_bit (b : BitString) (j : Nat) (hj : j < 8 * (toBytes b).length) :
    ((toBytes b).getD (j / 8) 0).getLsbD (7 - j % 8) = b.getD j false := by
  have hlt : j / 8 < (toBytes b).length := by omega
  have hbyte : (toBytes b).getD (j / 8) 0 = byteOfBits (b.drop (8 * (j / 8))) := by
    rw [List.getD_eq_getElem _ _ hlt]
    simp [toBytes]
  rw [hbyte, byteOfBits_getLsbD _ _ (by omega), List.getD_eq_getElem?_getD, List.getElem?_drop, Nat.div_add_mod,
    List.getD_eq_getElem?_getD]

/-- Settles O33: each bit of the payload is the bit of the string in its place, and past the string there is none. -/
theorem payloadBitOrderIsMsbFirst : Obligations.PayloadBitOrderIsMsbFirst := by
  refine fun B => ⟨toBytes_length B, fun j hj => toBytes_bit B j ?_, fun j hj hlt => ?_⟩
  · rw [toBytes_length]
    omega
  · rw [toBytes_bit B j hlt, List.getD_eq_default _ _ hj]

end Sys2Proof.Machine
end

section
/-! PROOFS. The decoder reads the bits that matter to a command and no other, and refuses the 238 opcodes that no command
has (30_encoding.md R80, R82, R84 to R86). -/

namespace Sys2Proof.Machine

/-- Two words are equal when their fields are (R80). -/
theorem cmdWord_inj {op op' sym sym' : BitVec 8} {data data' : BitVec 64} :
    cmdWord op sym data = cmdWord op' sym' data' ↔ op = op' ∧ sym = sym' ∧ data = data' := by
  refine ⟨fun h => ⟨?_, ?_, ?_⟩, by rintro ⟨rfl, rfl, rfl⟩; rfl⟩
  · simpa using congrArg opField h
  · simpa using congrArg symField h
  · simpa using congrArg dataField h

/-- Masking a word is masking each field with its part of the mask (R80). -/
theorem and_cmdWord (w : CmdWord) (op sym : BitVec 8) (data : BitVec 64) :
    w &&& cmdWord op sym data = cmdWord (opField w &&& op) (symField w &&& sym) (dataField w &&& data) := by
  rw [← cmdWord_fields (w &&& cmdWord op sym data), cmdWord_inj]
  refine ⟨?_, ?_, ?_⟩
  · exact BitVec.extractLsb'_and.trans (congrArg (opField w &&& ·) (opField_cmdWord op sym data))
  · exact BitVec.extractLsb'_and.trans (congrArg (symField w &&& ·) (symField_cmdWord op sym data))
  · exact BitVec.extractLsb'_and.trans (congrArg (dataField w &&& ·) (dataField_cmdWord op sym data))

/-- `data` masked to its low `n` bits is a zero-extended operand exactly when the operand is those bits (R82). -/
theorem and_lowMask_eq_iff (x : BitVec 64) {n : Nat} (y : BitVec n) (h : n ≤ 64) :
    x &&& BitVec.ofNat 64 (2 ^ n - 1) = y.zeroExtend 64 ↔ x.extractLsb' 0 n = y := by
  have hmask : x &&& BitVec.ofNat 64 (2 ^ n - 1) = (x.extractLsb' 0 n).zeroExtend 64 := by
    refine BitVec.eq_of_getLsbD_eq fun k hk => ?_
    simp only [BitVec.getLsbD_and, BitVec.getLsbD_ofNat, hk, Nat.testBit_two_pow_sub_one, BitVec.truncate_eq_setWidth,
      BitVec.getLsbD_setWidth, BitVec.getLsbD_extractLsb', decide_true, Bool.true_and, Nat.zero_add]
    exact Bool.and_comm ..
  rw [hmask]
  refine ⟨fun he => ?_, fun he => by rw [he]⟩
  simpa [extractLsb_zeroExtend_64 _ h] using congrArg (BitVec.extractLsb' 0 n) he

/-! The four masks of R82 that are not 0, each on its field. -/

@[simp] theorem and_byteMask (x : BitVec 8) : x &&& 0xFF#8 = x := BitVec.and_allOnes

@[simp] theorem and_dataMask (x : BitVec 64) : x &&& 0xFFFFFFFFFFFFFFFF#64 = x := BitVec.and_allOnes

@[simp] theorem and_nodeMask_eq_iff (x : BitVec 64) (i : BitVec 9) :
    x &&& 0x1FF#64 = i.setWidth 64 ↔ x.extractLsb' 0 9 = i := and_lowMask_eq_iff x i (by decide)

@[simp] theorem and_chunkMask_eq_iff (x : BitVec 64) (q : BitVec 2) :
    x &&& 0x3#64 = q.setWidth 64 ↔ x.extractLsb' 0 2 = q := and_lowMask_eq_iff x q (by decide)

/-- A word decodes to a command exactly when the bits that matter to the command are those of its own word: in one
direction row by row of the decoder, in the other command by command (R82, R84). -/
theorem decode_eq_ok_iff (w : CmdWord) (i : Instr) : decode w = .ok i ↔ w &&& i.usedMask = encode i := by
  constructor
  · intro h
    unfold decode at h
    split at h <;> cases h <;>
      simp [Instr.usedMask, encode, Instr.opcode, Instr.sym, Instr.data, and_cmdWord, cmdWord_inj, *]
  · intro h
    cases i <;>
      simp_all [Instr.usedMask, encode, Instr.opcode, Instr.sym, Instr.data, and_cmdWord, cmdWord_inj, decode]

/-- Settles O2: the opcode picks the command's own row of the decoder, and each operand stands in its field. -/
theorem decodeEncodeAgree : Obligations.DecodeEncodeAgree := by
  intro i
  obtain ⟨hop, hsym, hdata⟩ := Laws.EncodedFields.fields i
  rw [decode, hop, hsym, hdata]
  cases i with
  | ndr y => exact congrArg (fun x => Except.ok (Instr.ndr x)) (extractLsb_zeroExtend_64 y (by decide))
  | ndw y => exact congrArg (fun x => Except.ok (Instr.ndw x)) (extractLsb_zeroExtend_64 y (by decide))
  | ctb v q => exact congrArg (fun x => Except.ok (Instr.ctb v x)) (extractLsb_zeroExtend_64 q (by decide))
  | _ => rfl

/-- Settles O3: decoding to a command is a condition on the masked word alone. -/
theorem decodeReadsUsedBitsOnly : Obligations.DecodeReadsUsedBitsOnly := by
  intro w i h
  have hw := (decode_eq_ok_iff w i).1 h
  exact ⟨hw.symm, fun w' hw' => (decode_eq_ok_iff w' i).2 (hw'.trans hw)⟩

/-- The ranges R85 lists for `op`. -/
abbrev UndefinedOp (op : Nat) : Prop :=
  (0x03 ≤ op ∧ op ≤ 0x0F) ∨ (0x13 ≤ op ∧ op ≤ 0x1F) ∨ (0x23 ≤ op ∧ op ≤ 0x2F) ∨ (0x33 ≤ op ∧ op ≤ 0x3F) ∨
    (0x43 ≤ op ∧ op ≤ 0x4F) ∨ (0x53 ≤ op ∧ op ≤ 0xFF)

/-- A word is refused exactly when its `op` is in the ranges of R85: the 18 opcodes of R84 are the values outside them. -/
theorem decode_eq_error_iff (w : CmdWord) :
    decode w = .error (.undefinedOpcode (opField w)) ↔ UndefinedOp (opField w).toNat := by
  unfold decode
  generalize opField w = op
  split
  case h_19 =>
    refine iff_of_true rfl ?_
    unfold UndefinedOp
    simp only [imp_false] at *
    bv_omega
  all_goals exact iff_of_false nofun (by decide)

/-- Settles O4: the opcodes outside the decoder's 18 rows are the ranges, no other error exists, and they are counted. -/
theorem undefinedOpcodesAreThe238 : Obligations.UndefinedOpcodesAreThe238 := by
  refine ⟨decode_eq_error_iff, fun w => ?_, ?_⟩
  · cases h : decode w with
    | ok i => exact .inl ⟨i, rfl⟩
    | error e => exact .inr (congrArg _ (decode_error h))
  · decide +kernel

/-- Settles O1: the decoder run on each of the ten words. -/
theorem specWordsDecode : Obligations.SpecWordsDecode := by
  unfold Obligations.SpecWordsDecode
  decide

end Sys2Proof.Machine
end

section
/-! PROOFS. The control commands (40_control.md R100). -/

namespace Sys2Proof.Machine

/-- Settles O9: NOP is legal in every phase, FAULT included, has no operand to be out of range, and its own rule appends
the one response and writes nothing else. -/
theorem nopChangesNothing : Obligations.NopChangesNothing := fun s => exec_nop s

end Sys2Proof.Machine
end

section
/-! PROOFS. The table commands FTW, FTR, SETN (41_table.md R110 to R113). -/

namespace Sys2Proof.Machine

/-- FT in canonical form lists nothing from its size up. -/
theorem Memory.read_of_size_le {α : Type} [DecidableEq α] (zero : α) {size : Nat} {m : Memory α}
    (h : Memory.wf zero size m = true) {i : Nat} (hi : size ≤ i) : Memory.read zero m i = zero := by
  induction m with
  | nil => rfl
  | cons c m ih =>
    obtain ⟨-, hc, -, hm⟩ := (Memory.wf_cons zero size c m).1 h
    rw [Memory.read, if_neg (hc.trans_le hi).ne', ih hm]

/-- FT in canonical form is determined by its counts (R34). -/
theorem eq_of_ftRead_eq {ft ft' : Memory (BitVec 31)} (h : Memory.wf 0 Config.nsymMax ft = true)
    (h' : Memory.wf 0 Config.nsymMax ft' = true) (hr : ∀ v, ftRead ft v = ftRead ft' v) : ft = ft' := by
  refine Memory.ext 0 Config.nsymMax ft ft' h h' fun i => ?_
  by_cases hi : i < Config.nsymMax
  · have hv : (BitVec.ofNat 8 i).toNat = i := Nat.mod_eq_of_lt hi
    simpa only [ftRead, hv] using hr (BitVec.ofNat 8 i)
  · rw [Memory.read_of_size_le 0 h (not_lt.1 hi), Memory.read_of_size_le 0 h' (not_lt.1 hi)]

/-- The entry FTW writes holds all of a legal count (R110). -/
theorem legalCount_toNat {c : BitVec 64} (hc : c.toNat ≤ 2 ^ 31 - 1) : (c.extractLsb' 0 31).toNat = c.toNat := by
  rw [BitVec.extractLsb'_toNat, Nat.shiftRight_zero, Nat.mod_eq_of_lt (Nat.lt_of_le_sub_one (by decide) hc)]

/-- The entry FTW writes is 0 for the count 0 only. -/
theorem legalCount_eq_zero_iff {c : BitVec 64} (hc : c.toNat ≤ 2 ^ 31 - 1) : c.extractLsb' 0 31 = 0 ↔ c = 0 := by
  rw [← BitVec.toNat_inj, ← BitVec.toNat_inj (x := c), legalCount_toNat hc]
  rfl

/-- FTW in LOAD with a legal count runs its own rule (R110). -/
theorem ftw_completes {s : State} (hp : s.ph = .load) (v : Byte) {c : BitVec 64} (hc : c.toNat ≤ 2 ^ 31 - 1) :
    exec (.ftw v c) s = .next ({ s with
      ft := ftWrite s.ft v (c.extractLsb' 0 31)
      nsym := nsymAfter s.nsym (ftRead s.ft v) (c.extractLsb' 0 31) }.respond .ok 0) := by
  have hl : legalIn (.ftw v c) s.ph = true := by simp [legalIn, hp]
  have ho : operandOk (.ftw v c) = true := by
    rw [operandOk_eq_wellFormed]
    exact decide_eq_true hc
  show execFtw v c s = _
  exact execute_of_legal _ hl ho

/-- Settles O12: the one entry that changes is written in canonical form, and the entry and the count are zero
together. -/
theorem ftwStoresCount : Obligations.FtwStoresCount := by
  intro s v c hw hp hc
  have hread := fun u => ftRead_ftWrite s.ft v u (c.extractLsb' 0 31) hw
  refine ⟨ftWrite s.ft v (c.extractLsb' 0 31), ?_, ftWrite_wf _ _ _ hw, ?_, fun u hu => ?_⟩
  · have hpos : 0 < c.toNat ↔ c ≠ 0 := by bv_omega
    simp only [ftw_completes hp v hc, State.respond, nsymAfter, ne_eq, legalCount_eq_zero_iff hc, hpos]
  · rw [hread v, if_pos rfl, legalCount_toNat hc]
  · rw [hread u, if_neg hu]

/-! A load: FTW after FTW (R113). -/

/-- The block while its table is loaded: in LOAD, FT in canonical form, NSYM the number of present symbols (R27). -/
structure State.Loading (s : State) : Prop where
  phase : s.ph = .load
  ftForm : Memory.wf 0 Config.nsymMax s.ft = true
  nsymCounts : s.nsym.toNat = presentCount s.ft

/-- FTW of a legal count goes on loading (R110). -/
theorem State.Loading.ftw {s : State} (h : s.Loading) (v : Byte) {c : BitVec 64} (hc : c.toNat ≤ 2 ^ 31 - 1) :
    ∃ t, exec (.ftw v c) s = .next t ∧ t.Loading :=
  ⟨_, ftw_completes h.phase v hc, h.phase, ftWrite_wf _ _ _ h.ftForm, nsymAfter_toNat h.ftForm h.nsymCounts v _⟩

/-- A load of legal counts runs to its end. -/
theorem State.Loading.load_runs {ws : List (Byte × BitVec 64)} (hws : ∀ e ∈ ws, e.2.toNat ≤ 2 ^ 31 - 1) {s : State}
    (h : s.Loading) : ∃ t, runAll (loadTable ws) s = .next t ∧ t.Loading := by
  induction ws generalizing s with
  | nil => exact ⟨s, rfl, h⟩
  | cons e ws ih =>
    obtain ⟨he, hrest⟩ := List.forall_mem_cons.1 hws
    obtain ⟨u, hu, hload⟩ := h.ftw e.1 he
    obtain ⟨t, ht, hdone⟩ := ih hrest hload
    refine ⟨t, ?_, hdone⟩
    show runAll (.ftw e.1 e.2 :: loadTable ws) s = _
    rw [runAll, hu]
    exact ht

/-- Settles O15: FT is determined by its counts, and NSYM by FT. -/
theorem loadOrderDoesNotMatter : Obligations.LoadOrderDoesNotMatter := by
  intro s ws ws' hw hn hp hws hws'
  have hs : s.Loading := ⟨hp, hw, hn⟩
  obtain ⟨t, ht, hload⟩ := hs.load_runs hws
  obtain ⟨t', ht', hload'⟩ := hs.load_runs hws'
  refine ⟨t, t', ht, ht', fun hsame => ?_⟩
  have hft : t.ft = t'.ft := eq_of_ftRead_eq hload.ftForm hload'.ftForm hsame
  refine ⟨hft, BitVec.eq_of_toNat_eq ?_⟩
  rw [hload.nsymCounts, hload'.nsymCounts, hft]

/-- Settles O13: FTR is legal in every phase and checks no operand. -/
theorem ftrAnswersCount : Obligations.FtrAnswersCount := fun s v =>
  show execFtr v s = _ from execute_of_legal _ rfl rfl

/-- Where no error is latched `raise` latches its own (R210). -/
theorem raises_of_exec_raise {i : Instr} {s : State} {e : Status} (hf : s.ph ≠ .fault)
    (h : exec i s = .next (s.raise e i.opcode i.sym)) : Raises i s e := by
  rw [Raises, h, State.raise, if_neg hf]
  rfl

/-- Settles O14: in its three phases SETN is decided by its operand check, which looks at bit 63; in PACK, UNPACK and
DONE it is not legal. -/
theorem setnWritesSize : Obligations.SetnWritesSize := by
  intro s sym n
  have hlegal (hp : s.ph = .load ∨ s.ph = .built ∨ s.ph = .coded) :
      legalIn (.setn sym n) s.ph = true ∧ s.ph ≠ .fault := by
    obtain hp | hp | hp := hp <;> simp [hp, legalIn]
  have hillegal (hp : s.ph = .pack ∨ s.ph = .unpack ∨ s.ph = .done) :
      legalIn (.setn sym n) s.ph = false ∧ s.ph ≠ .fault := by
    obtain hp | hp | hp := hp <;> simp [hp, legalIn]
  refine ⟨fun hp hn => ?_, fun hp hn => ?_, fun hp => ?_⟩
  · obtain ⟨hl, -⟩ := hlegal hp
    show execSetn sym n s = _
    exact execute_of_legal _ hl (congrArg not hn)
  · obtain ⟨hl, hf⟩ := hlegal hp
    refine raises_of_exec_raise hf ?_
    show execSetn sym n s = _
    exact execute_of_badOperand _ hl (congrArg not hn)
  · obtain ⟨hl, hf⟩ := hillegal hp
    refine raises_of_exec_raise hf ?_
    show execSetn sym n s = _
    exact execute_of_illegal _ hf hl

end Sys2Proof.Machine
end

section
/-! PROOFS. The order of trees and of records, and the node reads (42_tree.md R121, R122, R124, R125). -/

namespace Sys2Proof.Machine

/-- Leaf sorts before Internal by the tag bit (R33, R121). -/
theorem NodeTag.bit_lt_iff (x y : NodeTag) : x.bit.toNat < y.bit.toNat ↔ x = .leaf ∧ y = .internal := by
  cases x <;> cases y <;> decide

/-- The tag bit tells the tag (R33). -/
theorem NodeTag.bit_inj (x y : NodeTag) : x.bit.toNat = y.bit.toNat ↔ x = y := by
  cases x <;> cases y <;> decide

/-- Settles O21: the key read as a number has the weight above the tag above the minleaf, and each field stays below the
place of the next. -/
theorem keyOrderIsLexicographic : Obligations.KeyOrderIsLexicographic := by
  intro x y
  rw [BitVec.lt_def, x.key_toNat, y.key_toNat, BitVec.lt_def, BitVec.lt_def, ← BitVec.toNat_inj,
    ← NodeTag.bit_lt_iff, ← NodeTag.bit_inj]
  have := x.ml.isLt
  have := y.ml.isLt
  have := x.tag.bit.isLt
  have := y.tag.bit.isLt
  omega

/-- The least leaf value of a tree is the value of one of its leaves (R122). -/
theorem Tree.exists_minLeaf (t : Tree) : ∃ v ∈ t.leaves, v.toNat = t.minLeaf := by
  induction t with
  | leaf v w => exact ⟨v, by simp [Tree.leaves], rfl⟩
  | internal w a b iha ihb =>
    obtain ⟨u, hu, hua⟩ := iha
    obtain ⟨v, hv, hvb⟩ := ihb
    simp only [Tree.leaves, Tree.minLeaf, List.mem_append]
    obtain h | h := le_total a.minLeaf b.minLeaf
    · exact ⟨u, .inl hu, by omega⟩
    · exact ⟨v, .inr hv, by omega⟩

/-- Trees without a common leaf differ in their least leaf value. -/
theorem Tree.minLeaf_ne {a b : Tree} (h : ∀ v ∈ a.leaves, v ∉ b.leaves) : a.minLeaf ≠ b.minLeaf := by
  obtain ⟨u, hu, hua⟩ := a.exists_minLeaf
  obtain ⟨v, hv, hvb⟩ := b.exists_minLeaf
  intro he
  obtain rfl : u = v := BitVec.eq_of_toNat_eq (by omega)
  exact h u hu hv

/-- Settles O22: the least leaf values differ, so one of the three comparisons decides. -/
theorem disjointTreesNeverTie : Obligations.DisjointTreesNeverTie := by
  intro a b h
  have hne := Tree.minLeaf_ne h
  rw [Tree.lt, Tree.lt, ← decide_not]
  exact decide_eq_decide.2 (by omega)

/-- The record NDR and NDW answer from (R124). -/
theorem nmRead_eq_ite_le (nm : Memory NodeRec) (i : Nat) :
    nmRead nm i = if i ≤ 510 then Memory.read NodeRec.zero nm i else NodeRec.zero :=
  if_congr Nat.lt_succ_iff rfl rfl

/-- Each bit of the word NDR answers, by the field it lies in (R124). -/
theorem NodeRec.structureWord_getLsbD (x : NodeRec) (k : Nat) :
    x.structureWord.getLsbD k =
      if k < 1 then x.valid else if k < 2 then decide (x.tag = .internal) else if k < 10 then x.ml.getLsbD (k - 2)
      else if k < 19 then x.l.getLsbD (k - 10) else x.r.getLsbD (k - 19) := by
  have hvalid : k < 1 → (BitVec.ofBool x.valid).getLsbD k = x.valid := by
    intro hk
    obtain rfl : k = 0 := by omega
    simp
  have htag : ¬ k < 1 → k < 2 → x.tag.bit.getLsbD (k - 1) = decide (x.tag = .internal) := by
    intro h1 h2
    obtain rfl : k = 1 := by omega
    cases x.tag <;> rfl
  have hr : 28 ≤ k → x.r.getLsbD (k - 19) = false := fun h => BitVec.getLsbD_of_ge _ _ (by omega)
  simp only [NodeRec.structureWord, BitVec.getLsbD_setWidth, BitVec.getLsbD_append, Nat.sub_sub]
  grind

/-- A field of a word is known by its bits. -/
theorem extractLsb'_eq_of_getLsbD {m n b : Nat} {d : BitVec m} {y : BitVec n}
    (h : ∀ k < n, d.getLsbD (b + k) = y.getLsbD k) : d.extractLsb' b n = y :=
  BitVec.eq_of_getLsbD_eq fun k hk => by rw [BitVec.getLsbD_extractLsb', h k hk, decide_eq_true hk, Bool.true_and]

/-- Settles O23: both reads are legal in every phase, and the word NDR answers is read field by field. -/
theorem nodeReadsAnswerTheRecord : Obligations.NodeReadsAnswerTheRecord := by
  intro s i
  rw [← nmRead_eq_ite_le]
  intro x
  have hbit := x.structureWord_getLsbD
  refine ⟨⟨x.structureWord, ?_, ?_, ?_, ?_, ?_, ?_, ?_⟩, ?_⟩
  · show execNdr i s = _
    exact execute_of_legal _ rfl rfl
  · exact hbit 0
  · exact hbit 1
  · exact extractLsb'_eq_of_getLsbD fun k hk => by rw [hbit]; grind
  · exact extractLsb'_eq_of_getLsbD fun k hk => by rw [hbit]; grind
  · exact extractLsb'_eq_of_getLsbD fun k hk => by rw [hbit]; grind
  · exact extractLsb'_eq_of_getLsbD fun k hk => by rw [hbit]; grind
  · show execNdw i s = _
    exact execute_of_legal _ rfl rfl

end Sys2Proof.Machine
end

section
/-! PROOFS. BUILD as a command: it makes the tree of the table, and depends on the table alone (42_tree.md R123, R127,
R128). -/

namespace Sys2Proof.Machine

/-- In LOAD with a symbol present BUILD completes with the merge loop's answer (R123). -/
theorem State.ControlInv.build_completes {s : State} (h : s.ControlInv) (hload : s.ph = .load) (hn : s.nsym ≠ 0)
    (sym : BitVec 8) : ∃ root k nm,
      mergeLoop (leafQueue s.ft).length 0 (fillLeaves s.ft s.nm) (leafQueue s.ft) = some (root, k, nm) ∧
      exec (.build sym) s = .next ({ s with
        nm := nm, root := BitVec.ofNat 9 root, nint := BitVec.ofNat 8 k, ph := .built }.respond .ok 0) := by
  have hl : legalIn (.build sym) s.ph = true := by simp [legalIn, hload]
  obtain ⟨t, ht⟩ : ∃ t, exec (.build sym) s = .next t := execBuild_answers h sym
  have hbody := ht
  rw [show exec (.build sym) s = execBuild sym s from rfl, execBuild, execute_of_legal _ hl rfl, if_neg hn] at hbody
  dsimp only at hbody
  split at hbody
  next => cases hbody
  next root k nm hm => exact ⟨root, k, nm, hm, ht.trans hbody.symm⟩

/-- Settles O17: BUILD completes, and what the merge loop leaves is the tree of the table. -/
theorem buildMakesTheTableTree : Obligations.BuildMakesTheTableTree := by
  intro s sym h hload hn
  obtain ⟨root, k, nm, hm, ht⟩ := h.build_completes hload hn sym
  exact ⟨_, ht, rfl, { h.build_treeHeld hload hm with }⟩

/-- Settles O20: under the control invariant FT is determined by its counts, NSYM by FT, and NM is empty before BUILD, so
both BUILDs run the same merge loop. -/
theorem buildDependsOnTheTableOnly : Obligations.BuildDependsOnTheTableOnly := by
  intro s s' sym sym' h h' hload hload' hn hsame
  have hft : s.ft = s'.ft := eq_of_ftRead_eq h.ftForm h'.ftForm hsame
  have hnm : s.nm = s'.nm := (h.loadClean hload).1.trans (h'.loadClean hload').1.symm
  have hnsym : s.nsym = s'.nsym := BitVec.eq_of_toNat_eq (by rw [h.nsymCounts, h'.nsymCounts, hft])
  obtain ⟨root, k, nm, hm, ht⟩ := h.build_completes hload hn sym
  obtain ⟨root', k', nm', hm', ht'⟩ := h'.build_completes hload' (hnsym ▸ hn) sym'
  rw [hft, hnm, hm'] at hm
  cases hm
  exact ⟨_, _, ht, ht', rfl, rfl, rfl, rfl, rfl⟩

end Sys2Proof.Machine
end

section
/-! PROOFS. The shape of a built tree (42_tree.md R122, R126, R129): what every round of the merge loop keeps holds after
BUILD. -/

namespace Sys2Proof.Machine

/-- NM after a round that joins nodes `i` and `j` as node `256 + k` (R123). -/
def mergeInto (nm : Memory NodeRec) (k i j : Nat) : Memory NodeRec :=
  nmWrite nm (Config.internalBase + k) (NodeRec.join i j (nmRead nm i) (nmRead nm j))

/-- One round of the merge loop: node `i` with tree `a` is a least element of the queue, node `j` with tree `b` a least
one of the rest (R123). -/
structure MergeRound (nm : Memory NodeRec) (k : Nat) (i : Nat) (a : Tree) (j : Nat) (b : Tree) (q : List (Nat × Tree)) :
    Prop where
  forest : Forest nm k ((i, a) :: (j, b) :: q)
  first : Tree.lt b a = false
  second : ∀ p ∈ q, Tree.lt p.2 b = false

/-- What every round of the merge loop keeps, whatever the order of the queue. -/
structure KeptByMerging (P : Memory NodeRec → Nat → List (Nat × Tree) → Prop) : Prop where
  perm : ∀ {nm k q q'}, P nm k q → q'.Perm q → P nm k q'
  merge : ∀ {nm k i a j b q}, MergeRound nm k i a j b q → P nm k ((i, a) :: (j, b) :: q) →
    P (mergeInto nm k i j) (k + 1) ((Config.internalBase + k, .internal (a.weight + b.weight) a b) :: q)

/-- A tree that does not sort before another does not weigh less. -/
theorem Tree.weight_le_of_not_lt {a b : Tree} (h : Tree.lt b a = false) : a.weight ≤ b.weight := by
  have := of_decide_eq_false h
  omega

/-- The least of the order of trees is one that no other sorts before. -/
theorem extractMin_treeLt_least {q rest : List (Nat × Tree)} {m : Nat × Tree}
    (h : extractMin treeLt q = some (m, rest)) : ∀ p ∈ rest, Tree.lt p.2 m.2 = false := by
  refine extractMin_least treeLt (fun a b c hab hbc => ?_) (fun a b hab => ?_) h
  · have h1 := of_decide_eq_false hab
    have h2 := of_decide_eq_false hbc
    exact decide_eq_false (by omega)
  · have h1 := of_decide_eq_true hab
    exact decide_eq_false (by omega)

/-- What every round keeps holds when the merge loop ends, with one tree left. -/
theorem KeptByMerging.at_end {P : Memory NodeRec → Nat → List (Nat × Tree) → Prop} (hP : KeptByMerging P)
    {fuel k root k' : Nat} {nm nm' : Memory NodeRec} {q : List (Nat × Tree)} (hq : Forest nm k q) (hinit : P nm k q)
    (h : mergeLoop fuel k nm (q.map Prod.fst) = some (root, k', nm')) :
    ∃ t, Forest nm' k' [(root, t)] ∧ P nm' k' [(root, t)] := by
  induction fuel generalizing k nm q with
  | zero => simp [mergeLoop] at h
  | succ fuel ih =>
    rw [mergeLoop, extractMin_indices hq.nodes] at h
    cases ha : extractMin treeLt q with
    | none => simp [ha] at h
    | some p =>
      obtain ⟨⟨i, a⟩, q1⟩ := p
      have hp1 := extractMin_perm _ ha
      have hq1 := hq.perm hp1
      simp only [ha, Option.map_some] at h
      rw [extractMin_indices fun p hp => hq1.nodes p (List.mem_cons_of_mem _ hp)] at h
      cases hb : extractMin treeLt q1 with
      | none =>
        obtain rfl := (extractMin_eq_none _ _).1 hb
        obtain ⟨rfl, rfl, rfl⟩ : i = root ∧ k = k' ∧ nm = nm' := by simpa [hb] using h
        exact ⟨a, hq1, hP.perm hinit hp1⟩
      | some p =>
        obtain ⟨⟨j, b⟩, q2⟩ := p
        have hp2 := (extractMin_perm _ hb).cons (i, a)
        have hround : MergeRound nm k i a j b q2 :=
          { forest := hq1.perm hp2
            first := extractMin_treeLt_least ha _ ((extractMin_perm _ hb).mem_iff.1 (List.mem_cons_self ..))
            second := extractMin_treeLt_least hb }
        exact ih hround.forest.merge (hP.merge hround (hP.perm hinit (hp2.trans hp1))) (by simpa [hb] using h)

/-- A BUILD that leaves BUILT has run its merge loop to the end (R23, R123). -/
theorem build_of_built {s t : State} {sym : BitVec 8} (hload : s.ph = .load) (h : exec (.build sym) s = .next t)
    (hb : t.ph = .built) : ∃ root k nm,
      mergeLoop (leafQueue s.ft).length 0 (fillLeaves s.ft s.nm) (leafQueue s.ft) = some (root, k, nm) ∧
      t = ({ s with
        nm := nm, root := BitVec.ofNat 9 root, nint := BitVec.ofNat 8 k, ph := .built }.respond .ok 0) := by
  obtain ⟨hf, -⟩ | ⟨e, -, rfl⟩ | ⟨_, -, hc⟩ := exec_cases h
  · simp [hload] at hf
  · simp at hb
  · cases hc with
    | observe _ hi => cases hi
    | build _ _ hm => exact ⟨_, _, _, hm, rfl⟩

/-- A BUILD that leaves BUILT leaves the tree of the table, and the table as it was (R127). -/
theorem State.ControlInv.built_treeHeld {s t : State} {sym : BitVec 8} (h : s.ControlInv) (hload : s.ph = .load)
    (hexec : exec (.build sym) s = .next t) (hb : t.ph = .built) : t.TreeHeld ∧ t.ft = s.ft := by
  obtain ⟨root, k, nm, hm, rfl⟩ := build_of_built hload hexec hb
  exact ⟨{ h.build_treeHeld hload hm with }, rfl⟩

/-- The index of a node in use fits a child field (R33). -/
theorem Represents.toNat_ofNat {nm : Memory NodeRec} {i : Nat} {t : Tree} (h : Represents nm i t) :
    (BitVec.ofNat 9 i).toNat = i := by
  have hi : i < 511 := h.lt_nodeMax
  rw [BitVec.toNat_ofNat]
  omega

/-- What every round of the merge loop keeps holds of NM, NINT and ROOT after BUILD. -/
theorem KeptByMerging.built {P : Memory NodeRec → Nat → List (Nat × Tree) → Prop} (hP : KeptByMerging P) {s t : State}
    {sym : BitVec 8} (h : s.ControlInv) (hload : s.ph = .load) (hexec : exec (.build sym) s = .next t)
    (hb : t.ph = .built) (hinit : P (fillLeaves s.ft []) 0 (leafForest s.ft)) :
    ∃ T, Forest t.nm t.nint.toNat [(t.root.toNat, T)] ∧ P t.nm t.nint.toNat [(t.root.toNat, T)] := by
  obtain ⟨root, k, nm, hm, rfl⟩ := build_of_built hload hexec hb
  rw [(h.loadClean hload).1, ← leafForest_map_fst] at hm
  obtain ⟨T, hforest, hT⟩ := hP.at_end (leafForest_forest s.ft) hinit hm
  have hroot : (BitVec.ofNat 9 root).toNat = root := (hforest.nodes (root, T) (List.mem_singleton.2 rfl)).toNat_ofNat
  have hroom : k + 1 ≤ 256 := hforest.room
  have hk : (BitVec.ofNat 8 k).toNat = k := by rw [BitVec.toNat_ofNat]; omega
  refine ⟨T, ?_⟩
  simpa only [State.respond_nm, State.respond_nint, State.respond_root, hroot, hk] using And.intro hforest hT

/-! What a round reads before and after. -/

section
variable {nm : Memory NodeRec} {k i j : Nat} {a b : Tree} {q : List (Nat × Tree)}

/-- A valid entry is one made before (R33). -/
theorem Forest.lt_of_valid (h : Forest nm k q) {n : Nat} (hn : (nmRead nm n).valid = true) :
    n < Config.internalBase + k := by
  by_contra hge
  rw [h.rest n (not_lt.1 hge)] at hn
  cases hn

/-- The first node taken is the root of its tree. -/
theorem MergeRound.left (h : MergeRound nm k i a j b q) : Represents nm i a :=
  h.forest.nodes (i, a) (by simp)

/-- The second node taken is the root of its tree. -/
theorem MergeRound.right (h : MergeRound nm k i a j b q) : Represents nm j b :=
  h.forest.nodes (j, b) (by simp)

/-- A round writes the new node alone. -/
theorem MergeRound.nmRead_mergeInto (h : MergeRound nm k i a j b q) (n : Nat) :
    nmRead (mergeInto nm k i j) n =
      if n = Config.internalBase + k then NodeRec.join i j (nmRead nm i) (nmRead nm j) else nmRead nm n := by
  have hroom := h.forest.room
  simp only [List.length_cons] at hroom
  exact nmRead_nmWrite _ _ _ _ h.forest.form (by simp only [Config.internalBase, Config.nodeMax]; omega)

/-- A round leaves the nodes made before alone. -/
theorem MergeRound.nmRead_of_valid (h : MergeRound nm k i a j b q) {n : Nat} (hn : (nmRead nm n).valid = true) :
    nmRead (mergeInto nm k i j) n = nmRead nm n := by
  rw [h.nmRead_mergeInto, if_neg (h.forest.lt_of_valid hn).ne]

/-- A round leaves the internal nodes made before alone. -/
theorem MergeRound.nmRead_internal (h : MergeRound nm k i a j b q) {k' : Nat} (hk : k' < k) :
    nmRead (mergeInto nm k i j) (Config.internalBase + k') = nmRead nm (Config.internalBase + k') :=
  h.nmRead_of_valid (h.forest.made k' hk).1

/-- The new node is the join of the two least. -/
theorem MergeRound.nmRead_new (h : MergeRound nm k i a j b q) :
    nmRead (mergeInto nm k i j) (Config.internalBase + k) = NodeRec.join i j (nmRead nm i) (nmRead nm j) := by
  rw [h.nmRead_mergeInto, if_pos rfl]

/-- The new node holds the merged tree, no weight overflowing (R130). -/
theorem MergeRound.join_holds (h : MergeRound nm k i a j b q) :
    (NodeRec.join i j (nmRead nm i) (nmRead nm j)).Holds (.internal (a.weight + b.weight) a b) := by
  have hw := h.forest.weights
  simp only [List.map_cons, List.sum_cons] at hw
  exact h.left.holds.join h.right.holds (by omega) i j

end

end Sys2Proof.Machine
end

section
/-! PROOFS. The internal nodes of a built tree (42_tree.md R122, R126, R129 (a), (c), (f), (g)). -/

namespace Sys2Proof.Machine

/-- Record `x` of node `n` joins the records `l` and `r` of its children: both valid and made before it, the left sorting
first, the weight exactly their sum and the minleaf the smaller of theirs. -/
structure NodeRec.Joins (n : Nat) (x l r : NodeRec) : Prop where
  leftValid : l.valid = true
  rightValid : r.valid = true
  leftBefore : x.l.toNat < n
  rightBefore : x.r.toNat < n
  sorted : l.key < r.key
  weight : x.w.toNat = l.w.toNat + r.w.toNat
  minLeaf : x.ml.toNat = min l.ml.toNat r.ml.toNat

/-- Node `n` joins its two children in NM. -/
def JoinsChildren (nm : Memory NodeRec) (n : Nat) : Prop :=
  (nmRead nm n).Joins n (nmRead nm (nmRead nm n).l.toNat) (nmRead nm (nmRead nm n).r.toNat)

/-- The internal nodes made so far join their children, and no leaf value is in two trees of the queue, so that two of
its nodes never tie (R122). -/
structure Shaped (nm : Memory NodeRec) (k : Nat) (q : List (Nat × Tree)) : Prop where
  leaves : (q.flatMap (fun p => p.2.leaves)).Nodup
  joined : ∀ k' < k, JoinsChildren nm (Config.internalBase + k')

/-- The new node joins its children, when they have no leaf in common. -/
theorem MergeRound.joinsChildren {nm : Memory NodeRec} {k i j : Nat} {a b : Tree} {q : List (Nat × Tree)}
    (h : MergeRound nm k i a j b q) (hdisj : ∀ v ∈ a.leaves, v ∉ b.leaves) :
    JoinsChildren (mergeInto nm k i j) (Config.internalBase + k) := by
  have hi := h.left.holds
  have hj := h.right.holds
  have hx := h.join_holds
  have hlt : Tree.lt a b = true := by rw [disjointTreesNeverTie a b hdisj, h.first]; rfl
  have hl : (NodeRec.join i j (nmRead nm i) (nmRead nm j)).l.toNat = i := h.left.toNat_ofNat
  have hr : (NodeRec.join i j (nmRead nm i) (nmRead nm j)).r.toNat = j := h.right.toNat_ofNat
  rw [JoinsChildren, h.nmRead_new, hl, hr, h.nmRead_of_valid hi.valid, h.nmRead_of_valid hj.valid]
  exact {
    leftValid := hi.valid
    rightValid := hj.valid
    leftBefore := hl.symm ▸ h.forest.lt_of_valid hi.valid
    rightBefore := hr.symm ▸ h.forest.lt_of_valid hj.valid
    sorted := (hi.key_lt_iff hj).2 hlt
    weight := by rw [hx.weight, hi.weight, hj.weight]; rfl
    minLeaf := by rw [hx.minLeaf, hi.minLeaf, hj.minLeaf]; rfl }

/-- Every round keeps the shape. -/
theorem Shaped.kept : KeptByMerging Shaped where
  perm h hp := ⟨(hp.flatMap_right _).nodup_iff.2 h.leaves, h.joined⟩
  merge {nm k i a j b q} hround h := by
    have hleaves := h.leaves
    refine ⟨by simpa [Tree.leaves] using hleaves, fun k' hk' => ?_⟩
    obtain hlt | rfl := Nat.lt_succ_iff_lt_or_eq.1 hk'
    · have hold := h.joined k' hlt
      rw [JoinsChildren, hround.nmRead_internal hlt, hround.nmRead_of_valid hold.leftValid,
        hround.nmRead_of_valid hold.rightValid]
      exact hold
    · simp only [List.flatMap_cons, ← List.append_assoc] at hleaves
      exact hround.joinsChildren (List.disjoint_of_nodup_append hleaves.of_append_left)

/-- The leaves of the table are well shaped. -/
theorem leafForest_shaped (ft : Memory (BitVec 31)) : Shaped (fillLeaves ft []) 0 (leafForest ft) where
  leaves := by simpa [leafForest, List.flatMap_map, Tree.leaves] using symbols_nodup.filter _
  joined := nofun

/-- The weights of the internal nodes made so far do not decrease, because any two nodes still in the queue weigh at least
as much as the node made last. -/
structure Rising (nm : Memory NodeRec) (k : Nat) (q : List (Nat × Tree)) : Prop where
  pairs : ∀ k', k' + 1 = k →
    q.Pairwise (fun p p' => (nmRead nm (Config.internalBase + k')).w.toNat ≤ p.2.weight + p'.2.weight)
  rising : ∀ k', k' + 1 < k →
    (nmRead nm (Config.internalBase + k')).w ≤ (nmRead nm (Config.internalBase + (k' + 1))).w

/-- Every round keeps the weights rising: the two nodes it joins are a pair of the queue before, and no node left weighs
less than either. -/
theorem Rising.kept : KeptByMerging Rising where
  perm h hp := ⟨fun k' hk' => (hp.pairwise_iff fun hab => by omega).2 (h.pairs k' hk'), h.rising⟩
  merge {nm k i a j b q} hround h := by
    have hnew := hround.join_holds.weight
    rw [← hround.nmRead_new, Tree.weight] at hnew
    have hab := Tree.weight_le_of_not_lt hround.first
    have hb (p) (hp : p ∈ q) := Tree.weight_le_of_not_lt (hround.second p hp)
    refine ⟨fun k' hk' => ?_, fun k' hk' => ?_⟩
    · obtain rfl : k' = k := Nat.succ_injective hk'
      rw [hnew, List.pairwise_cons]
      refine ⟨fun p _ => Nat.le_add_right _ _, List.pairwise_of_forall_mem_list fun p hp p' hp' => ?_⟩
      have := hb p hp
      have := hb p' hp'
      omega
    · obtain hlt | rfl := Nat.lt_succ_iff_lt_or_eq.1 hk'
      · rw [hround.nmRead_internal hlt, hround.nmRead_internal (Nat.lt_of_succ_lt hlt)]
        exact h.rising k' hlt
      · rw [BitVec.le_def, hnew, hround.nmRead_internal (Nat.lt_succ_self k')]
        exact (List.pairwise_cons.1 (h.pairs k' rfl)).1 (j, b) (List.mem_cons_self ..)

/-- Before the first round there is no internal node. -/
theorem rising_zero (nm : Memory NodeRec) (q : List (Nat × Tree)) : Rising nm 0 q := ⟨nofun, nofun⟩

/-- Settles O18: every round of the merge loop keeps `Shaped` and `Rising`. -/
theorem builtNodesAreWellShaped : Obligations.BuiltNodesAreWellShaped := by
  intro s t sym h hload hexec hb k hk
  obtain ⟨_, -, hshaped⟩ := Shaped.kept.built h hload hexec hb (leafForest_shaped s.ft)
  obtain ⟨_, -, hrising⟩ := Rising.kept.built h hload hexec hb (rising_zero _ _)
  obtain ⟨hl, hr, hlb, hrb, hkey, hw, hm⟩ := hshaped.joined k hk
  exact ⟨hl, hr, hlb, hrb, hkey, hw, hm, hrising.rising k⟩

end Sys2Proof.Machine
end

section
/-! PROOFS. The nodes of a built tree, each in its one place (42_tree.md R129 (b), (d), (e)). -/

namespace Sys2Proof.Machine

/-- The two children of an internal node. -/
def childPair (nm : Memory NodeRec) (k : Nat) : List Nat :=
  [(nmRead nm (Config.internalBase + k)).l.toNat, (nmRead nm (Config.internalBase + k)).r.toNat]

/-- A node is one of the two children when it is the left or the right one. -/
theorem mem_childPair (nm : Memory NodeRec) (k n : Nat) :
    n ∈ childPair nm k ↔ (nmRead nm (Config.internalBase + k)).l.toNat = n ∨
      (nmRead nm (Config.internalBase + k)).r.toNat = n := by
  simp [childPair, eq_comm]

/-- The children of the first `k` internal nodes. -/
def children (nm : Memory NodeRec) (k : Nat) : List Nat := (List.range k).flatMap (childPair nm)

/-- Every valid node is in the queue or a child of an internal node, once. -/
structure Covered (nm : Memory NodeRec) (k : Nat) (q : List (Nat × Tree)) : Prop where
  once : (q.map Prod.fst ++ children nm k).Nodup
  valid : ∀ n, n ∈ q.map Prod.fst ++ children nm k ↔ (nmRead nm n).valid = true

/-- A round adds the two nodes it joins to the children. -/
theorem MergeRound.children_mergeInto {nm : Memory NodeRec} {k i j : Nat} {a b : Tree} {q : List (Nat × Tree)}
    (h : MergeRound nm k i a j b q) : children (mergeInto nm k i j) (k + 1) = children nm k ++ [i, j] := by
  have hnew : childPair (mergeInto nm k i j) k = [i, j] := by
    rw [childPair, h.nmRead_new, NodeRec.join, h.left.toNat_ofNat, h.right.toNat_ofNat]
  have hold : (List.range k).flatMap (childPair (mergeInto nm k i j)) = children nm k :=
    List.flatMap_congr fun k' hk' => by rw [childPair, h.nmRead_internal (List.mem_range.1 hk')]; rfl
  rw [children, List.range_succ, List.flatMap_append, hold, List.flatMap_singleton, hnew]

/-- Every round keeps each valid node in its one place: the two nodes joined move from the queue to the children, and the
new node enters the queue. -/
theorem Covered.kept : KeptByMerging Covered where
  perm h hp := by
    have hp := (hp.map Prod.fst).append_right
    exact ⟨(hp _).nodup_iff.2 h.once, fun n => (hp _).mem_iff.trans (h.valid n)⟩
  merge {nm k i a j b q} hround h := by
    have hmove : (((Config.internalBase + k, Tree.internal (a.weight + b.weight) a b) :: q).map Prod.fst ++
        children (mergeInto nm k i j) (k + 1)).Perm
        ((Config.internalBase + k) :: (((i, a) :: (j, b) :: q).map Prod.fst ++ children nm k)) := by
      rw [hround.children_mergeInto, ← List.append_assoc]
      exact List.Perm.cons _ List.perm_append_comm
    have hfresh : Config.internalBase + k ∉ ((i, a) :: (j, b) :: q).map Prod.fst ++ children nm k := fun hmem =>
      (hround.forest.lt_of_valid ((h.valid _).1 hmem)).false
    refine ⟨hmove.nodup_iff.2 (List.nodup_cons.2 ⟨hfresh, h.once⟩), fun n => ?_⟩
    rw [hmove.mem_iff, List.mem_cons, h.valid, hround.nmRead_mergeInto]
    split_ifs with hn
    · simp [hn, NodeRec.join]
    · simp [hn]

/-- The leaf slots that hold a leaf are those of the present symbols (R33). -/
theorem fillLeaves_valid_iff (ft : Memory (BitVec 31)) (n : Nat) :
    (nmRead (fillLeaves ft []) n).valid = true ↔ n ∈ leafQueue ft := by
  have hslot (v : Byte) : (nmRead (fillLeaves ft []) v.toNat).valid = true ↔ ftRead ft v ≠ 0 := by
    rw [nmRead_fillLeaves ft (Memory.wf_nil _ _), leafSlot]
    split_ifs with hv
    · simp [hv, NodeRec.zero]
    · simpa [NodeRec.ofLeaf] using hv
  have hqueue : n ∈ leafQueue ft ↔ ∃ v : Byte, ftRead ft v ≠ 0 ∧ v.toNat = n := by simp [leafQueue]
  rw [hqueue]
  constructor
  · intro hn
    have hlt : n < 256 := (leafForest_forest ft).lt_of_valid hn
    have hv : (BitVec.ofNat 8 n).toNat = n := Nat.mod_eq_of_lt hlt
    exact ⟨_, (hslot _).1 (hv.symm ▸ hn), hv⟩
  · rintro ⟨v, hv, rfl⟩
    exact (hslot v).2 hv

/-- Before the first round every valid node is in the queue. -/
theorem leafForest_covered (ft : Memory (BitVec 31)) : Covered (fillLeaves ft []) 0 (leafForest ft) := by
  have hlist : (leafForest ft).map Prod.fst ++ children (fillLeaves ft []) 0 = leafQueue ft := by
    rw [leafForest_map_fst]; exact List.append_nil _
  constructor <;> rw [hlist]
  · exact (symbols_nodup.filter _).map fun _ _ => BitVec.eq_of_toNat_eq
  · exact fun n => (fillLeaves_valid_iff ft n).symm

/-- Where no node is a child twice, a child has one parent, on one side (R129 (b)). -/
theorem children_unique {nm : Memory NodeRec} {k n : Nat} (h : (children nm k).Nodup) (hn : n ∈ children nm k) :
    ∃ k' < k,
      (((nmRead nm (Config.internalBase + k')).l.toNat = n ∧ (nmRead nm (Config.internalBase + k')).r.toNat ≠ n) ∨
        ((nmRead nm (Config.internalBase + k')).l.toNat ≠ n ∧ (nmRead nm (Config.internalBase + k')).r.toNat = n)) ∧
      ∀ k'' < k, n ∈ childPair nm k'' → k'' = k' := by
  obtain ⟨hpair, hdisj⟩ := List.nodup_flatMap.1 h
  obtain ⟨k', hk', hmem⟩ := List.mem_flatMap.1 hn
  have hsides := hpair k' hk'
  refine ⟨k', List.mem_range.1 hk', ?_, fun k'' hk'' hmem'' => ?_⟩
  · simp only [childPair, List.nodup_cons, List.mem_cons, List.not_mem_nil, or_false] at hsides hmem
    omega
  · by_contra hne
    have : Std.Symm (Function.onFun List.Disjoint (childPair nm)) := ⟨fun _ _ h => h.symm⟩
    exact hdisj.forall (List.mem_range.2 hk'') hk' hne hmem'' hmem

/-- Every round keeps the sum of the weights in the queue. -/
theorem weightSum_kept (total : Nat) : KeptByMerging fun _ _ q => (q.map fun p => p.2.weight).sum = total where
  perm h hp := (hp.map _).sum_eq.trans h
  merge _ h := by simpa [Tree.weight, add_assoc] using h

/-- The leaves weigh what the table counts. -/
theorem leafForest_weight (ft : Memory (BitVec 31)) :
    ((leafForest ft).map fun p => p.2.weight).sum = ((tableOf ft).map Prod.snd).sum := by
  simp [leafForest, tableOf, Function.comp_def, Tree.weight]

/-- Settles O19: when the merge loop ends ROOT is the whole queue, so every other valid node is a child, once, and ROOT
weighs what the queue weighed at the start. -/
theorem builtTreeCoversTheTable : Obligations.BuiltTreeCoversTheTable := by
  intro s t sym h hload hexec hb
  obtain ⟨_, -, hcovered⟩ := Covered.kept.built h hload hexec hb (leafForest_covered s.ft)
  obtain ⟨T, hforest, hweight⟩ := (weightSum_kept _).built h hload hexec hb (leafForest_weight s.ft)
  have hroot : Represents t.nm t.root.toNat T := hforest.nodes (_, T) (List.mem_singleton.2 rfl)
  obtain ⟨hheld, hft⟩ := h.built_treeHeld hload hexec hb
  obtain ⟨hrootNotChild, hchildren⟩ := List.nodup_cons.1 hcovered.once
  refine ⟨fun n _ hvalid hn => ?_, fun k hk => ?_, ?_, ?_⟩
  · have hmem := (List.mem_cons.1 ((hcovered.valid n).2 hvalid)).resolve_left hn
    obtain ⟨k, hk, hside, hone⟩ := children_unique hchildren hmem
    exact ⟨k, hk, hside, fun k' hk' hk'n => hone k' hk' ((mem_childPair ..).2 hk'n)⟩
  · have hnot : t.root.toNat ∉ childPair t.nm k := fun hmem =>
      hrootNotChild (List.mem_flatMap.2 ⟨k, List.mem_range.2 hk, hmem⟩)
    exact not_or.1 (mt (mem_childPair ..).2 hnot)
  · obtain ⟨T', hT'⟩ := Option.ne_none_iff_exists'.1 hheld.treeRead
    exact ⟨T', hT', hheld.leaves_perm hT'⟩
  · rw [hroot.holds.weight, hft, ← hweight]
    simp

end Sys2Proof.Machine
end

section
/-! PROOFS. The code-table commands (43_codegen.md R140 to R146): GEN makes the codes of the tree, no code begins
another and together they begin every bit string, and CTL and CTB read them. -/

namespace Sys2Proof.Machine

/-- GEN in BUILT runs its own rule: CT and PH are all it writes, and CT holds the codes of the tree (R140, R142). -/
theorem State.TreeHeld.gen_completes {s : State} (h : s.TreeHeld) (hbuilt : s.ph = .built) {t : Tree}
    (ht : s.tree = some t) (sym : BitVec 8) :
    exec (.gen sym) s = .next ({ s with ct := writeCodes [] t.codes, ph := .coded }.respond .ok 0) := by
  have hl : legalIn (.gen sym) s.ph = true := by simp [legalIn, hbuilt]
  show execGen sym s = _
  rw [execGen, execute_of_legal _ hl rfl, h.generate_eq ht]

/-- Settles O24: BUILT has a tree, GEN runs its own rule on it, and what that leaves in CT are the tree's codes. -/
theorem genMakesTheTreeCodes : Obligations.GenMakesTheTreeCodes := by
  intro s sym _ htree hbuilt
  have hheld := htree (.inl hbuilt)
  obtain ⟨t, ht⟩ := Option.ne_none_iff_exists'.1 hheld.treeRead
  exact ⟨_, hheld.gen_completes hbuilt ht sym, rfl, { hheld.gen_codesHeld (hheld.generate_eq ht) with }⟩

/-! One symbol. -/

/-- With one symbol the tree is a single leaf (R28, R142). -/
theorem State.TreeHeld.tree_leaf {s : State} (h : s.TreeHeld) (hc : s.nsym.toNat = presentCount s.ft)
    (h1 : s.nsym = 1) : ∃ v w, s.tree = some (.leaf v w) := by
  obtain ⟨t, ht⟩ := Option.ne_none_iff_exists'.1 h.treeRead
  have hlen : t.leaves.length = 1 := (h.leaves_perm ht).length_eq.trans (hc.symm.trans (congrArg BitVec.toNat h1))
  cases t with
  | leaf v w => exact ⟨v, w, ht⟩
  | internal w a b =>
    have ha := a.leaves_length_pos
    have hb := b.leaves_length_pos
    rw [Tree.leaves, List.length_append] at hlen
    omega

/-- The symbols of a single leaf's tree are the leaf's own. -/
theorem State.TreeHeld.present_iff_of_leaf {s : State} (h : s.TreeHeld) {v : Byte} {w : Nat}
    (ht : s.tree = some (.leaf v w)) (u : Byte) : ftRead s.ft u ≠ 0 ↔ u = v := by
  simpa [Tree.leaves] using (h.leaves_perm ht).mem_iff (a := u) |>.symm

/-- Where the tree is a single leaf ROOT is the leaf's own slot (R28, R33). -/
theorem State.TreeHeld.root_of_leaf {s : State} (h : s.TreeHeld) {v : Byte} {w : Nat}
    (ht : s.tree = some (.leaf v w)) : s.root.toNat < 256 ∧ s.root.extractLsb' 0 8 = v := by
  obtain ⟨hvalid, ⟨htag, hleaf⟩ | ⟨-, a, b, -, -, hinternal⟩⟩ := treeOf_succ_eq_some ht
  · obtain ⟨hroot, hml⟩ := h.leaf_slot _ hvalid htag
    obtain ⟨rfl, -⟩ := Tree.leaf.inj hleaf
    exact ⟨hroot, (show s.root.extractLsb' 0 8 = BitVec.ofNat 8 s.root.toNat from rfl).trans hml.symm⟩
  · cases hinternal

/-- The entry of the code "0" (R142). -/
theorem CodeEntry.ofBits_singleton_false : CodeEntry.ofBits [false] = ⟨1, 0⟩ := by
  simp [CodeEntry.ofBits, leftAlign]

/-- Settles O25: the tree is a single leaf, ROOT is its slot, and GEN writes the one entry "0" into an empty table. -/
theorem genGivesSingleSymbolCodeZero : Obligations.GenGivesSingleSymbolCodeZero := by
  intro s sym hcontrol htree hbuilt h1
  have hheld := htree (.inl hbuilt)
  obtain ⟨v, w, ht⟩ := hheld.tree_leaf hcontrol.nsymCounts h1
  obtain ⟨hroot, hv⟩ := hheld.root_of_leaf ht
  have hread := ctRead_writeCodes_codes (hheld.leaves_nodup ht)
  rw [hv]
  refine ⟨hroot, (hheld.present_iff_of_leaf ht v).2 rfl, _, hheld.gen_completes hbuilt ht sym, ?_, fun u hu => ?_⟩
  · refine (hread v).trans ?_
    simp [Tree.codes, CodeEntry.ofBits_singleton_false]
  · refine (hread u).trans ?_
    have hb : (u == v) = false := by simpa using hu
    simp [Tree.codes, List.lookup_cons, hb]

/-! No code begins another, and the codes are complete (R146). -/

/-- On a tree of two symbols or more the code of one does not begin the code of another: the walk would pass a leaf. -/
theorem State.Descending.eq_of_prefix {t : Tree} {s : State} (h : s.Descending t) {u v : Byte}
    (hu : (ctRead s.ct u).len ≠ 0) (hv : (ctRead s.ct v).len ≠ 0)
    (hp : (ctRead s.ct u).bits <+: (ctRead s.ct v).bits) : u = v := by
  obtain ⟨w, hdu⟩ := (h.codes u _).1 ⟨hu, rfl⟩
  obtain ⟨w', hdv⟩ := (h.codes v _).1 ⟨hv, rfl⟩
  by_cases he : (ctRead s.ct u).bits = (ctRead s.ct v).bits
  · rw [he, hdv] at hdu
    cases hdu
    rfl
  · obtain ⟨w, a, b, hd⟩ := Tree.descend_properPrefix hdv hp he
    cases hdu.symm.trans hd

/-- After a GEN only one symbol's code can begin a symbol's code, whether there is one symbol or more. -/
theorem State.Inv.eq_of_code_prefix {s : State} (h : s.Inv) (hg : s.codesMade) {u v : Byte}
    (hu : (ctRead s.ct u).len ≠ 0) (hv : (ctRead s.ct v).len ≠ 0)
    (hp : (ctRead s.ct u).bits <+: (ctRead s.ct v).bits) : u = v := by
  by_cases h1 : s.nsym = 1
  · have hcodes := h.codes hg
    have hheld := h.tree hcodes.built
    obtain ⟨x, w, ht⟩ := hheld.tree_leaf h.control.nsymCounts h1
    have hone {y : Byte} (hy : (ctRead s.ct y).len ≠ 0) : y = x :=
      (hheld.present_iff_of_leaf ht y).1 ((hcodes.codedSymbols y).1 hy)
    exact (hone hu).trans (hone hv).symm
  · obtain ⟨t, hd⟩ := h.descending hg h1
    exact hd.eq_of_prefix hu hv hp

/-- A walk reaches a leaf on its way, or ends at an internal node (R166). -/
theorem Tree.descend_reaches_leaf_or_internal (t : Tree) (c : BitString) :
    (∃ d v w, d <+: c ∧ t.descend d = some (.leaf v w)) ∨ ∃ w a b, t.descend c = some (.internal w a b) := by
  induction c generalizing t with
  | nil =>
    cases t with
    | leaf v w => exact .inl ⟨[], v, w, List.nil_prefix, rfl⟩
    | internal w a b => exact .inr ⟨w, a, b, rfl⟩
  | cons x c ih =>
    cases t with
    | leaf v w => exact .inl ⟨[], v, w, List.nil_prefix, rfl⟩
    | internal w a b =>
      have hcons (e : BitString) : (Tree.internal w a b).descend (x :: e) = (if x then b else a).descend e := by
        cases x <;> rfl
      obtain ⟨d, v, w', hp, hd⟩ | ⟨w', a', b', hd⟩ := ih (if x then b else a)
      · exact .inl ⟨x :: d, v, w', List.cons_prefix_cons.2 ⟨rfl, hp⟩, (hcons d).trans hd⟩
      · exact .inr ⟨w', a', b', (hcons c).trans hd⟩

/-- The walk to an internal node begins some code and is not all of it (R165). -/
theorem State.Descending.properPrefix_of_internal {t : Tree} {s : State} (h : s.Descending t) {c : BitString}
    (hc : ∃ w a b, t.descend c = some (.internal w a b)) :
    ∃ v : Byte, (ctRead s.ct v).len ≠ 0 ∧ c <+: (ctRead s.ct v).bits ∧ c ≠ (ctRead s.ct v).bits := by
  have hlen : c.length ≤ 255 := by
    obtain ⟨w, a, b, hd⟩ := hc
    exact h.bound c _ hd
  simpa only [s.candidate_setCandidate c hlen, State.setCandidate_ct] using (h.setCandidate hc).begun

/-- Settles O26: a bit string is walked down the tree; on its way it reaches a leaf, whose code begins it, or it ends
at an internal node, below which there is a code that it begins. -/
theorem codesArePrefixFreeAndComplete : Obligations.CodesArePrefixFreeAndComplete := by
  intro s h hg
  refine ⟨fun u v huv hu hv hp => huv (h.eq_of_code_prefix hg hu hv hp), fun h2 c => ?_⟩
  have h1 : s.nsym ≠ 1 := by bv_omega
  obtain ⟨t, hd⟩ := h.descending hg h1
  obtain ⟨d, v, w, hp, hleaf⟩ | hinternal := t.descend_reaches_leaf_or_internal c
  · obtain ⟨hlen, rfl⟩ := (hd.codes v d).2 ⟨w, hleaf⟩
    exact .inl ⟨v, hlen, hp⟩
  · exact .inr (hd.properPrefix_of_internal hinternal)

/-! The reads CTL and CTB (R144, R145). -/

/-- Bit `63 - k` of chunk `q` is bit `255 - (64 q + k)` of the framed word (R145). -/
theorem chunk_getLsbD (w : BitVec 255) (q : BitVec 2) {k : Nat} (hk : k < 64) :
    (chunk w q).getLsbD (63 - k) = (framed w).getLsbD (255 - (64 * q.toNat + k)) := by
  have hq := q.isLt
  have hindex : 192 - 64 * q.toNat + (63 - k) = 255 - (64 * q.toNat + k) := by omega
  have hbit : 63 - k < 64 := by omega
  rw [chunk, BitVec.getLsbD_extractLsb', hindex, decide_eq_true hbit, Bool.true_and]

/-- Bit `k` of an entry's code stands `k` bits below the top of the framed word (R35, R145). -/
theorem framed_getLsbD_of_lt_len (e : CodeEntry) {k : Nat} (hk : k < e.len.toNat) :
    (framed e.w).getLsbD (255 - k) = e.bits.getD k false := by
  have hlen := e.len.isLt
  have hbits : k < e.bits.length := (leftBits_length e.len e.w).symm ▸ hk
  have hbelow : ¬ 255 - k < 1 := by omega
  have hindex : 255 - k - 1 = 254 - k := by omega
  rw [List.getD_eq_getElem _ _ hbits, framed, BitVec.getLsbD_append, if_neg hbelow, hindex]
  exact (leftBits_getElem e.len e.w k hk).symm

/-- Settles O27: both reads are legal in every phase, and the chunk CTB answers is read bit by bit. -/
theorem codeReadsAnswerTheEntry : Obligations.CodeReadsAnswerTheEntry := by
  intro s v q
  refine ⟨?_, chunk (ctRead s.ct v).w q, ?_, fun k hk => chunk_getLsbD _ q hk, fun k hk hcode => ?_⟩
  · show execCtl v s = _
    exact execute_of_legal _ rfl rfl
  · show execCtb v q s = _
    exact execute_of_legal _ rfl rfl
  · rw [chunk_getLsbD _ q hk, framed_getLsbD_of_lt_len _ hcode]

end Sys2Proof.Machine
end

section
/-! PROOFS. The packer (44_pack.md R150 to R153): the bits that PKB and PKE emit and hold. -/

namespace Sys2Proof.Machine

/-! The low bits of a byte, and the bits of a payload. -/

/-- The `n` low bits of a byte, most significant first: the form both of a whole byte and of the bits held in PACC
(R31, R61). -/
def lowBits (p : Byte) (n : Nat) : BitString := (List.range n).map fun k => p.getLsbD (n - 1 - k)

/-- A byte is its 8 low bits. -/
theorem byteBits_eq_lowBits (p : Byte) : byteBits p = lowBits p 8 := rfl

/-- The bits held are the PCNT low bits of PACC (R31). -/
theorem State.heldBits_eq_lowBits (s : State) : s.heldBits = lowBits s.pacc s.pcnt.toNat := rfl

@[simp] theorem lowBits_length (p : Byte) (n : Nat) : (lowBits p n).length = n := by simp [lowBits]

@[simp] theorem lowBits_zero (p : Byte) : lowBits p 0 = [] := rfl

/-- A bit shifted in from the right follows the bits that were there (R151). -/
theorem lowBits_shiftIn (p : Byte) (x : Bool) {n : Nat} (hn : n < 8) :
    lowBits ((p <<< 1) ||| (BitVec.ofBool x).zeroExtend 8) (n + 1) = lowBits p n ++ [x] := by
  have hlast : n - 0 - n = 0 := by omega
  rw [lowBits, List.range_succ, List.map_append, lowBits]
  congr 1
  · refine List.map_congr_left fun k hk => ?_
    have hk : k < n := List.mem_range.1 hk
    rw [getLsbD_shiftIn _ _ _ (by omega), if_neg (by omega)]
    congr 1
    omega
  · rw [List.map_singleton, getLsbD_shiftIn _ _ _ (by omega), if_pos (by omega)]

/-- Zeros shifted in from the right follow the bits that were there (R152). -/
theorem lowBits_shiftLeft (p : Byte) {n m : Nat} (hm : n + m ≤ 8) :
    lowBits (p <<< m) (n + m) = lowBits p n ++ List.replicate m false := by
  refine List.ext_getElem (by simp) fun k hk _ => ?_
  have hk : k < n + m := by simpa using hk
  have hbit : n + m - 1 - k < 8 := by omega
  simp only [lowBits, List.getElem_map, List.getElem_range, BitVec.getLsbD_shiftLeft, List.getElem_append,
    List.length_map, List.length_range, List.getElem_replicate, hbit, decide_true, Bool.true_and]
  split_ifs with hold
  · have hplace : n + m - 1 - k - m = n - 1 - k := by omega
    have habove : ¬ n + m - 1 - k < m := by omega
    simp [hplace, habove]
  · have hbelow : n + m - 1 - k < m := by omega
    simp [hbelow]

@[simp] theorem bitsOf_nil : bitsOf [] = [] := rfl

@[simp] theorem bitsOf_cons (b : Byte) (p : Bytes) : bitsOf (b :: p) = byteBits b ++ bitsOf p := rfl

@[simp] theorem bitsOf_append (p q : Bytes) : bitsOf (p ++ q) = bitsOf p ++ bitsOf q := List.flatMap_append

@[simp] theorem bitsOf_length (p : Bytes) : (bitsOf p).length = 8 * p.length := by
  induction p with
  | nil => rfl
  | cons b p ih => simp [ih, Nat.mul_add, Nat.add_comm]

/-- Bit `8 i + j` of a payload is bit `7 - j` of its byte `i` (R61). -/
theorem bitsOf_getD (p : Bytes) {i j : Nat} (hi : i < p.length) (hj : j < 8) :
    (bitsOf p).getD (8 * i + j) false = p[i].getLsbD (7 - j) := by
  induction p generalizing i with
  | nil => simp at hi
  | cons b p ih =>
    cases i with
    | zero =>
      have hbyte : j < (byteBits b).length := by simpa using hj
      rw [bitsOf_cons, Nat.mul_zero, Nat.zero_add, List.getD_append _ _ _ _ hbyte, List.getD_eq_getElem _ _ hbyte]
      exact byteBits_getElem b j hj
    | succ i =>
      have hrest : (byteBits b).length ≤ 8 * (i + 1) + j := by rw [byteBits_length]; omega
      have hindex : 8 * (i + 1) + j - (byteBits b).length = 8 * i + j := by rw [byteBits_length]; omega
      rw [bitsOf_cons, List.getD_append_right _ _ _ _ hrest, hindex]
      exact ih (Nat.lt_of_succ_lt_succ hi)

/-- The bytes whose bits are a string padded with fewer than 8 zeros are `ToBytes` of the string (R153). -/
theorem eq_toBytes_of_bitsOf {p : Bytes} {b : BitString} {k : Nat} (hk : k < 8)
    (h : bitsOf p = b ++ List.replicate k false) : p = toBytes b := by
  have hlen : 8 * p.length = b.length + k := by simpa using congrArg List.length h
  have hcount : p.length = (toBytes b).length := by rw [toBytes_length]; omega
  have hpad (j : Nat) : (bitsOf p).getD j false = b.getD j false := by
    rw [h]
    by_cases hj : j < b.length
    · exact List.getD_append _ _ _ _ hj
    · rw [List.getD_append_right _ _ _ _ (not_lt.1 hj), List.getD_eq_getElem?_getD,
        List.getElem?_getD_replicate_default_eq, List.getD_eq_default _ _ (not_lt.1 hj)]
  refine List.ext_getElem hcount fun i hi hi' => BitVec.eq_of_getLsbD_eq fun n hn => ?_
  have hn7 : 7 - (7 - n) = n := by omega
  have hdiv : (8 * i + (7 - n)) / 8 = i := by omega
  have hmod : (8 * i + (7 - n)) % 8 = 7 - n := by omega
  have hp := bitsOf_getD p hi (show 7 - n < 8 by omega)
  have hb := toBytes_bit b (8 * i + (7 - n)) (by omega)
  rw [hdiv, hmod, hn7, List.getD_eq_getElem _ _ hi'] at hb
  rw [hn7, hpad] at hp
  exact hp.symm.trans hb.symm

/-! What packing does to the bits emitted and held. -/

@[simp] theorem State.heldBits_length (s : State) : s.heldBits.length = s.pcnt.toNat := lowBits_length _ _

/-- Packing the bits `c` leads from `s` to `t` and emits `bytes`: no bit is lost or made, and besides OUT and OUTCNT
only PACC, PCNT and the responses change (R151). -/
structure Appends (s : State) (c : BitString) (bytes : Bytes) (t : State) : Prop where
  frame : t = { s.emitted bytes with pacc := t.pacc, pcnt := t.pcnt, rsps := t.rsps }
  bits : bitsOf bytes ++ t.heldBits = s.heldBits ++ c

/-- Packing no bit changes nothing. -/
theorem Appends.refl (s : State) : Appends s [] [] s where
  frame := by rw [State.emitted_nil]
  bits := by simp

/-- Packing one string and then another packs both in order. -/
theorem Appends.trans {s t u : State} {c d : BitString} {xs ys : Bytes} (h : Appends s c xs t)
    (h' : Appends t d ys u) : Appends s (c ++ d) (xs ++ ys) u where
  frame := by
    rw [← State.emitted_emitted]
    exact h'.frame.trans (by rw [h.frame]; rfl)
  bits := by rw [bitsOf_append, List.append_assoc, h'.bits, ← List.append_assoc, h.bits, List.append_assoc]

/-- The response does not touch the packer. -/
theorem Appends.respond {s t : State} {c : BitString} {xs : Bytes} (h : Appends s c xs t) (st : Status)
    (d : BitVec 64) : Appends s c xs (t.respond st d) where
  frame := by rw [h.frame]; rfl
  bits := h.bits

theorem Appends.ph {s t : State} {c : BitString} {xs : Bytes} (h : Appends s c xs t) : t.ph = s.ph := by
  rw [h.frame]; rfl

theorem Appends.ct {s t : State} {c : BitString} {xs : Bytes} (h : Appends s c xs t) : t.ct = s.ct := by
  rw [h.frame]; rfl

theorem Appends.out {s t : State} {c : BitString} {xs : Bytes} (h : Appends s c xs t) : t.out = s.out ++ xs := by
  rw [h.frame]; rfl

theorem Appends.outcnt {s t : State} {c : BitString} {xs : Bytes} (h : Appends s c xs t) :
    t.outcnt = s.outcnt + BitVec.ofNat 64 xs.length := by
  rw [h.frame]; rfl

/-- The bits held before and those packed make up the whole bytes emitted and the fewer than 8 bits held after. -/
theorem Appends.count {s t : State} {c : BitString} {xs : Bytes} (h : Appends s c xs t) :
    xs.length = (s.pcnt.toNat + c.length) / 8 ∧ t.pcnt.toNat = (s.pcnt.toNat + c.length) % 8 := by
  have hlen : 8 * xs.length + t.pcnt.toNat = s.pcnt.toNat + c.length := by simpa using congrArg List.length h.bits
  have hcnt : t.pcnt.toNat < 8 := t.pcnt.isLt
  omega

/-- One turn of PKB's loop appends its bit: the eighth bit flushes the accumulator, any other is held (R151). -/
theorem packBit_appends (s : State) (x : Bool) : ∃ bytes, Appends s [x] bytes (packBit s x) := by
  have hcnt : s.pcnt.toNat < 8 := s.pcnt.isLt
  have hshift := lowBits_shiftIn s.pacc x hcnt
  by_cases h8 : s.pcnt.toNat + 1 = 8
  · refine ⟨[(s.pacc <<< 1) ||| (BitVec.ofBool x).zeroExtend 8], ?_⟩
    rw [packBit, if_pos h8]
    refine ⟨rfl, ?_⟩
    rw [h8] at hshift
    simpa [State.heldBits_eq_lowBits, byteBits_eq_lowBits] using hshift
  · refine ⟨[], ?_⟩
    rw [packBit, if_neg h8]
    refine ⟨by rw [State.emitted_nil], ?_⟩
    have hnext : (s.pcnt + 1).toNat = s.pcnt.toNat + 1 := by bv_omega
    simpa only [bitsOf_nil, List.nil_append, State.heldBits_eq_lowBits, hnext] using hshift

/-- PKB's loop appends its bits (R151). -/
theorem packBits_appends (c : BitString) (s : State) : ∃ bytes, Appends s c bytes (packBits s c) := by
  induction c generalizing s with
  | nil => exact ⟨[], Appends.refl s⟩
  | cons x c ih =>
    obtain ⟨xs, hx⟩ := packBit_appends s x
    obtain ⟨ys, hc⟩ := ih (packBit s x)
    exact ⟨xs ++ ys, hx.trans hc⟩

/-- PKB's loop gives no response. -/
theorem packBits_rsps (c : BitString) (s : State) : (packBits s c).rsps = s.rsps := by
  obtain ⟨bytes, acc, cnt, h⟩ := packBits_frame c s
  rw [h]
  rfl

/-- PKE's flush emits the bits held, padded with zeros to a byte, or nothing when none is held (R152). -/
theorem flushPartial_emits (s : State) :
    ∃ bytes, flushPartial s = s.emitted bytes ∧ bytes.length = (if s.pcnt = 0 then 0 else 1) ∧
      bitsOf bytes = s.heldBits ++ List.replicate (if s.pcnt = 0 then 0 else 8 - s.pcnt.toNat) false := by
  by_cases h : s.pcnt = 0
  · refine ⟨[], ?_, ?_, ?_⟩
    · rw [flushPartial, if_pos h, State.emitted_nil]
    · rw [if_pos h]; rfl
    · simp [State.heldBits_eq_lowBits, h]
  · refine ⟨[s.pacc <<< (8 - s.pcnt.toNat)], ?_, ?_, ?_⟩
    · rw [flushPartial, if_neg h]; rfl
    · rw [if_neg h]; rfl
    · have hcnt : s.pcnt.toNat + (8 - s.pcnt.toNat) = 8 := Nat.add_sub_of_le s.pcnt.isLt.le
      have hshift := lowBits_shiftLeft s.pacc hcnt.le
      rw [hcnt] at hshift
      rw [if_neg h, bitsOf_cons, bitsOf_nil, List.append_nil]
      exact hshift

/-! The three commands. -/

/-- PKS in CODED runs its own rule (R150). -/
theorem pks_completes {s : State} (hp : s.ph = .coded) (sym : BitVec 8) :
    exec (.pks sym) s = .next ({ s with pacc := 0, pcnt := 0, outcnt := 0, ph := .pack }.respond .ok 0) := by
  show execPks sym s = _
  exact execute_of_legal _ (by simp [legalIn, hp]) rfl

/-- PKB in PACK of a symbol with a code runs its loop (R151). -/
theorem pkb_completes {s : State} (hp : s.ph = .pack) {b : Byte} (hc : (ctRead s.ct b).len ≠ 0) :
    exec (.pkb b) s = .next ((packBits s (ctRead s.ct b).bits).respond .ok 0) := by
  show execPkb b s = _
  exact (execute_of_legal _ (by simp [legalIn, hp]) rfl).trans (if_neg hc)

/-- PKE in PACK flushes the bits held and ends the stream (R152). -/
theorem pke_completes {s : State} (hp : s.ph = .pack) (sym : BitVec 8) :
    exec (.pke sym) s = .next ({ flushPartial s with pacc := 0, pcnt := 0, ph := .done }.respond .ok 0) := by
  show execPke sym s = _
  exact execute_of_legal _ (by simp [legalIn, hp]) rfl

/-- Settles O28: PKS is legal in CODED and nowhere else, and checks no operand. -/
theorem pksStartsPacking : Obligations.PksStartsPacking := by
  refine fun s sym => ⟨fun hp => pks_completes hp sym, fun hp hf => raises_of_exec_raise hf ?_⟩
  show execPks sym s = _
  exact execute_of_illegal _ hf (by simpa [legalIn] using hp)

/-- Settles O29: the loop appends the code bit by bit, and the counts are those of the bits before and after. -/
theorem pkbAppendsTheCode : Obligations.PkbAppendsTheCode := by
  intro s b hp hacc hc
  obtain ⟨bytes, h⟩ := packBits_appends (ctRead s.ct b).bits s
  have hcount := h.count
  rw [CodeEntry.bits, leftBits_length] at hcount
  have hframe := (h.respond .ok 0).frame
  rw [State.respond_rsps, packBits_rsps] at hframe
  exact ⟨_, bytes, pkb_completes hp hc, hframe, h.bits, hcount.1, hcount.2, packBits_accBound _ hacc⟩

/-- Settles O31: the byte emitted is the accumulator shifted up to a full byte, so whatever PACC held above its PCNT
low bits would be shifted out. -/
theorem pkeFlushesThePartialByte : Obligations.PkeFlushesThePartialByte := by
  intro s sym hp _
  obtain ⟨bytes, hflush, hbytes⟩ := flushPartial_emits s
  refine ⟨bytes, ?_, hbytes⟩
  rw [pke_completes hp, hflush]
  rfl

/-! A sequence of bytes (R153). -/

/-- Running two lists of commands is running the first, then the second. -/
theorem runAll_append {is js : List Instr} {s t : State} (h : runAll is s = .next t) :
    runAll (is ++ js) s = runAll js t := by
  induction is generalizing s with
  | nil => cases h; rfl
  | cons i is ih =>
    rw [runAll] at h
    cases hi : exec i s with
    | next u =>
      rw [hi] at h
      rw [List.cons_append, runAll, hi]
      exact ih h
    | fault r => simp [hi] at h
    | refused r => simp [hi] at h

/-- Running one command is executing it. -/
theorem runAll_singleton (i : Instr) (s : State) : runAll [i] s = exec i s := by
  rw [runAll]
  cases exec i s <;> rfl

/-- The code bits of a sequence are those of its first byte, then those of the rest. -/
theorem codeBits_codesOf_cons {ct : Memory CodeEntry} {b : Byte} (hc : (ctRead ct b).len ≠ 0) (bs : Bytes) :
    codeBits (b :: bs) (codesOf ct) = (ctRead ct b).bits ++ codeBits bs (codesOf ct) := by
  rw [codeBits, List.flatMap_cons, (lookup_codesOf_eq_some ct b _).2 ⟨hc, rfl⟩]
  rfl

/-- PKB of byte after byte appends the code bits of the sequence (R153). -/
theorem pkbs_append {s : State} (hp : s.ph = .pack) {bs : Bytes} (hc : ∀ b ∈ bs, (ctRead s.ct b).len ≠ 0) :
    ∃ t bytes, runAll (bs.map fun b => .pkb b) s = .next t ∧ Appends s (codeBits bs (codesOf s.ct)) bytes t := by
  induction bs generalizing s with
  | nil => exact ⟨s, [], rfl, Appends.refl s⟩
  | cons b bs ih =>
    obtain ⟨hb, hbs⟩ := List.forall_mem_cons.1 hc
    obtain ⟨xs, hx⟩ := packBits_appends (ctRead s.ct b).bits s
    have hx := hx.respond .ok 0
    obtain ⟨t, ys, hrun, hy⟩ := ih (hx.ph.trans hp) (by rwa [hx.ct])
    rw [hx.ct] at hy
    refine ⟨t, xs ++ ys, ?_, codeBits_codesOf_cons hb bs ▸ hx.trans hy⟩
    rw [List.map_cons, runAll, pkb_completes hp hb]
    exact hrun

/-- Settles O32: PKS leaves no bit held, so the bytes emitted and the bits held make up the code bits of the sequence,
and PKE pads what is held to a byte. -/
theorem packingASequenceEmitsItsBits : Obligations.PackingASequenceEmitsItsBits := by
  intro s bs hp hc bits
  obtain ⟨u, xs, hrun, hu⟩ :=
    pkbs_append (s := { s with pacc := 0, pcnt := 0, outcnt := 0, ph := .pack }.respond .ok 0) rfl hc
  have hbits : bitsOf xs ++ u.heldBits = bits := hu.bits
  obtain ⟨hlen, hcnt⟩ : xs.length = bits.length / 8 ∧ u.pcnt.toNat = bits.length % 8 := by
    simpa using hu.count
  have hcount : u.outcnt = BitVec.ofNat 64 xs.length := by simpa using hu.outcnt
  have hstart : runAll (.pks 0 :: bs.map fun b => .pkb b) s = .next u := by
    rw [runAll, pks_completes hp]
    exact hrun
  refine ⟨⟨u, hstart, hlen ▸ hcount, hcnt, ?_⟩, ?_⟩
  · rw [← hlen, ← hbits]
    exact (List.drop_left' (bitsOf_length xs)).symm
  · obtain ⟨ys, hflush, -, hy⟩ := flushPartial_emits u
    have hend := (runAll_append hstart).trans ((runAll_singleton (.pke 0) u).trans (pke_completes hu.ph 0))
    rw [hflush] at hend
    have hpay : xs ++ ys = packValue bs (codesOf s.ct) := by
      refine eq_toBytes_of_bitsOf (k := if u.pcnt = 0 then 0 else 8 - u.pcnt.toNat) ?_ ?_
      · split_ifs <;> bv_omega
      · rw [bitsOf_append, hy, ← List.append_assoc, hbits]
    refine ⟨_, hend, ?_, ?_, rfl, rfl, rfl⟩
    · show u.out ++ ys = _
      rw [hu.out, List.append_assoc, hpay]
      rfl
    · show u.outcnt + BitVec.ofNat 64 ys.length = _
      rw [hcount, ← BitVec.ofNat_add, ← List.length_append, hpay, packValue, toBytes_length]

end Sys2Proof.Machine
end

section
/-! PROOFS. The unpacker (45_unpack.md R160 to R166): UPB's loop is the loop of `Unpack` on the bytes of the call, and
with the size check of UPE a payload is unpacked as `Unpack` says. -/

namespace Sys2Proof.Machine

/-! The three commands. -/

/-- UPS in CODED empties the candidate and starts the count; with two symbols or more it emits nothing (R160). -/
theorem ups_completes_of_many {s : State} (hp : s.ph = .coded) (h1 : s.nsym ≠ 1) (sym : BitVec 8) :
    exec (.ups sym) s = .next ({ s with clen := 0, cbits := 0, outcnt := 0, ph := .unpack }.respond .ok 0) := by
  have hl : legalIn (.ups sym) s.ph = true := by simp [legalIn, hp]
  show execUps sym s = _
  rw [execUps, execute_of_legal _ hl rfl]
  dsimp only
  rw [if_neg h1]

/-- UPS in CODED with one symbol emits its byte N times (R160, R161). -/
theorem ups_completes_of_one {s : State} (hp : s.ph = .coded) (h1 : s.nsym = 1) (sym : BitVec 8) :
    exec (.ups sym) s = .next ({ s with
      clen := 0, cbits := 0, outcnt := s.n, ph := .unpack
      out := s.out ++ List.replicate s.n.toNat (s.root.extractLsb' 0 8) }.respond .ok 0) := by
  have hl : legalIn (.ups sym) s.ph = true := by simp [legalIn, hp]
  show execUps sym s = _
  rw [execUps, execute_of_legal _ hl rfl]
  dsimp only
  rw [if_pos h1, State.emitRepeat_eq]
  simp

/-- UPB in UNPACK answers with what its loop makes of the eight bits (R162). -/
theorem upb_completes {s u : State} (hp : s.ph = .unpack) {p : Byte} (hu : unpackBits (byteBits p) s = some u) :
    exec (.upb p) s = .next (u.respond .ok 0) := by
  have hl : legalIn (.upb p) s.ph = true := by simp [legalIn, hp]
  show execUpb p s = _
  rw [execUpb, execute_of_legal _ hl rfl, hu]

/-- UPE in UNPACK with N bytes out ends the stream (R163). -/
theorem upe_completes {s : State} (hp : s.ph = .unpack) (hn : ¬ s.outcnt < s.n) (sym : BitVec 8) :
    exec (.upe sym) s = .next ({ s with clen := 0, cbits := 0, ph := .done }.respond .ok 0) := by
  show execUpe sym s = _
  exact (execute_of_legal _ (by simp [legalIn, hp]) rfl).trans (if_neg hn)

/-- UPE in UNPACK with fewer than N bytes out raises E_SIZE (R163, R203). -/
theorem upe_raises {s : State} (hp : s.ph = .unpack) (hn : s.outcnt < s.n) (sym : BitVec 8) :
    Raises (.upe sym) s .eSize := by
  refine raises_of_exec_raise (by simp [hp]) ?_
  show execUpe sym s = _
  exact (execute_of_legal _ (by simp [legalIn, hp]) rfl).trans (if_pos hn)

/-- Settles O34: UPS is legal in CODED and nowhere else, checks no operand, and asks NSYM whether to emit. -/
theorem upsStartsUnpacking : Obligations.UpsStartsUnpacking := by
  intro s sym
  refine ⟨fun hp h1 => ups_completes_of_many hp h1 sym, fun hp h1 => ups_completes_of_one hp h1 sym,
    fun hp hf => raises_of_exec_raise hf ?_⟩
  show execUps sym s = _
  exact execute_of_illegal _ hf (by simpa [legalIn] using hp)

/-- Settles O37: UPE is legal in UNPACK and nowhere else, checks no operand, and compares OUTCNT with N. -/
theorem upeChecksTheSize : Obligations.UpeChecksTheSize := by
  intro s sym
  refine ⟨fun hp hn => upe_raises hp hn sym, fun hp hn => upe_completes hp (BitVec.not_lt.2 hn) sym,
    fun hp hf => raises_of_exec_raise hf ?_⟩
  show execUpe sym s = _
  exact execute_of_illegal _ hf (by simpa [legalIn] using hp)

/-- Settles O36: with N bytes out the loop changes nothing, so what remains is the response. -/
theorem upbAfterLastSymbolDropsBits : Obligations.UpbAfterLastSymbolDropsBits :=
  fun _ _ hp hn => upb_completes hp (unpackBits_of_full _ (BitVec.not_lt.2 hn))

/-- Settles O39: the codes of the tree are its paths, one for each leaf, and the paths are the walks that end at a
leaf. -/
theorem matchingACodeIsWalkingTheTree : Obligations.MatchingACodeIsWalkingTheTree :=
  fun _ _ _ v c hn => Tree.lookup_codes_iff_descend hn v c

/-! The loop of `Unpack` (R164). -/

/-- The symbol UPB matches is the one the loop of `Unpack` finds: both try the symbols in ascending order (R162). -/
theorem find_codesOf (ct : Memory CodeEntry) (c : BitString) :
    (codesOf ct).find? (fun e => decide (e.2 = c)) = (matchCode ct c).map fun v => (v, (ctRead ct v).bits) := by
  simp [codesOf, matchCode, List.find?_map, List.find?_filter]

/-- Once N bytes are out the loop of `Unpack` stops. -/
theorem decodeBits_of_full {n : Nat} {out : Bytes} (h : n ≤ out.length) (c : Codes) (xs cand : BitString) :
    decodeBits c n xs out cand = (out, cand) := by
  cases xs with
  | nil => rfl
  | cons x xs => rw [decodeBits, if_neg (not_lt.2 h)]

/-- The loop over two strings is the loop over the first, then over the second. -/
theorem decodeBits_append (c : Codes) (n : Nat) (xs ys : BitString) (out : Bytes) (cand : BitString) :
    decodeBits c n (xs ++ ys) out cand =
      decodeBits c n ys (decodeBits c n xs out cand).1 (decodeBits c n xs out cand).2 := by
  induction xs generalizing out cand with
  | nil => rfl
  | cons x xs ih =>
    by_cases hn : out.length < n
    · rw [List.cons_append, decodeBits, decodeBits, if_pos hn, if_pos hn]
      cases c.find? fun e => decide (e.2 = cand ++ [x]) with
      | none => exact ih ..
      | some e => exact ih ..
    · have hfull := decodeBits_of_full (c := c) (cand := cand) (not_lt.1 hn)
      rw [hfull, hfull, hfull]

/-- Decoding the bits `xs` leads from `s` to `t` and emits `bytes`: besides OUT and OUTCNT only the candidate and the
responses change, OUTCNT does not wrap, and the loop of `Unpack` does the same from any OUTCNT bytes (R164). -/
structure Decodes (s : State) (xs : BitString) (bytes : Bytes) (t : State) : Prop where
  frame : t = { s.emitted bytes with clen := t.clen, cbits := t.cbits, rsps := t.rsps }
  count : t.outcnt.toNat = s.outcnt.toNat + bytes.length
  loop : ∀ out : Bytes, out.length = s.outcnt.toNat →
    decodeBits (codesOf s.ct) s.n.toNat xs out s.candidate = (out ++ bytes, t.candidate)
  short : bytes.length ≤ xs.length

theorem Decodes.ph {s t : State} {xs : BitString} {bytes : Bytes} (h : Decodes s xs bytes t) : t.ph = s.ph := by
  rw [h.frame]; rfl

theorem Decodes.ct {s t : State} {xs : BitString} {bytes : Bytes} (h : Decodes s xs bytes t) : t.ct = s.ct := by
  rw [h.frame]; rfl

theorem Decodes.n {s t : State} {xs : BitString} {bytes : Bytes} (h : Decodes s xs bytes t) : t.n = s.n := by
  rw [h.frame]; rfl

theorem Decodes.out {s t : State} {xs : BitString} {bytes : Bytes} (h : Decodes s xs bytes t) :
    t.out = s.out ++ bytes := by
  rw [h.frame]; rfl

/-- Decoding no bit changes nothing. -/
theorem Decodes.refl (s : State) : Decodes s [] [] s where
  frame := by rw [State.emitted_nil]
  count := rfl
  loop out _ := by rw [List.append_nil]; rfl
  short := le_rfl

/-- Decoding one string and then another decodes both in order. -/
theorem Decodes.trans {s t u : State} {xs ys : BitString} {bs cs : Bytes} (h : Decodes s xs bs t)
    (h' : Decodes t ys cs u) : Decodes s (xs ++ ys) (bs ++ cs) u where
  frame := by
    rw [← State.emitted_emitted]
    exact h'.frame.trans (by rw [h.frame]; rfl)
  count := by rw [h'.count, h.count, List.length_append, Nat.add_assoc]
  loop out hout := by
    have hloop := h'.loop (out ++ bs) (by rw [List.length_append, hout, h.count])
    rw [h.ct, h.n] at hloop
    rw [decodeBits_append, h.loop out hout, hloop, List.append_assoc]
  short := by
    rw [List.length_append, List.length_append]
    exact Nat.add_le_add h.short h'.short

/-- The response does not touch the unpacker. -/
theorem Decodes.respond {s t : State} {xs : BitString} {bytes : Bytes} (h : Decodes s xs bytes t) (st : Status)
    (d : BitVec 64) : Decodes s xs bytes (t.respond st d) where
  frame := by rw [h.frame]; rfl
  count := h.count
  loop := h.loop
  short := h.short

/-- One turn of UPB's loop is one turn of the loop of `Unpack`: it drops the bit, emits the symbol whose code it ends,
or adds it to the candidate (R162, R164). -/
theorem unpackBit_decodes {s u : State} {x : Bool} (h : unpackBit s x = some u) : ∃ bytes, Decodes s [x] bytes u := by
  obtain ⟨hn, rfl⟩ | ⟨hn, v, hm, rfl⟩ | ⟨hn, hm, hlen, rfl⟩ := unpackBit_cases h
  · refine ⟨[], by rw [State.emitted_nil], rfl, fun out hout => ?_, Nat.zero_le _⟩
    have hfull : u.n.toNat ≤ out.length := hout ▸ BitVec.le_def.1 (BitVec.not_lt.1 hn)
    rw [decodeBits_of_full hfull, List.append_nil]
  · refine ⟨[v], rfl, ?_, fun out hout => ?_, le_rfl⟩
    · show (s.outcnt + 1).toNat = s.outcnt.toNat + 1
      bv_omega
    · have hroom : out.length < s.n.toNat := hout ▸ BitVec.lt_def.1 hn
      rw [decodeBits, if_pos hroom, find_codesOf, hm, State.candidate_setCandidate _ [] (Nat.zero_le _)]
      rfl
  · refine ⟨[], by rw [State.emitted_nil]; rfl, rfl, fun out hout => ?_, Nat.zero_le _⟩
    have hroom : out.length < s.n.toNat := hout ▸ BitVec.lt_def.1 hn
    rw [decodeBits, if_pos hroom, find_codesOf, hm, List.append_nil,
      State.candidate_setCandidate _ _ (hlen.trans (by decide))]
    rfl

/-- UPB's loop is the loop of `Unpack` (R164). -/
theorem unpackBits_decodes {xs : BitString} {s u : State} (h : unpackBits xs s = some u) :
    ∃ bytes, Decodes s xs bytes u := by
  induction xs generalizing s with
  | nil => cases h; exact ⟨[], Decodes.refl _⟩
  | cons x xs ih =>
    rw [unpackBits] at h
    split at h
    next => cases h
    next t ht =>
      obtain ⟨bs, hb⟩ := unpackBit_decodes ht
      obtain ⟨cs, hc⟩ := ih h
      exact ⟨bs ++ cs, hb.trans hc⟩

/-- UPB in UNPACK under the invariants decodes its eight bits. -/
theorem State.Inv.upb_decodes {s : State} (h : s.Inv) (hp : s.ph = .unpack) (p : Byte) :
    ∃ u bytes, exec (.upb p) s = .next (u.respond .ok 0) ∧ u.rsps = s.rsps ∧ Decodes s (byteBits p) bytes u := by
  have hl : legalIn (.upb p) s.ph = true := by simp [legalIn, hp]
  obtain ⟨t, ht⟩ := execUpb_answers h p
  rw [execUpb, execute_of_legal _ hl rfl] at ht
  cases hu : unpackBits (byteBits p) s with
  | none => simp [hu] at ht
  | some u =>
    obtain ⟨bytes, hd⟩ := unpackBits_decodes hu
    obtain ⟨_, _, _, hframe⟩ := unpackBits_frame hu
    exact ⟨u, bytes, upb_completes hp hu, by rw [hframe]; rfl, hd⟩

/-- The bytes of the call are OUTCNT many (R36). -/
theorem State.callOut_length {s : State} (h : s.outcnt.toNat ≤ s.out.length) : s.callOut.length = s.outcnt.toNat := by
  rw [State.callOut, List.length_drop, Nat.sub_sub_self h]

/-- Settles O35: the loop of UPB is the loop of `Unpack` from any OUTCNT bytes, those of the call among them. -/
theorem upbDecodesOneByte : Obligations.UpbDecodesOneByte := by
  intro s p h hp
  obtain ⟨u, bytes, hu, hrsps, hd⟩ := h.upb_decodes hp p
  have hframe := (hd.respond .ok 0).frame
  rw [State.respond_rsps, hrsps] at hframe
  exact ⟨_, bytes, hu, hframe, hd.loop _ (State.callOut_length h.control.outcntLogged),
    hd.short.trans (byteBits_length p).le⟩

/-! The invariants along a list of commands. -/

/-- A command is one of the words the block takes. -/
theorem commandTo_of_exec {i : Instr} {s t : State} (h : exec i s = .next t) : CommandTo s t := by
  refine commandTo_of_runCommand (w := encode i) ?_
  rw [runCommand_of_ok (decodeEncodeAgree i)]
  exact h

/-- Every command keeps the invariants together. -/
theorem State.Inv.exec {i : Instr} {s t : State} (h : s.Inv) (ht : exec i s = .next t) : t.Inv where
  control := h.control.commandTo (commandTo_of_exec ht)
  tree := h.tree.commandTo h.control (commandTo_of_exec ht)
  codes := h.codes.commandTo h.control h.tree (commandTo_of_exec ht)
  candidate := h.commandTo_candidateInv (commandTo_of_exec ht)

/-- A list of commands whose first is known to answer runs on from there. -/
theorem runAll_cons {i : Instr} {is : List Instr} {s u : State} (h : Machine.exec i s = .next u) :
    runAll (i :: is) s = runAll is u := by
  rw [runAll, h]

/-- A list of commands keeps the invariants. -/
theorem State.Inv.runAll {is : List Instr} {s t : State} (h : s.Inv) (ht : runAll is s = .next t) : t.Inv := by
  induction is generalizing s with
  | nil => cases ht; exact h
  | cons i is ih =>
    obtain ⟨u, hu⟩ := exec_answers h i
    exact ih (h.exec hu) (runAll_cons hu ▸ ht)

/-! A payload (R164). -/

/-- UPB of byte after byte decodes the bits of the payload. -/
theorem State.Inv.upbs_decode {s : State} (h : s.Inv) (hp : s.ph = .unpack) (ps : Bytes) :
    ∃ t bytes, Machine.runAll (ps.map fun p => .upb p) s = .next t ∧ Decodes s (bitsOf ps) bytes t := by
  induction ps generalizing s with
  | nil => exact ⟨s, [], rfl, Decodes.refl s⟩
  | cons p ps ih =>
    obtain ⟨u, bs, hu, -, hd⟩ := h.upb_decodes hp p
    have hd := hd.respond .ok 0
    obtain ⟨t, cs, ht, hrest⟩ := ih (h.exec hu) (hd.ph.trans hp)
    exact ⟨t, bs ++ cs, (runAll_cons hu).trans ht, hd.trans hrest⟩

/-- After a GEN there is one code for each present symbol (R141). -/
theorem State.CodesHeld.codesOf_map_fst {s : State} (h : s.CodesHeld) :
    (codesOf s.ct).map Prod.fst = symbols.filter fun v => decide (ftRead s.ft v ≠ 0) := by
  have hkeys : (codesOf s.ct).map Prod.fst = symbols.filter fun v => decide ((ctRead s.ct v).len ≠ 0) := by
    simp [codesOf, Function.comp_def]
  exact hkeys.trans (List.filter_congr fun v _ => decide_eq_decide.2 (h.codedSymbols v))

/-- With one symbol the code table holds that symbol, which is ROOT's byte (R28, R142). -/
theorem State.Inv.codesOf_of_one {s : State} (h : s.Inv) (hg : s.codesMade) (h1 : s.nsym = 1) :
    ∃ c, codesOf s.ct = [(s.root.extractLsb' 0 8, c)] := by
  have hcodes := h.codes hg
  have hheld := h.tree hcodes.built
  obtain ⟨v, w, ht⟩ := hheld.tree_leaf h.control.nsymCounts h1
  obtain ⟨-, rfl⟩ := hheld.root_of_leaf ht
  have hkeys : (codesOf s.ct).map Prod.fst = [s.root.extractLsb' 0 8] :=
    hcodes.codesOf_map_fst.trans (List.perm_singleton.1 (hheld.leaves_perm ht).symm)
  obtain ⟨⟨u, c⟩, hc, hu⟩ := List.map_eq_singleton_iff.1 hkeys
  obtain rfl : u = _ := hu
  exact ⟨c, hc⟩

/-- `Unpack` runs its loop unless there is just one code (R164). -/
theorem unpackValue_of_length_ne_one {c : Codes} (h : c.length ≠ 1) (p : Bytes) (n : Nat) :
    unpackValue p c n = ((decodeBits c n (bitsOf p) [] []).1,
      decide ((decodeBits c n (bitsOf p) [] []).1.length = n)) := by
  unfold unpackValue
  split
  · simp at h
  · rfl

/-- UPE ends a stream: OUT and OUTCNT stay, and with N bytes out the end is DONE, else FAULT with E_SIZE (R163). -/
structure EndsStream (s t : State) : Prop where
  out : t.out = s.out
  outcnt : t.outcnt = s.outcnt
  full : s.outcnt.toNat = s.n.toNat → t.ph = .done ∧ t.err = 0
  short : s.outcnt.toNat ≠ s.n.toNat → t.ph = .fault ∧ t.err = 0x04

/-- UPE in UNPACK under the invariants ends the stream: OUTCNT has not passed N, and no error is latched. -/
theorem State.Inv.upe_ends {s : State} (h : s.Inv) (hp : s.ph = .unpack) :
    ∃ t, Machine.exec (.upe 0) s = .next t ∧ EndsStream s t := by
  obtain ⟨hle, -⟩ := h.control.unpackCount hp
  by_cases hn : s.outcnt < s.n
  · have hne : s.outcnt.toNat ≠ s.n.toNat := (BitVec.lt_def.1 hn).ne
    exact ⟨_, upe_raises hp hn 0, rfl, rfl, fun he => absurd he hne, fun _ => ⟨rfl, rfl⟩⟩
  · have heq : s.outcnt.toNat = s.n.toNat := by bv_omega
    have herr : s.err = 0 := by
      by_contra he
      simp [h.control.errIffFault.1 he] at hp
    exact ⟨_, upe_completes hp hn 0, rfl, rfl, fun _ => ⟨rfl, herr⟩, fun hne => absurd heq hne⟩

/-- From a state UPS leaves, the UPBs decode the payload and UPE ends the stream. -/
theorem State.Inv.unpack_runs {s : State} (h : s.Inv) (hp : s.ph = .unpack) (ps : Bytes) :
    ∃ u bytes t, Machine.runAll (ps.map (fun p => .upb p) ++ [.upe 0]) s = .next t ∧ Decodes s (bitsOf ps) bytes u ∧
      EndsStream u t := by
  obtain ⟨u, bytes, hu, hd⟩ := h.upbs_decode hp ps
  obtain ⟨t, ht, hend⟩ := (h.runAll hu).upe_ends (hd.ph.trans hp)
  exact ⟨u, bytes, t, (runAll_append hu).trans ((runAll_singleton _ _).trans ht), hd, hend⟩

/-- After a GEN on other than one symbol there is other than one code. -/
theorem State.Inv.codesOf_length_ne_one {s : State} (h : s.Inv) (hg : s.codesMade) (h1 : s.nsym ≠ 1) :
    (codesOf s.ct).length ≠ 1 := by
  have hlen : (codesOf s.ct).length = s.nsym.toNat := by
    simpa using (congrArg List.length (h.codes hg).codesOf_map_fst).trans h.control.nsymCounts.symm
  rw [hlen]
  exact fun he => h1 (BitVec.eq_of_toNat_eq he)

/-- From CODED, UPS, the UPBs and UPE emit the bytes of `Unpack`, count them, and end as it says (R161, R164). -/
theorem State.Inv.unpackCall_runs {s : State} (h : s.Inv) (hp : s.ph = .coded) (ps : Bytes) :
    ∃ t, Machine.runAll (unpackCall ps) s = .next t ∧
      t.out = s.out ++ (unpackValue ps (codesOf s.ct) s.n.toNat).1 ∧
      t.outcnt.toNat = (unpackValue ps (codesOf s.ct) s.n.toNat).1.length ∧
      ((unpackValue ps (codesOf s.ct) s.n.toNat).2 = true → t.ph = .done ∧ t.err = 0) ∧
      ((unpackValue ps (codesOf s.ct) s.n.toNat).2 = false → t.ph = .fault ∧ t.err = 0x04) := by
  have hg : s.codesMade := .inl hp
  by_cases h1 : s.nsym = 1
  · have hups := ups_completes_of_one hp h1 0
    obtain ⟨u, bytes, t, ht, hd, hend⟩ := (h.exec hups).unpack_runs rfl ps
    obtain ⟨c, hc⟩ := h.codesOf_of_one hg h1
    have hnone : bytes = [] := by
      have hfull : (List.replicate s.n.toNat (0 : Byte)).length = s.n.toNat := List.length_replicate
      have hstop := (decodeBits_of_full hfull.ge _ _ _).symm.trans (hd.loop _ hfull)
      simpa using (congrArg Prod.fst hstop).symm
    subst hnone
    have hn : u.n = s.n := hd.n
    have hcnt : u.outcnt.toNat = s.n.toNat := hd.count
    rw [hc]
    refine ⟨t, (runAll_cons hups).trans ht, (hend.out.trans hd.out).trans (List.append_nil _), ?_,
      fun _ => hend.full (by rw [hcnt, hn]), nofun⟩
    rw [hend.outcnt, hcnt]
    exact List.length_replicate.symm
  · have hups := ups_completes_of_many hp h1 0
    obtain ⟨u, bytes, t, ht, hd, hend⟩ := (h.exec hups).unpack_runs rfl ps
    have hbytes : (decodeBits (codesOf s.ct) s.n.toNat (bitsOf ps) [] []).1 = bytes :=
      congrArg Prod.fst (hd.loop [] rfl)
    have hn : u.n = s.n := hd.n
    have hcnt : u.outcnt.toNat = bytes.length := hd.count.trans (Nat.zero_add _)
    rw [unpackValue_of_length_ne_one (h.codesOf_length_ne_one hg h1), hbytes, ← hcnt, ← hn]
    exact ⟨t, (runAll_cons hups).trans ht, hend.out.trans hd.out, congrArg _ hend.outcnt,
      fun he => hend.full (of_decide_eq_true he), fun he => hend.short (of_decide_eq_false he)⟩

/-- Settles O38: with one symbol UPS has emitted all N bytes and the loop stops at once; else the loop starts with no
byte out, and UPE compares what it emitted with N. -/
theorem unpackingAPayloadIsUnpack : Obligations.UnpackingAPayloadIsUnpack := by
  intro s ps h hp
  obtain ⟨t, ht, hout, -, hok, hbad⟩ := h.unpackCall_runs hp ps
  exact ⟨t, ht, hout, hok, hbad⟩

end Sys2Proof.Machine
end

section
/-! PROOFS. `Unpack` undoes `Pack` where no code begins another (44_pack.md R153, 45_unpack.md R164, R167). -/

namespace Sys2Proof.Machine

/-- No code of the table is empty or begins another (R146). -/
structure PrefixFree (c : Codes) : Prop where
  nonempty : ∀ e ∈ c, e.2 ≠ []
  eq_of_prefix : ∀ e ∈ c, ∀ e' ∈ c, e.2 <+: e'.2 → e = e'

/-- A code looked up is a code of the table. -/
theorem mem_of_lookup {c : Codes} {b : Byte} {w : BitString} (h : c.lookup b = some w) : (b, w) ∈ c := by
  obtain ⟨l, l', rfl, -⟩ := List.lookup_eq_some_iff.1 h
  simp

/-- From a candidate that begins a code, the rest of the code leads the loop to its symbol: before the last bit no code
matches, as it would begin this one, and with the last bit this one does and no other. -/
theorem PrefixFree.decodeBits_code {c : Codes} (h : PrefixFree c) {b : Byte} {cand w : BitString}
    (hmem : (b, cand ++ w) ∈ c) (hw : w ≠ []) {n : Nat} {out : Bytes} (hn : out.length < n) (rest : BitString) :
    decodeBits c n (w ++ rest) out cand = decodeBits c n rest (out ++ [b]) [] := by
  induction w generalizing cand with
  | nil => exact absurd rfl hw
  | cons x w ih =>
    rw [List.cons_append, decodeBits, if_pos hn]
    cases hf : c.find? fun e => decide (e.2 = cand ++ [x]) with
    | some e =>
      have hbits : e.2 = cand ++ [x] := by simpa using List.find?_some hf
      have he : e = (b, cand ++ x :: w) :=
        h.eq_of_prefix e (List.mem_of_find?_eq_some hf) _ hmem (hbits ▸ ⟨w, by simp⟩)
      obtain rfl : w = [] := by simpa [he] using hbits
      rw [he]
      rfl
    | none =>
      have hmore : w ≠ [] := by
        rintro rfl
        simpa using List.find?_eq_none.1 hf _ hmem
      exact ih (by simpa using hmem) hmore

/-- The code bits of a sequence are those of its first byte, then those of the rest (R153). -/
theorem codeBits_cons {c : Codes} {b : Byte} {w : BitString} (h : c.lookup b = some w) (bs : Bytes) :
    codeBits (b :: bs) c = w ++ codeBits bs c := by
  rw [codeBits, List.flatMap_cons, h]
  rfl

/-- The loop reads the code bits of a sequence as the sequence. -/
theorem PrefixFree.decodeBits_codeBits {c : Codes} (h : PrefixFree c) {bs : Bytes}
    (hb : ∀ b ∈ bs, ∃ w, c.lookup b = some w) {n : Nat} {out : Bytes} (hn : out.length + bs.length ≤ n)
    (rest : BitString) : decodeBits c n (codeBits bs c ++ rest) out [] = decodeBits c n rest (out ++ bs) [] := by
  induction bs generalizing out with
  | nil => rw [List.append_nil]; rfl
  | cons b bs ih =>
    obtain ⟨⟨w, hw⟩, hbs⟩ := List.forall_mem_cons.1 hb
    have hmem := mem_of_lookup hw
    rw [List.length_cons] at hn
    rw [codeBits_cons hw, List.append_assoc, h.decodeBits_code hmem (h.nonempty _ hmem) (by omega),
      ih hbs (by rw [List.length_append, List.length_singleton]; omega), List.append_assoc]
    rfl

/-- The bits of the payload begin with the string; what follows is padding (R61, R153). -/
theorem prefix_bitsOf_toBytes (b : BitString) : b <+: bitsOf (toBytes b) := by
  have hlen : (bitsOf (toBytes b)).length = 8 * ((b.length + 7) / 8) := by rw [bitsOf_length, toBytes_length]
  refine List.prefix_iff_getElem.2 ⟨by omega, fun i hi => ?_⟩
  have hbyte : i / 8 < (toBytes b).length := by rw [toBytes_length]; omega
  have hbits := bitsOf_getD (toBytes b) hbyte (Nat.mod_lt i (by decide : 0 < 8))
  have hpay := toBytes_bit b i (by rw [toBytes_length]; omega)
  rw [Nat.div_add_mod, List.getD_eq_getElem _ _ (by omega)] at hbits
  rw [List.getD_eq_getElem _ _ hbyte, List.getD_eq_getElem _ _ hi] at hpay
  exact hpay.symm.trans hbits.symm

/-- A sequence of coded bytes is unpacked from its payload (R167): a table of one code has one symbol to give, and with
more the loop reads the code bits and stops before the padding. -/
theorem PrefixFree.unpackValue_packValue {c : Codes} (h : PrefixFree c) {bs : Bytes}
    (hb : ∀ b ∈ bs, ∃ w, c.lookup b = some w) : unpackValue (packValue bs c) c bs.length = (bs, true) := by
  by_cases h1 : c.length = 1
  · obtain ⟨⟨v, w⟩, rfl⟩ := List.length_eq_one_iff.1 h1
    have hall : bs = List.replicate bs.length v := List.eq_replicate_iff.2 ⟨rfl, fun b hm => by
      obtain ⟨w', hw'⟩ := hb b hm
      simpa using congrArg Prod.fst (List.mem_singleton.1 (mem_of_lookup hw'))⟩
    exact congrArg (·, true) hall.symm
  · obtain ⟨pad, hpad⟩ := prefix_bitsOf_toBytes (codeBits bs c)
    have hloop : decodeBits c bs.length (bitsOf (packValue bs c)) [] [] = (bs, []) := by
      rw [packValue, ← hpad, h.decodeBits_codeBits hb (by simp), List.nil_append, decodeBits_of_full le_rfl]
    rw [unpackValue_of_length_ne_one h1, hloop, decide_eq_true rfl]

/-- The codes in CT. -/
theorem mem_codesOf (ct : Memory CodeEntry) (v : Byte) (c : BitString) :
    (v, c) ∈ codesOf ct ↔ (ctRead ct v).len ≠ 0 ∧ (ctRead ct v).bits = c := by
  simp [codesOf]

/-- After a GEN no code in CT is empty or begins another (R146). -/
theorem State.Inv.prefixFree {s : State} (h : s.Inv) (hg : s.codesMade) : PrefixFree (codesOf s.ct) where
  nonempty := by
    rintro ⟨v, c⟩ hc hnil
    obtain ⟨hlen, rfl⟩ := (mem_codesOf _ _ _).1 hc
    have hzero : (ctRead s.ct v).len.toNat = 0 := by
      rw [← leftBits_length]
      exact List.length_eq_zero_iff.2 hnil
    exact hlen (BitVec.eq_of_toNat_eq hzero)
  eq_of_prefix := by
    rintro ⟨u, c⟩ hc ⟨v, d⟩ hd hp
    obtain ⟨hu, rfl⟩ := (mem_codesOf _ _ _).1 hc
    obtain ⟨hv, rfl⟩ := (mem_codesOf _ _ _).1 hd
    obtain rfl := h.eq_of_code_prefix hg hu hv hp
    rfl

end Sys2Proof.Machine
end

section
/-! PROOFS. A packing call and an unpacking call of one table (44_pack.md R153, 45_unpack.md R164, R167): the table
loaded, the tree built and the codes made, the payload packed and unpacked again. -/

namespace Sys2Proof.Machine

/-! A table loaded from a sequence (R110, R170). -/

/-- A load leaves the count of a symbol it does not name alone (R110). -/
theorem State.Loading.ftRead_load_of_notMem {ws : List (Byte × BitVec 64)}
    (hws : ∀ e ∈ ws, e.2.toNat ≤ 2 ^ 31 - 1) {s t : State} (h : s.Loading)
    (ht : runAll (loadTable ws) s = .next t) {v : Byte} (hv : v ∉ ws.map Prod.fst) :
    ftRead t.ft v = ftRead s.ft v := by
  induction ws generalizing s with
  | nil => cases ht; rfl
  | cons e ws ih =>
    obtain ⟨he, hrest⟩ := List.forall_mem_cons.1 hws
    obtain ⟨hne, hv⟩ : v ≠ e.1 ∧ v ∉ ws.map Prod.fst := by simpa using hv
    obtain ⟨u, hu, hload⟩ := h.ftw e.1 he
    obtain rfl := Host.Outcome.next.inj ((ftw_completes h.phase e.1 he).symm.trans hu)
    refine (ih hrest hload ((runAll_cons hu).symm.trans ht) hv).trans ?_
    exact (ftRead_ftWrite _ _ _ _ h.ftForm).trans (if_neg hne)

/-- A load that names each symbol once leaves the counts it names (R110). -/
theorem State.Loading.ftRead_load_of_mem {ws : List (Byte × BitVec 64)} (hws : ∀ e ∈ ws, e.2.toNat ≤ 2 ^ 31 - 1)
    (hn : (ws.map Prod.fst).Nodup) {s t : State} (h : s.Loading) (ht : runAll (loadTable ws) s = .next t)
    {e : Byte × BitVec 64} (he : e ∈ ws) : (ftRead t.ft e.1).toNat = e.2.toNat := by
  induction ws generalizing s with
  | nil => cases he
  | cons d ws ih =>
    obtain ⟨hd, hrest⟩ := List.forall_mem_cons.1 hws
    obtain ⟨hnew, hn⟩ := List.nodup_cons.1 hn
    obtain ⟨u, hu, hload⟩ := h.ftw d.1 hd
    have hrun := (runAll_cons hu).symm.trans ht
    obtain rfl | he := List.mem_cons.1 he
    · obtain rfl := Host.Outcome.next.inj ((ftw_completes h.phase e.1 hd).symm.trans hu)
      rw [hload.ftRead_load_of_notMem hrest hrun hnew, State.respond_ft, ftRead_ftWrite _ _ _ _ h.ftForm, if_pos rfl,
        legalCount_toNat hd]
    · exact ih hrest hn hload hrun he

/-- The table of a sequence that has one: the symbols that occur, each with the number of times (R170). -/
theorem eq_of_freq {bs : Bytes} {T : Table} (h : freq bs = .ok T) :
    bs ≠ [] ∧ T = (symbols.filter fun v => decide (v ∈ bs)).map fun v => (v, bs.count v) := by
  unfold freq at h
  split_ifs at h with hnil
  exact ⟨hnil, (Except.ok.inj h).symm⟩

/-- The block in phase `p` of a call for the sequence `bs`: the invariants hold, and FT holds the counts of `bs`. -/
structure State.InCall (p : Phase) (bs : Bytes) (s : State) : Prop where
  inv : s.Inv
  phase : s.ph = p
  counts : ∀ v, (ftRead s.ft v).toNat = bs.count v

/-- In a call for `bs` the present symbols are the bytes of `bs`. -/
theorem State.InCall.present_iff {p : Phase} {bs : Bytes} {s : State} (h : s.InCall p bs) (v : Byte) :
    ftRead s.ft v ≠ 0 ↔ v ∈ bs := by
  have hcount := h.counts v
  rw [← List.count_pos_iff, ← hcount, Nat.pos_iff_ne_zero]
  exact not_congr BitVec.toNat_inj.symm

/-- In a call for `bs` the table in FT is the table of `bs`. -/
theorem State.InCall.tableOf_eq {p : Phase} {bs : Bytes} {s : State} (h : s.InCall p bs) {T : Table}
    (hT : freq bs = .ok T) : tableOf s.ft = T := by
  obtain ⟨-, rfl⟩ := eq_of_freq hT
  simp only [tableOf, h.counts, h.present_iff]

/-- The load of a table (R89, R174). -/
def tableWords (T : Table) : List (Byte × BitVec 64) := T.map fun e => (e.1, BitVec.ofNat 64 e.2)

/-- CLR and the load of the table of `bs` start a call for `bs` (R174, R175). -/
theorem clr_load_runs (s : State) {bs : Bytes} {T : Table} (hT : freq bs = .ok T) (hc : ∀ e ∈ T, e.2 ≤ 2 ^ 31 - 1) :
    ∃ t, runAll (.clr :: loadTable (tableWords T)) s = .next t ∧ t.InCall .load bs := by
  have hclr := clr_clears s
  have hinv : (s.clear.respond .ok 0).Inv := s.clear_inv.exec (exec_nop s.clear)
  have hload : (s.clear.respond .ok 0).Loading :=
    ⟨rfl, hinv.control.ftForm, hinv.control.nsymCounts⟩
  have hword {v : Byte} {n : Nat} (he : (v, n) ∈ T) : (BitVec.ofNat 64 n).toNat = n := by
    have hle := hc _ he
    rw [BitVec.toNat_ofNat, Nat.mod_eq_of_lt (hle.trans_lt (by decide))]
  have hws : ∀ e ∈ tableWords T, e.2.toNat ≤ 2 ^ 31 - 1 := by
    intro e he
    obtain ⟨⟨v, n⟩, hm, rfl⟩ := List.mem_map.1 he
    exact (hword hm).le.trans (hc _ hm)
  obtain ⟨-, htable⟩ := eq_of_freq hT
  have hkeys : (tableWords T).map Prod.fst = symbols.filter fun v => decide (v ∈ bs) := by
    simp [tableWords, htable, Function.comp_def]
  obtain ⟨t, ht, hdone⟩ := hload.load_runs hws
  refine ⟨t, (runAll_cons hclr).trans ht, hinv.runAll ht, hdone.phase, fun v => ?_⟩
  by_cases hv : v ∈ bs
  · have hm : (v, bs.count v) ∈ T := by simpa [htable] using hv
    have hread := hload.ftRead_load_of_mem hws (hkeys ▸ symbols_nodup.filter _) ht (List.mem_map.2 ⟨_, hm, rfl⟩)
    exact hread.trans (hword hm)
  · have hread := hload.ftRead_load_of_notMem hws ht (v := v) (by simpa [hkeys] using hv)
    rw [hread, List.count_eq_zero.2 hv]
    rfl

/-- SETN of a legal size goes on with the call (R112). -/
theorem State.InCall.setn_runs {bs : Bytes} {s : State} (h : s.InCall .load bs) {n : BitVec 64}
    (hn : n.getLsbD 63 = false) : ∃ t, exec (.setn 0 n) s = .next t ∧ t.InCall .load bs ∧ t.n = n := by
  have ht := (setnWritesSize s 0 n).1 (.inl h.phase) hn
  exact ⟨_, ht, ⟨h.inv.exec ht, h.phase, h.counts⟩, rfl⟩

/-- BUILD and GEN go on with the call of a sequence that is not empty (R127, R141). -/
theorem State.InCall.build_gen_runs {bs : Bytes} {s : State} (h : s.InCall .load bs) (hbs : bs ≠ []) :
    ∃ t, runAll [.build 0, .gen 0] s = .next t ∧ t.InCall .coded bs ∧ t.n = s.n := by
  have hnsym : s.nsym ≠ 0 := by
    obtain ⟨v, hv⟩ := List.exists_mem_of_ne_nil bs hbs
    intro hz
    have hcount := h.inv.control.nsymCounts
    rw [hz] at hcount
    have hnone := List.length_eq_zero_iff.1 hcount.symm
    have hpresent := List.filter_eq_nil_iff.1 hnone v (mem_symbols v)
    exact hpresent (decide_eq_true ((h.present_iff v).2 hv))
  obtain ⟨u, hu, hframe, -⟩ := buildMakesTheTableTree s 0 h.inv.control h.phase hnsym
  have hinv := h.inv.exec hu
  obtain ⟨t, ht, hframe', -⟩ := genMakesTheTreeCodes u 0 hinv.control hinv.tree (by rw [hframe])
  refine ⟨t, (runAll_cons hu).trans ((runAll_singleton _ _).trans ht), ⟨hinv.exec ht, by rw [hframe'], ?_⟩, ?_⟩
  · rw [hframe', hframe]
    exact h.counts
  · rw [hframe', hframe]

/-! The call with its codes made. -/

/-- Every byte of the sequence has a code. -/
theorem State.InCall.coded {bs : Bytes} {s : State} (h : s.InCall .coded bs) {b : Byte} (hb : b ∈ bs) :
    (ctRead s.ct b).len ≠ 0 :=
  ((h.inv.codes (.inl h.phase)).codedSymbols b).2 ((h.present_iff b).2 hb)

/-- The code table of the call packs as the codes of the table's tree do (R141). -/
theorem State.InCall.packValue_eq {bs : Bytes} {s : State} (h : s.InCall .coded bs) {T : Table}
    (hT : freq bs = .ok T) {tree : Tree} (ht : buildTree T = some tree) :
    packValue bs (codesOf s.ct) = packValue bs tree.codes := by
  have hheld := h.inv.tree (.inr (.inl h.phase))
  have hread : s.tree = some tree := by rw [hheld.treeSpec, h.tableOf_eq hT, ht]
  simp only [packValue, codeBits, (h.inv.codes (.inl h.phase)).codesSpec tree hread]

/-- The table of the call has a tree (R127). -/
theorem State.InCall.exists_tree {bs : Bytes} {s : State} (h : s.InCall .coded bs) {T : Table}
    (hT : freq bs = .ok T) : ∃ tree, buildTree T = some tree := by
  have hheld := h.inv.tree (.inr (.inl h.phase))
  rw [← h.tableOf_eq hT, ← hheld.treeSpec]
  exact Option.ne_none_iff_exists'.1 hheld.treeRead

/-- A sequence whose counts fit has fewer than 2^39 bytes. -/
theorem State.InCall.length_lt {p : Phase} {bs : Bytes} {s : State} (h : s.InCall p bs) : bs.length < 2 ^ 39 := by
  have hle : ∀ n ∈ bs.dedup.map fun v => bs.count v, n ≤ 2 ^ 31 - 1 := by
    intro n hn
    obtain ⟨v, -, rfl⟩ := List.mem_map.1 hn
    rw [← h.counts v]
    exact Nat.le_sub_one_of_lt (ftRead s.ft v).isLt
  have hsum := List.sum_le_card_nsmul _ _ hle
  have hsymbols : bs.dedup.length ≤ 256 :=
    symbols_length ▸ (List.subperm_of_subset bs.nodup_dedup fun v _ => mem_symbols v).length_le
  rw [List.sum_map_count_dedup_eq_length, List.length_map, smul_eq_mul] at hsum
  omega

/-- A code in CT has at most 255 bits, so the code bits of a sequence are at most 255 for each byte. -/
theorem codeBits_codesOf_length_le (ct : Memory CodeEntry) (bs : Bytes) :
    (codeBits bs (codesOf ct)).length ≤ 255 * bs.length := by
  have hle : ∀ n ∈ bs.map fun b => (((codesOf ct).lookup b).getD []).length, n ≤ 255 := by
    intro n hn
    obtain ⟨b, -, rfl⟩ := List.mem_map.1 hn
    cases hc : (codesOf ct).lookup b with
    | none => exact Nat.zero_le _
    | some c =>
      obtain ⟨-, rfl⟩ := (lookup_codesOf_eq_some ct b c).1 hc
      exact (leftBits_length _ _).le.trans (Nat.le_of_lt_succ (ctRead ct b).len.isLt)
  have hsum := List.sum_le_card_nsmul _ _ hle
  rw [List.length_map, smul_eq_mul, Nat.mul_comm] at hsum
  rwa [codeBits, List.length_flatMap]

/-- The bytes of the call are the last ones when OUTCNT counts them (R36). -/
theorem State.callOut_eq {s : State} {xs ys : Bytes} (hout : s.out = xs ++ ys) (hcnt : s.outcnt.toNat = ys.length) :
    s.callOut = ys := by
  have hlen : s.out.length - s.outcnt.toNat = xs.length := by
    rw [hcnt, hout, List.length_append, Nat.add_sub_cancel]
  rw [State.callOut, hlen, hout, List.drop_left]

/-- Packing the sequence of the call emits its payload, and OUTCNT, which does not wrap, counts it (R153). -/
theorem State.InCall.pack_runs {bs : Bytes} {s : State} (h : s.InCall .coded bs) :
    ∃ t, runAll (packCall bs) s = .next t ∧ t.ph = .done ∧ t.callOut = packValue bs (codesOf s.ct) := by
  obtain ⟨-, t, ht, hout, hcnt, -, -, hdone⟩ := packingASequenceEmitsItsBits s bs h.phase fun _ => h.coded
  refine ⟨t, ht, hdone, State.callOut_eq hout ?_⟩
  have hbits := codeBits_codesOf_length_le s.ct bs
  have hlen := h.length_lt
  rw [hcnt, packValue, toBytes_length, BitVec.toNat_ofNat]
  omega

/-- Unpacking the payload of the sequence of the call emits the sequence, with N its length (R164, R167). -/
theorem State.InCall.unpack_runs {bs : Bytes} {s : State} (h : s.InCall .coded bs) (hn : s.n.toNat = bs.length) :
    ∃ t, runAll (unpackCall (packValue bs (codesOf s.ct))) s = .next t ∧ t.callOut = bs ∧ t.ph = .done := by
  obtain ⟨t, ht, hout, hcnt, hok, -⟩ := h.inv.unpackCall_runs h.phase (packValue bs (codesOf s.ct))
  have hvalue := (h.inv.prefixFree (.inl h.phase)).unpackValue_packValue (bs := bs) fun b hb =>
    ⟨_, (lookup_codesOf_eq_some s.ct b _).2 ⟨h.coded hb, rfl⟩⟩
  rw [hn, hvalue] at hout hcnt hok
  exact ⟨t, ht, State.callOut_eq hout hcnt, (hok rfl).1⟩

/-- The size of a sequence is a legal N (R26). -/
theorem State.InCall.size_legal {p : Phase} {bs : Bytes} {s : State} (h : s.InCall p bs) :
    (BitVec.ofNat 64 bs.length).toNat = bs.length ∧ (BitVec.ofNat 64 bs.length).getLsbD 63 = false := by
  have hlen := h.length_lt
  have hn : (BitVec.ofNat 64 bs.length).toNat = bs.length := by
    rw [BitVec.toNat_ofNat, Nat.mod_eq_of_lt (hlen.trans (by decide))]
  refine ⟨hn, (BitVec.getLsbD_last _).trans (decide_eq_false ?_)⟩
  rw [hn]
  omega

/-- Settles O40: the two calls load one table and so make codes that pack alike, and what those codes pack they unpack
again, since none begins another. -/
theorem roundTripThroughTheBlock : Obligations.RoundTripThroughTheBlock := by
  intro s s' bs T hT hc
  obtain ⟨hbs, -⟩ := eq_of_freq hT
  obtain ⟨u, hload, hu⟩ := clr_load_runs s hT hc
  obtain ⟨v, hmake, hv, -⟩ := hu.build_gen_runs hbs
  obtain ⟨t, hpack, hdone, hout⟩ := hv.pack_runs
  obtain ⟨tree, htree⟩ := hv.exists_tree hT
  rw [hv.packValue_eq hT htree] at hout
  refine ⟨t, ?_, hdone, ⟨tree, htree, hout⟩, ?_⟩
  · exact (runAll_append ((runAll_append hload).trans hmake)).trans hpack
  obtain ⟨u', hload', hu'⟩ := clr_load_runs s' hT hc
  obtain ⟨hsize, hlegal⟩ := hu'.size_legal
  obtain ⟨x, hset, hx, hxn⟩ := hu'.setn_runs hlegal
  obtain ⟨v', hmake', hv', hvn⟩ := hx.build_gen_runs hbs
  have hn : v'.n.toNat = bs.length := by rw [hvn, hxn, hsize]
  obtain ⟨t', hunpack, hback, hdone'⟩ := hv'.unpack_runs hn
  rw [hv'.packValue_eq hT htree, ← hout] at hunpack
  refine ⟨t', ?_, hback, hdone'⟩
  exact (runAll_append ((runAll_append hload').trans ((runAll_cons hset).trans hmake'))).trans hunpack

end Sys2Proof.Machine
end

section
/-! PROOFS. The host side: the table of a sequence, and the container format, read and written (46_host_container.md
R170 to R173). -/

namespace Sys2Proof.Machine

/-! The table of a sequence (R170). -/

/-- A sequence that is not empty has a table (R170). -/
theorem freq_of_ne_nil {bs : Bytes} (h : bs ≠ []) :
    freq bs = .ok ((symbols.filter fun v => decide (v ∈ bs)).map fun v => (v, bs.count v)) :=
  if_neg h

/-- The entries of the table of a sequence (R170). -/
theorem mem_of_freq {bs : Bytes} {T : Table} (h : freq bs = .ok T) (v : Byte) (n : Nat) :
    (v, n) ∈ T ↔ n = bs.count v ∧ v ∈ bs := by
  obtain ⟨-, rfl⟩ := eq_of_freq h
  simp only [List.mem_map, List.mem_filter, mem_symbols, true_and, decide_eq_true_eq, Prod.mk.injEq]
  constructor
  · rintro ⟨u, hu, rfl, rfl⟩
    exact ⟨rfl, hu⟩
  · rintro ⟨rfl, hv⟩
    exact ⟨v, hv, rfl, rfl⟩

/-- The keys of the table of a sequence, in ascending order (R170). -/
theorem map_fst_of_freq {bs : Bytes} {T : Table} (h : freq bs = .ok T) :
    T.map Prod.fst = symbols.filter fun v => decide (v ∈ bs) := by
  obtain ⟨-, rfl⟩ := eq_of_freq h
  simp [Function.comp_def]

/-- A table has at most 256 entries (R172). -/
theorem length_le_of_freq {bs : Bytes} {T : Table} (h : freq bs = .ok T) : T.length ≤ 256 := by
  rw [← List.length_map (f := Prod.fst), map_fst_of_freq h, ← symbols_length]
  exact List.length_filter_le _ _

/-- Settles O56: the table lists the symbols that occur, each once, with its count. -/
theorem frequencyModelCounts : Obligations.FrequencyModelCounts := by
  refine ⟨rfl, fun bs hbs => ⟨_, freq_of_ne_nil hbs, ?_, mem_of_freq (freq_of_ne_nil hbs)⟩⟩
  rw [map_fst_of_freq (freq_of_ne_nil hbs)]
  exact symbols_nodup.filter _

/-! What the reader accepts (R173). -/

/-- The byte sequences that pass every check of `ParseContainer` (R173). -/
structure AcceptedContainer (x : Bytes) : Prop where
  header : 16 ≤ x.length
  tag : x.take 4 = magic
  size : (readBe64 x 4).msb = false
  tableSign : (readBe32 x 12).msb = false
  tableMax : (readBe32 x 12).toNat ≤ 256
  entriesFit : 16 + 5 * (readBe32 x 12).toNat ≤ x.length
  counts : ∀ e < (readBe32 x 12).toNat, (readBe32 x (17 + 5 * e)).msb = false

/-- What stands in a byte sequence at the places of a container's fields (R172). -/
def containerIn (x : Bytes) : Container where
  originalSize := readBe64 x 4
  entries := (List.range (readBe32 x 12).toNat).map fun e => (x.getD (16 + 5 * e) 0, readBe32 x (17 + 5 * e))
  payload := x.drop (16 + 5 * (readBe32 x 12).toNat)

/-- A byte sequence that passes every check is read field by field (R173). -/
theorem parseContainer_of_accepted {x : Bytes} (h : AcceptedContainer x) : parseContainer x = .ok (containerIn x) := by
  simpa [parseContainer, containerIn, h.header.not_gt, h.tag, h.size, h.tableSign, h.tableMax.not_gt,
    h.entriesFit.not_gt] using h.counts

/-- A byte sequence that fails a check is rejected, whichever check it is (R173). -/
theorem parseContainer_of_not_accepted {x : Bytes} (h : ¬ AcceptedContainer x) :
    parseContainer x = .error .invalidFormat := by
  dsimp only [parseContainer]
  split_ifs with hheader htag hfields hfit hcounts
  · rfl
  · rfl
  · rfl
  · rfl
  · rfl
  · obtain ⟨hsize, hsign, hmax⟩ : (readBe64 x 4).msb = false ∧ (readBe32 x 12).msb = false ∧
      (readBe32 x 12).toNat ≤ 256 := by simpa using hfields
    exact absurd ⟨not_lt.1 hheader, not_not.1 htag, hsize, hsign, hmax, not_lt.1 hfit, by simpa using hcounts⟩ h

/-- A field with its top bit 0 is not negative (R172). -/
theorem msb_ne_false_of_toInt_neg {w : Nat} {x : BitVec w} (h : x.toInt < 0) : x.msb ≠ false :=
  fun hm => absurd (BitVec.toInt_nonneg_of_msb_false hm) (not_le.2 h)

/-- Settles O57: each clause is a check of R173 that fails. -/
theorem parserRejectsBadContainers : Obligations.ParserRejectsBadContainers := by
  intro x
  refine ⟨fun h => ?_, fun h => ?_, fun h => ?_, fun h => ?_, fun h => ?_, fun e he h => ?_⟩ <;>
    refine parseContainer_of_not_accepted fun ha => ?_
  · exact absurd ha.header (not_le.2 h)
  · exact h ha.tag
  · exact msb_ne_false_of_toInt_neg h ha.size
  · obtain hneg | hbig := h
    · exact msb_ne_false_of_toInt_neg hneg ha.tableSign
    · rw [BitVec.toInt_eq_toNat_of_msb ha.tableSign] at hbig
      exact absurd ha.tableMax (by omega)
  · exact absurd ha.entriesFit (not_le.2 h)
  · exact msb_ne_false_of_toInt_neg h (ha.counts e he)

/-! The reader on what the writer writes (R171, R172). -/

/-- The entries of a container as bytes (R172). -/
def entryBytes (es : List (Byte × BitVec 32)) : Bytes := es.flatMap fun e => e.1 :: be32 e.2

/-- The fields of a container in the order they are written (R172). -/
theorem writeContainer_eq (c : Container) : writeContainer c =
    magic ++ (be64 c.originalSize ++ (be32 (BitVec.ofNat 32 c.entries.length) ++
      (entryBytes c.entries ++ c.payload))) := by
  simp only [writeContainer, entryBytes, List.append_assoc]

/-- An entry is its symbol and the four bytes of its count (R172). -/
theorem entryBytes_cons (e : Byte × BitVec 32) (es : List (Byte × BitVec 32)) :
    entryBytes (e :: es) = e.1 :: (be32 e.2 ++ entryBytes es) := rfl

@[simp] theorem be32_length (w : BitVec 32) : (be32 w).length = 4 := rfl

@[simp] theorem entryBytes_length (es : List (Byte × BitVec 32)) : (entryBytes es).length = 5 * es.length := by
  induction es with
  | nil => rfl
  | cons e es ih =>
    simp only [entryBytes_cons, List.length_cons, List.length_append, be32_length, ih]
    omega

/-- The bytes from entry `k` on are those of the entries from entry `k` on: an entry takes five. -/
theorem drop_entryBytes {es : List (Byte × BitVec 32)} {k : Nat} (h : k ≤ es.length) (p : Bytes) :
    (entryBytes es ++ p).drop (5 * k) = entryBytes (es.drop k) ++ p := by
  have hsplit : entryBytes es = entryBytes (es.take k) ++ entryBytes (es.drop k) := by
    rw [entryBytes, entryBytes, entryBytes, ← List.flatMap_append, List.take_append_drop]
  rw [hsplit, List.append_assoc]
  exact List.drop_left' (by rw [entryBytes_length, List.length_take_of_le h])

/-- A word's four bytes put together are the word. -/
theorem bytes_append_eq (w : BitVec 32) :
    w.extractLsb' 24 8 ++ w.extractLsb' 16 8 ++ w.extractLsb' 8 8 ++ w.extractLsb' 0 8 = w := by
  rw [BitVec.extractLsb'_append_extractLsb'_eq_extractLsb' (by rfl),
    BitVec.extractLsb'_append_extractLsb'_eq_extractLsb' (by rfl),
    BitVec.extractLsb'_append_extractLsb'_eq_extractLsb' (by rfl)]
  exact BitVec.extractLsb'_eq_self

/-- Where the bytes of a word stand, the word is read (R172). -/
theorem readBe32_of_drop {x q : Bytes} {off : Nat} {w : BitVec 32} (h : x.drop off = be32 w ++ q) :
    readBe32 x off = w := by
  have hget (k : Nat) : x.getD (off + k) 0 = (be32 w ++ q).getD k 0 := by
    rw [← h, List.getD_eq_getElem?_getD, List.getD_eq_getElem?_getD, List.getElem?_drop]
  rw [readBe32, hget 1, hget 2, hget 3, ← Nat.add_zero off, hget 0]
  exact bytes_append_eq w

/-- Where the bytes of a 64-bit word stand, the word is read (R172). -/
theorem readBe64_of_drop {x q : Bytes} {off : Nat} {w : BitVec 64} (h : x.drop off = be64 w ++ q) :
    readBe64 x off = w := by
  rw [be64, List.append_assoc] at h
  have hlow : x.drop (off + 4) = be32 (w.extractLsb' 0 32) ++ q := by
    rw [← List.drop_drop, h]
    rfl
  rw [readBe64, readBe32_of_drop h, readBe32_of_drop hlow,
    BitVec.extractLsb'_append_extractLsb'_eq_extractLsb' (by rfl)]
  exact BitVec.extractLsb'_eq_self

section Written
variable (c : Container)

/-- The size is read where it is written. -/
theorem readBe64_writeContainer : readBe64 (writeContainer c) 4 = c.originalSize :=
  readBe64_of_drop (congrArg (List.drop 4) (writeContainer_eq c))

/-- The number of entries is read where it is written. -/
theorem readBe32_writeContainer (h : c.entries.length ≤ 256) :
    (readBe32 (writeContainer c) 12).toNat = c.entries.length := by
  rw [writeContainer_eq, readBe32_of_drop (w := BitVec.ofNat 32 c.entries.length) rfl, BitVec.toNat_ofNat]
  omega

/-- Past the 16 bytes of the header stand the entries and the payload. -/
theorem drop_writeContainer (k : Nat) :
    (writeContainer c).drop (16 + k) = (entryBytes c.entries ++ c.payload).drop k := by
  rw [writeContainer_eq, ← List.drop_drop]
  rfl

/-- Entry `k` stands where it is written. -/
theorem drop_entry_writeContainer {k : Nat} (hk : k < c.entries.length) : (writeContainer c).drop (16 + 5 * k) =
    c.entries[k].1 :: (be32 c.entries[k].2 ++ (entryBytes (c.entries.drop (k + 1)) ++ c.payload)) := by
  rw [drop_writeContainer, drop_entryBytes hk.le, List.drop_eq_getElem_cons hk, entryBytes_cons]
  simp only [List.cons_append, List.append_assoc]

/-- The symbol of entry `k` is read where it is written. -/
theorem readSymbol_writeContainer {k : Nat} (hk : k < c.entries.length) :
    (writeContainer c).getD (16 + 5 * k) 0 = c.entries[k].1 := by
  rw [List.getD_eq_getElem?_getD, ← List.head?_drop, drop_entry_writeContainer c hk]
  rfl

/-- The count of entry `k` is read where it is written. -/
theorem readCount_writeContainer {k : Nat} (hk : k < c.entries.length) :
    readBe32 (writeContainer c) (17 + 5 * k) = c.entries[k].2 := by
  refine readBe32_of_drop (q := entryBytes (c.entries.drop (k + 1)) ++ c.payload) ?_
  rw [show 17 + 5 * k = 16 + 5 * k + 1 by omega, ← List.drop_drop, drop_entry_writeContainer c hk]
  rfl

/-- A container is as long as its header, its entries and its payload (R172). -/
theorem writeContainer_length :
    (writeContainer c).length = 16 + 5 * c.entries.length + c.payload.length := by
  rw [writeContainer_eq, ← entryBytes_length, Nat.add_assoc, ← List.length_append, Nat.add_comm]
  rfl

/-- What stands in a written container is the container. -/
theorem containerIn_writeContainer (h : c.entries.length ≤ 256) : containerIn (writeContainer c) = c := by
  have hentries : (containerIn (writeContainer c)).entries = c.entries := by
    refine List.ext_getElem (by simp [containerIn, readBe32_writeContainer c h]) fun k _ hk => ?_
    simp only [containerIn, List.getElem_map, List.getElem_range, readSymbol_writeContainer c hk,
      readCount_writeContainer c hk]
  have hpayload : (containerIn (writeContainer c)).payload = c.payload := by
    rw [containerIn, readBe32_writeContainer c h, drop_writeContainer]
    exact List.drop_left' (entryBytes_length _)
  exact (Container.mk.injEq ..).mpr ⟨readBe64_writeContainer c, hentries, hpayload⟩

end Written

/-- Settles O58: a written container passes every check, and each field is read where it is written. -/
theorem parserReadsWhatIsWritten : Obligations.ParserReadsWhatIsWritten := by
  intro c hsize hmax hcounts
  have hlen := readBe32_writeContainer c hmax
  have haccepted : AcceptedContainer (writeContainer c) :=
    { header := by rw [writeContainer_length]; omega
      tag := by rw [writeContainer_eq]; rfl
      size := by rw [readBe64_writeContainer, hsize]
      tableSign := by rw [BitVec.msb_eq_decide, hlen]; exact decide_eq_false (by omega)
      tableMax := hlen.trans_le hmax
      entriesFit := by rw [hlen, writeContainer_length]; omega
      counts := fun e he => by
        rw [readCount_writeContainer c (he.trans_eq hlen)]
        exact hcounts _ (List.getElem_mem _) }
  rw [parseContainer_of_accepted haccepted, containerIn_writeContainer c hmax]

end Sys2Proof.Machine
end

section
/-! PROOFS. The calls compress and decompress (46_host_container.md R174, R175): the host issues the commands of a call
one by one, and a run that ends outside FAULT has answered OK to each. -/

namespace Sys2Proof.Machine

/-- A command that leaves the block outside FAULT has answered OK (R81, R210). -/
theorem lastStatus_of_exec {i : Instr} {s t : State} (h : exec i s = .next t) (ht : t.ph ≠ .fault) :
    t.lastStatus = some .ok := by
  obtain ⟨hf, rfl⟩ | ⟨e, -, rfl⟩ | ⟨-, -, hc⟩ := exec_cases h
  · exact absurd hf ht
  · exact absurd (State.raise_ph ..) ht
  · obtain ⟨d, hd⟩ := hc.rsps_eq
    simp [State.lastStatus, hd]

/-- Only CLR leaves FAULT (R23, R212). -/
theorem ph_eq_fault_of_exec {i : Instr} {s t : State} (h : exec i s = .next t) (hi : i ≠ .clr) (hs : s.ph = .fault) :
    t.ph = .fault := by
  obtain ⟨-, rfl⟩ | ⟨e, -, rfl⟩ | ⟨hl, -, hc⟩ := exec_cases h
  · exact hs
  · exact State.raise_ph ..
  · have hallowed := legalIn_fault i (hs ▸ hl)
    have hobserves : isObservation i = true := by
      cases i with
      | clr => exact absurd rfl hi
      | _ => exact hallowed
    rw [hc.ph_eq_nextPhase, nextPhase_of_isObservation hobserves, hs]

/-- A command that leaves the block outside FAULT is issued without an error (R175). -/
theorem issue_of_exec {i : Instr} {s t : State} (h : exec i s = .next t) (ht : t.ph ≠ .fault) :
    issue i s = .ok t := by
  have hstep : step (s.offer (encode i)) = .next t := by
    rw [step_of_command (rest := s.input) rfl, runCommand_of_ok (decodeEncodeAgree i)]
    exact h
  simp only [issue, hstep, lastStatus_of_exec h ht]

/-- A run without CLR that ends outside FAULT was never in it, and is issued without an error (R175). -/
theorem issueAll_of_runAll {is : List Instr} {s t : State} (hclr : .clr ∉ is) (h : runAll is s = .next t)
    (ht : t.ph ≠ .fault) : issueAll is s = .ok t ∧ s.ph ≠ .fault := by
  induction is generalizing s with
  | nil => cases h; exact ⟨rfl, ht⟩
  | cons i is ih =>
    obtain ⟨hi, hclr⟩ := List.ne_and_not_mem_of_not_mem_cons hclr
    cases hu : exec i s with
    | next u =>
      obtain ⟨hissue, hu_ph⟩ := ih hclr ((runAll_cons hu).symm.trans h)
      refine ⟨?_, fun hs => hu_ph (ph_eq_fault_of_exec hu hi.symm hs)⟩
      rw [issueAll, issue_of_exec hu hu_ph]
      exact hissue
    | fault r => simp [runAll, hu] at h
    | refused r => simp [runAll, hu] at h

/-- A call that ends outside FAULT is issued without an error, from whatever state its CLR finds (R175). -/
theorem issueAll_call {is : List Instr} {s t : State} (hclr : .clr ∉ is) (h : runAll (.clr :: is) s = .next t)
    (ht : t.ph ≠ .fault) : issueAll (.clr :: is) s = .ok t := by
  obtain ⟨hissue, hstart⟩ := issueAll_of_runAll hclr ((runAll_cons (clr_clears s)).symm.trans h) ht
  rw [issueAll, issue_of_exec (clr_clears s) hstart]
  exact hissue

/-- The table of a call as container entries (R171, R174). -/
def containerEntries (T : Table) : List (Byte × BitVec 32) := T.map fun e => (e.1, BitVec.ofNat 32 e.2)

/-- A packing call that ends outside FAULT makes a container of the size, the table and the bytes emitted (R174). -/
theorem compress_of_runAll {s u : State} {bs : Bytes} {T : Table} (hT : freq bs = .ok T)
    (hc : ∀ e ∈ T, e.2 ≤ 2 ^ 31 - 1) (h : runAll (compressCommands T bs) s = .next u) (hu : u.ph ≠ .fault)
    (n : BitVec 64) : compress s bs n = .ok (writeContainer ⟨n, containerEntries T, u.callOut⟩, u) := by
  have hcounts : T.any (fun e => decide (Config.countMax < e.2)) = false :=
    List.any_eq_false.2 fun e he => mt of_decide_eq_true (hc e he).not_gt
  have hissue : issueAll (compressCommands T bs) s = .ok u :=
    issueAll_call (by simp [loadTable, packCall]) h hu
  simp [compress, hT, hcounts, hissue, containerEntries]

/-- An unpacking call that ends outside FAULT answers the bytes emitted (R175). -/
theorem decompress_of_runAll {s u : State} {x : Bytes} {c : Container} (hx : parseContainer x = .ok c)
    (h : runAll (decompressCommands c) s = .next u) (hu : u.ph ≠ .fault) : decompress s x = .ok (u.callOut, u) := by
  have hissue : issueAll (decompressCommands c) s = .ok u :=
    issueAll_call (by simp [loadTable, unpackCall]) h hu
  simp only [decompress, hx, hissue]

/-- The counts of a table go through the container's 32-bit entries unchanged (R172). -/
theorem containerEntries_words {T : Table} (hc : ∀ e ∈ T, e.2 ≤ 2 ^ 31 - 1) :
    (containerEntries T).map (fun e => (e.1, e.2.zeroExtend 64)) = T.map fun e => (e.1, BitVec.ofNat 64 e.2) := by
  rw [containerEntries, List.map_map]
  refine List.map_congr_left fun e he => Prod.ext rfl (BitVec.eq_of_toNat_eq ?_)
  have hle := hc e he
  simp only [Function.comp_apply, BitVec.truncate_eq_setWidth, BitVec.toNat_setWidth, BitVec.toNat_ofNat]
  omega

/-- The counts of a table are not negative in the container (R172). -/
theorem containerEntries_msb {T : Table} (hc : ∀ e ∈ T, e.2 ≤ 2 ^ 31 - 1) :
    ∀ e ∈ containerEntries T, e.2.msb = false := by
  intro e he
  obtain ⟨⟨v, n⟩, hm, rfl⟩ := List.mem_map.1 he
  have hle := hc _ hm
  rw [BitVec.msb_eq_decide, BitVec.toNat_ofNat]
  exact decide_eq_false (by omega)

/-- Settles O59: the reader reads back the container that compress writes, so decompress issues the unpacking call that
the block answers with the sequence (O40). -/
theorem compressThenDecompressRoundTrips : Obligations.CompressThenDecompressRoundTrips := by
  intro s s' bs hbs hcount
  obtain ⟨T, hT⟩ : ∃ T, freq bs = .ok T := ⟨_, freq_of_ne_nil hbs⟩
  have hc : ∀ e ∈ T, e.2 ≤ 2 ^ 31 - 1 := fun e he => ((mem_of_freq hT e.1 e.2).1 he).1 ▸ hcount e.1
  obtain ⟨u, hpack, hdone, -, u', hunpack, hback, hdone'⟩ := roundTripThroughTheBlock s s' bs T hT hc
  have hsize : (BitVec.ofNat 64 bs.length).msb = false := by
    obtain ⟨l, -, hl⟩ := clr_load_runs s hT hc
    exact (BitVec.msb_eq_getLsbD_last _).trans hl.size_legal.2
  have hparse := parserReadsWhatIsWritten ⟨BitVec.ofNat 64 bs.length, containerEntries T, u.callOut⟩ hsize
    ((List.length_map _).trans_le (length_le_of_freq hT)) (containerEntries_msb hc)
  rw [← containerEntries_words hc] at hunpack
  refine ⟨_, u, compress_of_runAll hT hc hpack (by rw [hdone]; nofun) _, u', ?_⟩
  rw [decompress_of_runAll hparse hunpack (by rw [hdone']; nofun), hback]

end Sys2Proof.Machine
end

section
/-! PROOFS. The checks that come before a command's own rule (30_encoding.md R83, 60_exceptions.md R204 to R207, R212),
said once for all commands. -/

namespace Sys2Proof.Machine

/-- Every command goes through the procedure of R83. -/
theorem exec_eq_execute (i : Instr) : ∃ body, ∀ s, exec i s = execute i body s := by
  cases i <;> exact ⟨_, fun _ => rfl⟩

/-- In FAULT a command outside the eight is refused (R212). -/
theorem exec_of_fault {i : Instr} {s : State} (hp : s.ph = .fault) (ha : allowedInFault i = false) :
    exec i s = .next (s.respond .eFaulted 0) := by
  obtain ⟨body, hbody⟩ := exec_eq_execute i
  rw [hbody, execute_of_fault body hp ha]

/-- Out of its phases a command raises E_SEQ (R205). -/
theorem exec_of_illegal {i : Instr} {s : State} (hp : s.ph ≠ .fault) (hl : legalIn i s.ph = false) :
    exec i s = .next (s.raise .eSeq i.opcode i.sym) := by
  obtain ⟨body, hbody⟩ := exec_eq_execute i
  rw [hbody, execute_of_illegal body hp hl]

/-- In its phases a command with an operand out of range raises E_OPERAND (R206). -/
theorem exec_of_badOperand {i : Instr} {s : State} (hl : legalIn i s.ph = true) (hw : i.wellFormed = false) :
    exec i s = .next (s.raise .eOperand i.opcode i.sym) := by
  obtain ⟨body, hbody⟩ := exec_eq_execute i
  rw [hbody, execute_of_badOperand body hl ((operandOk_eq_wellFormed i).trans hw)]

/-- While an error is latched the fault action only answers (R210). -/
theorem State.raise_of_fault {s : State} (hp : s.ph = .fault) (e : Status) (op sym : BitVec 8) :
    s.raise e op sym = s.respond e 0 := if_pos hp

/-- Settles O42: the phase check comes before the operand is looked at. -/
theorem outOfPhaseCommandRaises : Obligations.OutOfPhaseCommandRaises :=
  fun _ _ hf hl => raises_of_exec_raise hf (exec_of_illegal hf hl)

/-- A register number R37 reserves is out of range (R82). -/
theorem rds_reserved_not_wellFormed {r : BitVec 8} (hr : r = 0x0B ∨ 0x10 ≤ r.toNat) :
    (Instr.rds r).wellFormed = false := by
  rw [Instr.wellFormed, decide_eq_false_iff_not]
  obtain rfl | hr := hr
  · decide
  · omega

/-- Settles O11: each command is legal where it is issued, and its operand fails the range check of R82. -/
theorem operandOutOfRangeRaises : Obligations.OperandOutOfRangeRaises := by
  refine fun s => ⟨fun v c hp hc => ?_, fun sym n hp hn => ?_, fun r hr => ⟨rds_reserved_raises hr, fun hf => ?_⟩⟩
  · have hw : (Instr.ftw v c).wellFormed = false := decide_eq_false (Nat.not_le.2 hc)
    exact raises_of_exec_raise (by simp [hp]) (exec_of_badOperand (by simp [legalIn, hp]) hw)
  · have hw : (Instr.setn sym n).wellFormed = false := decide_eq_false (Nat.not_le.2 hn)
    have hf : s.ph ≠ .fault := fun hf => by simp [hf] at hp
    exact raises_of_exec_raise hf (exec_of_badOperand (by simp [legalIn, or_assoc, hp]) hw)
  · rw [exec_of_badOperand rfl (rds_reserved_not_wellFormed hr), State.raise_of_fault hf]
    rfl

/-- Settles O16: BUILD is legal in LOAD, and its own rule looks at NSYM first. -/
theorem buildOfEmptyTableRaises : Obligations.BuildOfEmptyTableRaises := by
  intro s sym hp hn
  refine raises_of_exec_raise (by simp [hp]) ?_
  show execBuild sym s = _
  rw [execBuild, execute_of_legal _ (by simp [legalIn, hp]) rfl, if_pos hn]
  rfl

/-- Settles O30: PKB is legal in PACK, and its own rule looks at the length of the code first. -/
theorem pkbWithoutCodeRaises : Obligations.PkbWithoutCodeRaises := by
  intro s b hp hc
  refine raises_of_exec_raise (by simp [hp]) ?_
  show execPkb b s = _
  rw [execPkb, execute_of_legal _ (by simp [legalIn, hp]) rfl, if_pos hc]
  rfl

/-- In FAULT an undefined opcode is refused like a command outside the eight (R85, R212). -/
theorem undefinedCommand_of_fault {s : State} (hp : s.ph = .fault) (op sym : BitVec 8) :
    undefinedCommand op sym s = .next (s.respond .eFaulted 0) := if_pos hp

/-- Settles O41: the step takes the word off the stream, and the rule of R85 looks at the phase. -/
theorem undefinedOpcodeRaises : Obligations.UndefinedOpcodeRaises := by
  intro s w rest e hin hd
  rw [step_of_command hin, runCommand_of_error hd]
  refine ⟨fun hf => ?_, fun hf => undefinedCommand_of_fault (s := { s with input := rest }) hf ..⟩
  rw [undefinedCommand, if_neg hf, State.raise, if_neg hf]
  rfl

end Sys2Proof.Machine
end

section
/-! PROOFS. Phase FAULT, and the first error that applies (60_exceptions.md R210 to R214). -/

namespace Sys2Proof.Machine

/-- A register number that passes the range check of R82 names a register (R37). -/
theorem statusRegister_of_operandOk {r : BitVec 8} (ho : operandOk (.rds r) = true) (s : State) :
    ∃ d, statusRegister r s = some d := by
  unfold statusRegister
  split
  case h_16 =>
    simp only [imp_false] at *
    simp only [operandOk, Bool.and_eq_true, decide_eq_true_eq] at ho
    bv_omega
  all_goals exact ⟨_, rfl⟩

/-- The eight are legal in every phase (R23). -/
theorem legalIn_of_allowedInFault {i : Instr} (h : allowedInFault i = true) (p : Phase) : legalIn i p = true := by
  cases i with
  | nop | clr | rds | ftr | ndr | ndw | ctl | ctb => rfl
  | _ => simp [allowedInFault] at h

/-- A command that only reads answers OK in every state, unless its operand is out of range (R64). -/
theorem exec_of_isObservation {i : Instr} (hi : isObservation i = true) (ho : operandOk i = true) (s : State) :
    ∃ d, exec i s = .next (s.respond .ok d) := by
  cases i with
  | nop => exact ⟨0, exec_nop s⟩
  | ftr v => exact ⟨_, ftrAnswersCount s v⟩
  | ndr j => exact ⟨_, show execNdr j s = _ from execute_of_legal _ rfl rfl⟩
  | ndw j => exact ⟨_, show execNdw j s = _ from execute_of_legal _ rfl rfl⟩
  | ctl v => exact ⟨_, show execCtl v s = _ from execute_of_legal _ rfl rfl⟩
  | ctb v q => exact ⟨_, show execCtb v q s = _ from execute_of_legal _ rfl rfl⟩
  | rds r =>
    obtain ⟨d, hd⟩ := statusRegister_of_operandOk ho s
    exact ⟨d, rds_answers ho hd⟩
  | _ => simp [isObservation, allowedInFault] at hi

/-- Settles O43: the commands outside the eight and the undefined opcodes are refused, and of the seven that only read
RDS alone has an operand to be out of range. -/
theorem faultPhaseKeepsTheState : Obligations.FaultPhaseKeepsTheState := by
  refine fun i s hp => ⟨exec_of_fault hp, fun w e hd => ?_, fun ha hclr => ?_⟩
  · exact (runCommand_of_error hd s).trans (undefinedCommand_of_fault hp ..)
  cases ho : operandOk i with
  | true =>
    have hi : isObservation i = true := by
      cases i with
      | clr => exact absurd rfl hclr
      | _ => exact ha
    obtain ⟨d, hd⟩ := exec_of_isObservation hi ho s
    exact ⟨.ok, d, hd, .inl rfl⟩
  | false =>
    have hrds : ∃ r, i = .rds r := by
      cases i with
      | rds r => exact ⟨r, rfl⟩
      | ftw | setn => simp [allowedInFault] at ha
      | _ => simp [operandOk] at ho
    have hraise := exec_of_badOperand (legalIn_of_allowedInFault ha s.ph) ((operandOk_eq_wellFormed i).symm.trans ho)
    exact ⟨.eOperand, 0, hraise.trans (congrArg _ (State.raise_of_fault hp ..)), .inr ⟨rfl, hrds⟩⟩

/-! The first error that applies (R83, R211). -/

/-- A command for which R23 lists no error but E_OPERAND, and which never stops, completes when all checks pass: the
eight, and those whose operand has a range. -/
theorem exec_completes {i : Instr} (hi : allowedInFault i = true ∨ .eOperand ∈ mayRaise i) {s : State}
    (hl : legalIn i s.ph = true) (ho : operandOk i = true) : ∃ t, exec i s = .next t ∧ Completes s i t := by
  cases i with
  | nop | rds | ftr | ndr | ndw | ctl | ctb =>
    obtain ⟨d, hd⟩ := exec_of_isObservation rfl ho s
    exact ⟨_, hd, .observe d rfl⟩
  | clr => exact ⟨_, clr_clears s, .clr⟩
  | ftw v c => exact ⟨_, show execFtw v c s = _ from execute_of_legal _ hl ho, .ftw v c⟩
  | setn sym n => exact ⟨_, show execSetn sym n s = _ from execute_of_legal _ hl ho, .setn sym n⟩
  | _ => simp [allowedInFault, mayRaise] at hi

/-- When all checks pass a command completes, or raises an error of its own: not E_OPERAND, which is a check's. -/
theorem exec_of_checks_passed {i : Instr} {s t : State} (hl : legalIn i s.ph = true) (ho : operandOk i = true)
    (h : exec i s = .next t) :
    Completes s i t ∨ ∃ e ∈ mayRaise i, e ≠ .eOperand ∧ t = s.raise e i.opcode i.sym := by
  by_cases hi : allowedInFault i = true ∨ .eOperand ∈ mayRaise i
  · obtain ⟨t', ht', hc⟩ := exec_completes hi hl ho
    cases ht'.symm.trans h
    exact .inl hc
  obtain ⟨hf, -⟩ | ⟨e, ⟨hl', -⟩ | ⟨-, hm⟩, ht⟩ | ⟨-, -, hc⟩ := exec_cases h
  · exact absurd (.inl (legalIn_fault i (hf ▸ hl))) hi
  · simp [hl] at hl'
  · exact .inr ⟨e, hm, fun he => hi (.inr (he ▸ hm)), ht⟩
  · exact .inl hc

/-- `FirstError i s st`: `st` is the status R83's order of checks gives the command `i` in state `s`. -/
inductive FirstError (i : Instr) (s : State) : Status → Prop
  | refused (hf : s.ph = .fault) (ha : allowedInFault i = false) : FirstError i s .eFaulted
  | outOfPhase (hf : s.ph ≠ .fault) (hl : legalIn i s.ph = false) : FirstError i s .eSeq
  | badOperand (hl : legalIn i s.ph = true) (hw : i.wellFormed = false) : FirstError i s .eOperand
  | own {e : Status} (hl : legalIn i s.ph = true) (hw : i.wellFormed = true) (hm : e ∈ mayRaise i)
      (he : e ≠ .eOperand) : FirstError i s e
  | none (hl : legalIn i s.ph = true) (hw : i.wellFormed = true) : FirstError i s .ok

/-- A command answers the first error that applies (R83, R211). -/
theorem exec_firstError {i : Instr} {s t : State} (h : exec i s = .next t) :
    ∃ st d, t.rsps = s.rsps ++ [⟨st, d⟩] ∧ FirstError i s st := by
  obtain ⟨body, hbody⟩ := exec_eq_execute i
  have hw := operandOk_eq_wellFormed i
  obtain ⟨hf, ha, rfl⟩ | ⟨hn, hl, rfl⟩ | ⟨-, hl, ho, rfl⟩ | ⟨-, hl, ho, -⟩ := execute_cases ((hbody s).symm.trans h)
  · exact ⟨_, _, State.respond_rsps .., .refused hf ha⟩
  · refine ⟨_, _, State.raise_rsps .., .outOfPhase (fun hf => hn ⟨hf, ?_⟩) hl⟩
    exact Bool.eq_false_iff.2 fun ha => by simp [legalIn_of_allowedInFault ha] at hl
  · exact ⟨_, _, State.raise_rsps .., .badOperand hl (hw.symm.trans ho)⟩
  · obtain hc | ⟨e, hm, he, rfl⟩ := exec_of_checks_passed hl ho h
    · obtain ⟨d, hd⟩ := hc.rsps_eq
      exact ⟨_, d, hd, .none hl (hw.symm.trans ho)⟩
    · exact ⟨_, _, State.raise_rsps .., .own hl (hw.symm.trans ho) hm he⟩

/-- The errors of a command's own rule (R202, R203, R207). -/
theorem own_error_of_mem_mayRaise {i : Instr} {e : Status} (hm : e ∈ mayRaise i) (he : e ≠ .eOperand) :
    e = .eTree ∨ e = .eNoCode ∨ e = .eSize := by
  cases i <;> simp_all [mayRaise]

/-- The eight have no error but E_OPERAND (R23, R212). -/
theorem eq_eOperand_of_allowedInFault {i : Instr} {e : Status} (ha : allowedInFault i = true) (hm : e ∈ mayRaise i) :
    e = .eOperand := by
  cases i <;> simp_all [allowedInFault, mayRaise]

/-- Settles O44: for an undefined opcode the phase decides, and for a command the check that fails first; a command that
passes the phase check in FAULT is one of the eight. -/
theorem firstApplicableErrorIsReported : Obligations.FirstApplicableErrorIsReported := by
  intro w s t h
  cases hd : decode w with
  | error e =>
    rw [runCommand_of_error hd] at h
    obtain ⟨hf, rfl⟩ | ⟨hf, rfl⟩ := undefinedCommand_cases h
    · exact ⟨_, _, State.respond_rsps .., by simp [hf]⟩
    · exact ⟨_, _, State.raise_rsps .., by simp [hf]⟩
  | ok i =>
    rw [runCommand_of_ok hd] at h
    obtain ⟨st, d, hr, hst⟩ := exec_firstError h
    have hlegal (hl : legalIn i s.ph = true) : s.ph = .fault → allowedInFault i = true :=
      fun hf => legalIn_fault i (hf ▸ hl)
    refine ⟨st, d, hr, ?_⟩
    cases hst with
    | refused hf ha =>
      have hl : legalIn i .fault = false := Bool.eq_false_iff.2 fun hl => by simp [legalIn_fault i hl] at ha
      simp [hf, ha, hl]
    | outOfPhase hf hl => simp [hf, hl]
    | badOperand hl hw => simpa [hl, hw] using hlegal hl
    | own hl hw hm he =>
      have hf : s.ph ≠ .fault := fun hf => he (eq_eOperand_of_allowedInFault (hlegal hl hf) hm)
      obtain rfl | rfl | rfl := own_error_of_mem_mayRaise hm he <;> simp [hf, hl, hw, hm]
    | none hl hw => simpa [hl, hw] using hlegal hl

/-! What an error leaves unchanged (R210). -/

/-- The fault action changes ERR, ERRCMD and PH, and answers (R210). -/
theorem State.raise_eq (s : State) (e : Status) (op sym : BitVec 8) :
    s.raise e op sym = { s with
      err := (s.raise e op sym).err, errcmd := (s.raise e op sym).errcmd, ph := .fault
      rsps := s.rsps ++ [⟨e, 0⟩] } := by
  unfold State.raise
  split
  next hf => rw [← hf]; rfl
  · rfl

/-- A command that can raise carries the `op` and the `sym` its word presents (R25, R86): `sym` is among the bits that
matter to it. -/
theorem CanRaise.fields_of_decode {w : CmdWord} {i : Instr} {s : State} {e : Status} (h : CanRaise i s e)
    (hd : decode w = .ok i) : i.opcode = opField w ∧ i.sym = symField w := by
  have hw := (decode_eq_ok_iff w i).1 hd
  cases i with
  | nop | clr | ndr | ndw => simp [CanRaise, legalIn, mayRaise] at h
  | _ =>
    rw [Instr.usedMask, encode, and_cmdWord, cmdWord_inj] at hw
    obtain ⟨hop, hsym, -⟩ := hw
    exact ⟨hop.symm.trans (and_byteMask _), hsym.symm.trans (and_byteMask _)⟩

/-- Everything a word can do when it is answered: be answered OK, or have the fault action taken for it with the `op`
and `sym` it presents (R210). -/
theorem runCommand_ok_or_raise {w : CmdWord} {s t : State} (h : runCommand w s = .next t) :
    (∃ d, t.rsps = s.rsps ++ [⟨.ok, d⟩]) ∨ ∃ e, t = s.raise e (opField w) (symField w) := by
  cases hd : decode w with
  | error e =>
    rw [runCommand_of_error hd] at h
    obtain ⟨hf, rfl⟩ | ⟨-, rfl⟩ := undefinedCommand_cases h
    · exact .inr ⟨.eFaulted, (State.raise_of_fault hf ..).symm⟩
    · exact .inr ⟨_, rfl⟩
  | ok i =>
    rw [runCommand_of_ok hd] at h
    obtain ⟨hf, rfl⟩ | ⟨e, he, rfl⟩ | ⟨-, -, hc⟩ := exec_cases h
    · exact .inr ⟨.eFaulted, (State.raise_of_fault hf ..).symm⟩
    · obtain ⟨hop, hsym⟩ := he.fields_of_decode hd
      exact .inr ⟨e, by rw [hop, hsym]⟩
    · exact .inl hc.rsps_eq

/-- Settles O45: a word that is not answered OK had the fault action taken for it. -/
theorem failedCommandChangesNothingElse : Obligations.FailedCommandChangesNothingElse := by
  intro w s t st d h hr hst
  have hlast {st' : Status} {d' : BitVec 64} (hr' : t.rsps = s.rsps ++ [⟨st', d'⟩]) : st = st' :=
    congrArg Response.status (List.singleton_inj.1 (List.append_cancel_left (hr.symm.trans hr')))
  obtain ⟨d', hok⟩ | ⟨e, rfl⟩ := runCommand_ok_or_raise h
  · exact absurd (hlast hok) hst
  obtain rfl := hlast (State.raise_rsps ..)
  refine ⟨State.raise_eq .., fun hf => ?_, fun hf => ?_⟩
  · simp [State.raise_err, State.raise_errcmd, hf]
  · simp [State.raise_err, State.raise_errcmd, hf, cmdId]

end Sys2Proof.Machine
end

section
/-! PROOFS. Reset (70_reset_and_hazards.md R230). -/

namespace Sys2Proof.Machine

/-- A step in which the host holds `rst` gives the reset state, whatever the block was doing (R230). -/
theorem step_of_reset {s : State} {w : Option CmdWord} {rest : List HostInput} (h : s.input = .reset w :: rest) :
    step s = .next (resetKeepingInput rest) := by
  rw [step, h]

/-- Settles O7: the reset state is a cleared one, and the pins follow PH. -/
theorem rstGivesResetState : Obligations.RstGivesResetState :=
  fun _ _ rest h =>
    ⟨_, step_of_reset h, State.clear_atResetValues { State.reset with input := rest }, rfl, rfl, rfl, rfl⟩

end Sys2Proof.Machine
end
